-- ==== Sys2Proof/Word.lean ====
section
/-! DEFINITION. The machine's word types. A bus word, a register and a binary32 coefficient are all
32 bits (R10, R90); an image sample and a stream byte are 8 bits (R60). -/

namespace Sys2Proof

/-- A 32-bit word: a bus word, a register, a command word, a binary32 encoding (R10, R90, R99). -/
abbrev Word := BitVec 32

/-- An 8-bit element of IMAGE or STREAM (R60). -/
abbrev Byte := BitVec 8

end Sys2Proof
end

