-- ==== Sys2Proof/Config.lean ====
section
/-! DEFINITION. The implementation parameters of R7 and R8. A model takes them as arguments, so they
are data: State carries one value of `Params`, no step writes it, and every statement over all states
is a statement over all legal parameters (log 3). -/

namespace Sys2Proof

/-- The three named parameters of R7. -/
structure Params where
  /-- W_MAX: the largest legal WIDTH, in samples. -/
  wMax : Nat
  /-- H_MAX: the largest legal HEIGHT, in samples. -/
  hMax : Nat
  /-- BS_CAP: the capacity of the STREAM memory, in bytes. -/
  bsCap : Nat
  deriving DecidableEq, Repr

/-- The constraints R7 puts on the parameters. -/
abbrev Params.Legal (p : Params) : Prop :=
  (2 ≤ p.wMax ∧ p.wMax ≤ 65535) ∧ (2 ≤ p.hMax ∧ p.hMax ≤ 65535) ∧
    (p.wMax * p.hMax + 1 ≤ p.bsCap ∧ p.bsCap ≤ 2 ^ 26) ∧ p.wMax * p.hMax ≤ 2 ^ 26

/-- The recommended values of R7. -/
def Params.recommended : Params := { wMax := 256, hMax := 256, bsCap := 65537 }

/-- R8: how many elements the IMAGE memory and the PLANE memory hold, each. -/
def Params.planeSize (p : Params) : Nat := p.wMax * p.hMax

/-- R33: the constant the ID register reads as. -/
def Config.idValue : Word := 0x48575431

end Sys2Proof
end

