-- ==== Sys2Proof/Machine/State.lean ====
section
/-! DEFINITION. The machine's state as plain data: every register of R31, the hidden PEND (R53), the
three memories (R60), and three fields of the model's own: the parameters (log 3), the events still
to come (log 1) and the bus replies given so far (log 2). -/

namespace Sys2Proof.Machine

/-- The three memories of R60. -/
inductive MemId where
  | image
  | plane
  | stream
  deriving DecidableEq, Repr

/-- A memory as a list of (element index, value) pairs in one canonical form: indices strictly
rising. An element that is not listed holds ⊥ (R64; log 4). IMAGE and STREAM are lists of
`Host.Cell`; an element of PLANE is one 32-bit word, which no byte order splits (R99). -/
abbrev Memory (α : Type) := List (Nat × α)

/-- The canonical form: indices strictly rising. An unlisted element reads as no value, so no listed
value equals what an unlisted element reads as. -/
def Memory.wf {α : Type} : Memory α → Bool
  | [] => true
  | [_] => true
  | (a, _) :: (b, y) :: m => decide (a < b) && Memory.wf ((b, y) :: m)

/-- The response of the bus (R90). -/
inductive Resp where
  | okay
  | error
  deriving DecidableEq, Repr

/-- What the bus answers to one transaction (R90): `Read` returns data and a response, `Write` a
response. -/
inductive Reply where
  | read (data : Word) (resp : Resp)
  | write (resp : Resp)
  deriving DecidableEq, Repr

/-- What can happen next outside a command's own effect (R24; log 1). -/
inductive Event where
  /-- The host issues `Read(addr)` (R90). -/
  | read (addr : Word)
  /-- The host issues `Write(addr, data)` (R90). -/
  | write (addr data : Word)
  /-- The environment asserts the reset input (R370). -/
  | rst
  /-- The core takes its turn: it completes the pending command, if there is one (R54). -/
  | core
  deriving DecidableEq, Repr

/-- The state of HWT (R30), with the model's own fields `params`, `env` and `replies`. -/
structure State where
  /-- The parameters W_MAX, H_MAX and BS_CAP (R7); no step writes them (R49, R373; log 3). -/
  params : Params
  /-- CTRL.IE_DONE (R34). -/
  ieDone : Bool
  /-- CTRL.IE_ERR (R34). -/
  ieErr : Bool
  /-- CMD: the last accepted command word (R35). -/
  cmd : Word
  /-- STATUS.BUSY (R36). -/
  busy : Bool
  /-- STATUS.DONE (R36). -/
  done : Bool
  /-- STATUS.ERRV (R36). -/
  errv : Bool
  /-- STATUS.QCLAMP (R36). -/
  qclamp : Bool
  /-- STATUS.OCLAMP (R36). -/
  oclamp : Bool
  /-- STATUS.VTRUNC (R36). -/
  vtrunc : Bool
  /-- STATUS.ERRCODE (R36, R331). -/
  errcode : BitVec 4
  /-- WIDTH[15:0] (R37). -/
  width : BitVec 16
  /-- HEIGHT[15:0] (R38). -/
  height : BitVec 16
  /-- LEVELS[2:0] (R39). -/
  levels : BitVec 3
  /-- CUR_LEVEL[2:0] (R40). -/
  curLevel : BitVec 3
  /-- STREAM_LEN (R41). -/
  streamLen : Word
  /-- WPTR (R42). -/
  wptr : Word
  /-- WSTATE.WBUF (R43). -/
  wbuf : Byte
  /-- WSTATE.WFREE (R43). -/
  wfree : BitVec 4
  /-- RPTR (R44). -/
  rptr : Word
  /-- RSTATE.RBUF (R45). -/
  rbuf : Byte
  /-- RSTATE.RAVAIL (R45). -/
  ravail : BitVec 4
  /-- PULL_DATA[7:0] (R46). -/
  pullData : Byte
  /-- Q_COEF (R47). -/
  qCoef : Word
  /-- Q_INDEX[7:0] (R48). -/
  qIndex : Byte
  /-- PEND: the command being executed (R53). -/
  pend : Word
  /-- The IMAGE memory (R60). -/
  image : Memory Byte
  /-- The PLANE memory (R60). -/
  plane : Memory Word
  /-- The STREAM memory (R60). -/
  stream : Memory Byte
  /-- The events still to come, oldest first (the model's own; log 1). -/
  env : List Event
  /-- The bus replies given so far, oldest first (the model's own; log 2). -/
  replies : List Reply
  deriving DecidableEq, Repr

/-- Why the machine stops. -/
inductive Fault where
  /-- UNINIT_READ(memory, index) of R65: a host read while BUSY = 0, or a command, reads an element
  that holds ⊥. Raised by the bus read and by LOAD_IMAGE, STORE_IMAGE, FWD_LEVEL, INV_LEVEL, FWD_ALL,
  INV_ALL, QPACK, UNPACK_DQ, ENCODE, DECODE and PULL. Safe: the hardware goes on with a value no
  source defines, the model stops. -/
  | uninitRead (mem : MemId) (index : Nat)
  deriving DecidableEq, Repr

/-- Why an instruction has no meaning. -/
inductive Refusal where
  /-- The instruction is not modelled yet. Raised by `exec`'s refused arms; there is none. Safe. -/
  | notModelled (mnemonic : String)
  deriving DecidableEq, Repr

/-- The state right after hardware reset (R31, R370) for given parameters: every register at its reset
value, every memory element ⊥, nothing outstanding. -/
def State.resetWith (p : Params) : State where
  params := p
  ieDone := false
  ieErr := false
  cmd := 0x00000000
  busy := false
  done := false
  errv := false
  qclamp := false
  oclamp := false
  vtrunc := false
  errcode := 0
  width := 0
  height := 0
  levels := 0
  curLevel := 0
  streamLen := 0x00000000
  wptr := 0x00000000
  wbuf := 0x00
  wfree := 8
  rptr := 0x00000000
  rbuf := 0x00
  ravail := 0
  pullData := 0x00
  qCoef := 0x00000000
  qIndex := 0x00
  pend := 0x00000000
  image := []
  plane := []
  stream := []
  env := []
  replies := []

/-- The machine right after hardware reset, with the recommended parameters of R7 (log 3). -/
def State.reset : State := State.resetWith Params.recommended

end Sys2Proof.Machine
end

