-- ==== Sys2Proof/Machine/Float.lean ====
section
/-! DEFINITION. The numeric primitives of R13 and R14 on binary32 encodings. A finite binary32 value
is an integer multiple of 2^-149, so its value is held exactly as an integer count of that unit, and
every exact sum, difference and half is an integer count of 2^-150 (log 12). -/

namespace Sys2Proof.Machine

/-- The sign bit, bit 31. -/
def f32Sign (x : Word) : Bool := x.getLsbD 31

/-- The biased exponent, bits [30:23]. -/
def f32Exp (x : Word) : Nat := (x.extractLsb' 23 8).toNat

/-- The fraction, bits [22:0]. -/
def f32Frac (x : Word) : Nat := (x.extractLsb' 0 23).toNat

/-- `x` is a NaN. -/
def f32IsNaN (x : Word) : Bool := f32Exp x == 255 && f32Frac x != 0

/-- `x` is +∞ or −∞. -/
def f32IsInf (x : Word) : Bool := f32Exp x == 255 && f32Frac x == 0

/-- `x` is a finite number. -/
def f32IsFinite (x : Word) : Bool := f32Exp x != 255

/-- The magnitude of a finite `x`, in units of 2^-149: the fraction itself for a zero or a subnormal
(exponent field 0), and (2^23 + fraction) · 2^(exponent − 1) for a normal number. -/
def f32Mag (x : Word) : Nat :=
  if f32Exp x = 0 then f32Frac x else (2 ^ 23 + f32Frac x) * 2 ^ (f32Exp x - 1)

/-- `val(x)` of R13 for a finite `x`, in units of 2^-149. -/
def f32Units (x : Word) : Int := if f32Sign x then -(f32Mag x : Int) else (f32Mag x : Int)

/-- `val(x)` of R13 for a finite `x`, as a rational number. -/
def f32Val (x : Word) : Rat := (f32Units x : Rat) / 2 ^ 149

/-- The canonical NaN (R13). -/
def canonicalNaN : Word := 0x7FC00000

/-- ±∞. -/
def f32Inf (neg : Bool) : Word := if neg then 0xFF800000 else 0x7F800000

/-- ±0. -/
def f32Zero (neg : Bool) : Word := if neg then 0x80000000 else 0x00000000

/-- Round `m` / 2^`t` to the nearest integer, ties to the even one (roundTiesToEven). -/
def roundQuot (m t : Nat) : Nat :=
  let q := m / 2 ^ t
  let r := m % 2 ^ t
  if 2 ^ t < 2 * r ∨ (2 * r = 2 ^ t ∧ q % 2 = 1) then q + 1 else q

/-- Bits [30:0] of the binary32 value nearest to `m` · 2^-150: 24 significant bits are kept (`t` is the
weight of the last one, at least one unit of 2^-149, so small results are subnormal), a carry out of
the significand moves into the exponent, and a result of 2^128 or more is ∞ (exponent 255). -/
def roundMag (m : Nat) : Nat :=
  let t := max 1 (m.log2 - 23)
  min ((t - 1) * 2 ^ 23 + roundQuot m t) (255 * 2 ^ 23)

/-- A sign and 31 magnitude bits as an encoding. -/
def f32Pack (neg : Bool) (mag : Nat) : Word := BitVec.ofNat 32 (mag + if neg then 2 ^ 31 else 0)

/-- `rnd32(n · 2^-150)` of R13, for an exact `n`; 0 becomes +0. The sign of a nonzero exact value is
kept when it rounds to zero (IEEE 754). -/
def rnd32 (n : Int) : Word := f32Pack (decide (n < 0)) (roundMag n.natAbs)

/-- The negation of an encoding: the sign bit flipped. -/
def f32Neg (x : Word) : Word := x ^^^ 0x80000000

/-- `add32(a, b)` of R13. -/
def add32 (a b : Word) : Word :=
  if f32IsNaN a || f32IsNaN b then canonicalNaN
  else if f32IsInf a then
    if f32IsInf b && (f32Sign a != f32Sign b) then canonicalNaN else f32Inf (f32Sign a)
  else if f32IsInf b then f32Inf (f32Sign b)
  else
    let n := f32Units a + f32Units b
    if n = 0 then f32Zero (f32Sign a && f32Sign b) else rnd32 (2 * n)

/-- `sub32(a, b)` of R13: IEEE 754 subtraction is addition of the negated operand. -/
def sub32 (a b : Word) : Word := add32 a (f32Neg b)

/-- `half32(a)` of R13: division by 2. -/
def half32 (a : Word) : Word :=
  if f32IsNaN a then canonicalNaN
  else if f32IsInf a then f32Inf (f32Sign a)
  else if f32Units a = 0 then f32Zero (f32Sign a)
  else rnd32 (f32Units a)

/-- `cvt32(n)` of R13: the binary32 value of an integer. -/
def cvt32 (n : Nat) : Word := rnd32 ((n : Int) * 2 ^ 150)

end Sys2Proof.Machine
end

