-- ==== Sys2Proof/Syntax.lean ====
section
/-! DEFINITION. The commands of HWT-CMD v1, one constructor per row of the opcode table (R134). The
fields are the unsigned integers of R132; that a field fits its bits is `Instr.wellFormed`. -/

namespace Sys2Proof

/-- A command with its used fields (R131, R132). -/
inductive Instr where
  /-- NOP (R280). -/
  | nop
  /-- LOAD_IMAGE (R282). -/
  | loadImage
  /-- STORE_IMAGE (R284). -/
  | storeImage
  /-- FWD_LEVEL (R172). -/
  | fwdLevel
  /-- INV_LEVEL (R176). -/
  | invLevel
  /-- FWD_ALL (R180). -/
  | fwdAll
  /-- INV_ALL (R182). -/
  | invAll
  /-- QPACK (R290). -/
  | qpack
  /-- UNPACK_DQ (R292). -/
  | unpackDq
  /-- ENCODE (R296). -/
  | encode
  /-- DECODE (R298). -/
  | decode
  /-- BP_INIT (R244). -/
  | bpInit
  /-- PUSH v, w (R246). -/
  | push (v w : Nat)
  /-- FLUSH (R250). -/
  | flush
  /-- PULL w (R254). -/
  | pull (w : Nat)
  /-- QUANT k (R216). -/
  | quant (k : Nat)
  /-- DEQUANT k (R218). -/
  | dequant (k : Nat)
  deriving DecidableEq, Repr

end Sys2Proof
end

