-- ==== Sys2Proof/WellFormed.lean ====
section
/-! DEFINITION. Which commands have an encoding: every used field fits its bits (R130, R139). -/

namespace Sys2Proof

/-- "An assembler refuses a field value that does not fit the field's width" (R139): V in 0..255,
W in 0..15, K in 0..7. -/
def Instr.wellFormed : Instr → Bool
  | .push v w => decide (v ≤ 255) && decide (w ≤ 15)
  | .pull w => decide (w ≤ 15)
  | .quant k => decide (k ≤ 7)
  | .dequant k => decide (k ≤ 7)
  | .nop => true
  | .loadImage => true
  | .storeImage => true
  | .fwdLevel => true
  | .invLevel => true
  | .fwdAll => true
  | .invAll => true
  | .qpack => true
  | .unpackDq => true
  | .encode => true
  | .decode => true
  | .bpInit => true
  | .flush => true

end Sys2Proof
end

