-- ==== Sys2Proof/Decode.lean ====
section
/-! DEFINITION. Command words: decoding (R130 to R136), the opcode table's rows (R134) and the
encoder (R139). Decoding is total on the 2^32 words and rejects by the error codes of R331. -/

namespace Sys2Proof

/-- The command errors of R331. NONE (code 0) is no error and has no constructor. -/
inductive CmdError where
  /-- 1: the OP field is not in the opcode table. -/
  | illegalOp
  /-- 2: a must-be-zero bit of a legal OP is 1. -/
  | rsvdField
  /-- 3: `CFG_OK` is false. -/
  | badConfig
  /-- 4: CUR_LEVEL is not legal for the command. -/
  | badLevel
  /-- 5: the W field is 0 or 9..15. -/
  | badWidth
  /-- 6: the command would write STREAM at an index ≥ BS_CAP. -/
  | streamOverflow
  /-- 7: the command would fetch STREAM at an index ≥ min(STREAM_LEN, BS_CAP). -/
  | streamUnderrun
  deriving DecidableEq, Repr

/-- R331: the value of ERRCODE for an error. -/
def CmdError.code : CmdError → BitVec 4
  | .illegalOp => 1
  | .rsvdField => 2
  | .badConfig => 3
  | .badLevel => 4
  | .badWidth => 5
  | .streamOverflow => 6
  | .streamUnderrun => 7

/-- The OP field, bits [7:0] (R130). -/
def fieldOp (word : Word) : Nat := (word.extractLsb' 0 8).toNat

/-- The W field, bits [11:8] (R130). -/
def fieldW (word : Word) : Nat := (word.extractLsb' 8 4).toNat

/-- The K field, bits [14:12] (R130). -/
def fieldK (word : Word) : Nat := (word.extractLsb' 12 3).toNat

/-- The V field, bits [23:16] (R130). -/
def fieldV (word : Word) : Nat := (word.extractLsb' 16 8).toNat

/-- The command an opcode names, with the fields it uses; `none` for an OP outside the table (R134). -/
def instrOf (op w k v : Nat) : Option Instr :=
  match op with
  | 0x00 => some .nop
  | 0x01 => some .loadImage
  | 0x02 => some .storeImage
  | 0x03 => some .fwdLevel
  | 0x04 => some .invLevel
  | 0x05 => some .fwdAll
  | 0x06 => some .invAll
  | 0x07 => some .qpack
  | 0x08 => some .unpackDq
  | 0x09 => some .encode
  | 0x0A => some .decode
  | 0x10 => some .bpInit
  | 0x11 => some (.push v w)
  | 0x12 => some .flush
  | 0x13 => some (.pull w)
  | 0x20 => some (.quant k)
  | 0x21 => some (.dequant k)
  | _ => none

/-- The bits above OP that an opcode uses (R131, R135). -/
def usedMask (op : Nat) : Word :=
  match op with
  | 0x11 => 0x00FF0F00
  | 0x13 => 0x00000F00
  | 0x20 => 0x00007000
  | 0x21 => 0x00007000
  | _ => 0x00000000

/-- R135: decode a command word, as the completion step does on PEND. -/
def decode (word : Word) : Except CmdError Instr :=
  let op := fieldOp word
  match instrOf op (fieldW word) (fieldK word) (fieldV word) with
  | none => .error .illegalOp
  | some i =>
    if word &&& ~~~(0x000000FF ||| usedMask op) ≠ 0 then .error .rsvdField else .ok i

/-- A word of the opcode table, as the table numbers its bits: one command is one 32-bit word, so the
first `nbits` bits of `w` are bits nbits-1..0 of the command word and the bits above are 0 (R130). -/
def decodeTableWord (nbits w : Nat) : Option Instr :=
  match decode (BitVec.ofNat 32 (w % 2 ^ nbits)) with
  | .ok i => some i
  | .error _ => none

/-- The OP value of a command (R134). -/
def Instr.op : Instr → Word
  | .nop => 0x00
  | .loadImage => 0x01
  | .storeImage => 0x02
  | .fwdLevel => 0x03
  | .invLevel => 0x04
  | .fwdAll => 0x05
  | .invAll => 0x06
  | .qpack => 0x07
  | .unpackDq => 0x08
  | .encode => 0x09
  | .decode => 0x0A
  | .bpInit => 0x10
  | .push _ _ => 0x11
  | .flush => 0x12
  | .pull _ => 0x13
  | .quant _ => 0x20
  | .dequant _ => 0x21

/-- The used fields of a command at their bit positions (R130, R139). -/
def Instr.fieldBits : Instr → Word
  | .push v w => (BitVec.ofNat 32 v <<< 16) ||| (BitVec.ofNat 32 w <<< 8)
  | .pull w => BitVec.ofNat 32 w <<< 8
  | .quant k => BitVec.ofNat 32 k <<< 12
  | .dequant k => BitVec.ofNat 32 k <<< 12
  | .nop => 0
  | .loadImage => 0
  | .storeImage => 0
  | .fwdLevel => 0
  | .invLevel => 0
  | .fwdAll => 0
  | .invAll => 0
  | .qpack => 0
  | .unpackDq => 0
  | .encode => 0
  | .decode => 0
  | .bpInit => 0
  | .flush => 0

/-- R139: the word of a command. -/
def encode (i : Instr) : Word := i.fieldBits ||| i.op

/-- R139: the assembler, which refuses a field value that does not fit the field's width. -/
def assemble (i : Instr) : Option Word := if i.wellFormed then some (encode i) else none

/-- R134: the `mask` column of a command's row. -/
def Instr.rowMask : Instr → Word
  | .push _ _ => 0xFF00F0FF
  | .pull _ => 0xFFFFF0FF
  | .quant _ => 0xFFFF8FFF
  | .dequant _ => 0xFFFF8FFF
  | .nop => 0xFFFFFFFF
  | .loadImage => 0xFFFFFFFF
  | .storeImage => 0xFFFFFFFF
  | .fwdLevel => 0xFFFFFFFF
  | .invLevel => 0xFFFFFFFF
  | .fwdAll => 0xFFFFFFFF
  | .invAll => 0xFFFFFFFF
  | .qpack => 0xFFFFFFFF
  | .unpackDq => 0xFFFFFFFF
  | .encode => 0xFFFFFFFF
  | .decode => 0xFFFFFFFF
  | .bpInit => 0xFFFFFFFF
  | .flush => 0xFFFFFFFF

/-- R134: the `match` column of a command's row. -/
def Instr.rowMatch : Instr → Word
  | .nop => 0x00000000
  | .loadImage => 0x00000001
  | .storeImage => 0x00000002
  | .fwdLevel => 0x00000003
  | .invLevel => 0x00000004
  | .fwdAll => 0x00000005
  | .invAll => 0x00000006
  | .qpack => 0x00000007
  | .unpackDq => 0x00000008
  | .encode => 0x00000009
  | .decode => 0x0000000A
  | .bpInit => 0x00000010
  | .push _ _ => 0x00000011
  | .flush => 0x00000012
  | .pull _ => 0x00000013
  | .quant _ => 0x00000020
  | .dequant _ => 0x00000021

/-- R134: "a word is the command of a row when `(word & mask) = match`". -/
abbrev Instr.rowMatches (i : Instr) (word : Word) : Prop := word &&& i.rowMask = i.rowMatch

end Sys2Proof
end

