-- ==== Sys2Proof/Machine/Ops.lean ====
section
/-! DEFINITION. The named operations over memory and registers, the life of a command (R53, R54), its
error outcome (R332, HWT's trap entry of R340) and the acknowledgement (R341, its trap return), and
the two resets (R370, R372). -/

namespace Sys2Proof.Machine

/-! Memories. -/

/-- `MemRead(M, i)` of R12 as a value or ⊥. -/
def Memory.read {α : Type} : Memory α → Nat → Option α
  | [], _ => none
  | (a, x) :: m, i => if a = i then some x else Memory.read m i

/-- `MemWrite(M, i, v)` of R12, keeping the indices rising. -/
def Memory.write {α : Type} : Memory α → Nat → α → Memory α
  | [], i, v => [(i, v)]
  | (a, x) :: m, i, v =>
    if i < a then (i, v) :: (a, x) :: m
    else if i = a then (i, v) :: m
    else (a, x) :: Memory.write m i v

/-- Writes one after another, in list order. -/
def Memory.writeAll {α : Type} (m : Memory α) : List (Nat × α) → Memory α
  | [] => m
  | (i, v) :: ws => Memory.writeAll (Memory.write m i v) ws

/-- `MemRead` inside a command or by the host: ⊥ is the fault UNINIT_READ (R65). -/
def fetchElem {α : Type} (id : MemId) (m : Memory α) (i : Nat) : Except Fault α :=
  match m.read i with
  | some v => .ok v
  | none => .error (.uninitRead id i)

/-- Reads of the listed elements in list order, for their faults only: the first one that holds ⊥ is
named (R65; log 9). -/
def requireAll {α : Type} (id : MemId) (m : Memory α) : List Nat → Except Fault Unit
  | [] => .ok ()
  | i :: is =>
    match m.read i with
    | some _ => requireAll id m is
    | none => .error (.uninitRead id i)

/-! The life of a command. -/

/-- R53: the accept step. -/
def State.accept (s : State) (data : Word) : State :=
  { s with cmd := data, pend := data, busy := true, done := false, errv := false, errcode := 0 }

/-- R54: what every completion does. -/
def State.complete (s : State) : State := { s with busy := false, done := true }

/-- R332: the error outcome, the one way a command fails. Nothing else changes. -/
def State.raiseError (s : State) (e : CmdError) : State :=
  { s with errcode := e.code, errv := true, busy := false, done := true }

/-- R36, R341: a host write of `data` to STATUS clears the W1C bits written 1; ERRV takes ERRCODE with
it. BUSY is read-only. -/
def State.acknowledge (s : State) (data : Word) : State :=
  { s with
    done := s.done && !data.getLsbD 1
    errv := s.errv && !data.getLsbD 2
    errcode := if data.getLsbD 2 then 0 else s.errcode
    qclamp := s.qclamp && !data.getLsbD 3
    oclamp := s.oclamp && !data.getLsbD 4
    vtrunc := s.vtrunc && !data.getLsbD 5 }

/-- R333: the first error, in the order of the list, whose condition holds. -/
def firstError : List (Bool × CmdError) → Option CmdError
  | [] => none
  | (b, e) :: cs => if b then some e else firstError cs

/-- R54, R332, R334: one command as one atomic completion. Its checks are made on the state at the
start, before anything changes; a failed check is the error outcome on that state; otherwise the
body's effects and the completion, or the model fault of a ⊥ element (R65). -/
def runCommand (check : Option CmdError) (body : State → Except Fault State) (s : State) :
    Host.Outcome State Fault Refusal :=
  match check with
  | some e => .next (s.raiseError e)
  | none =>
    match body s with
    | .ok t => .next t.complete
    | .error f => .fault f

/-! Resets. -/

/-- R370: hardware reset. Every register takes its reset value and every memory element ⊥; the
parameters stay (R373), and so do the environment's own events and the record of replies (log 1, log 2). -/
def State.hardwareReset (s : State) : State :=
  { State.resetWith s.params with env := s.env, replies := s.replies }

/-- R372: soft reset. Every register takes its reset value and no memory element changes. -/
def State.softReset (s : State) : State :=
  { State.resetWith s.params with
    image := s.image, plane := s.plane, stream := s.stream, env := s.env, replies := s.replies }

/-- R55: the irq output. -/
def State.irq (s : State) : Bool := (s.ieDone && s.done) || (s.ieErr && s.errv)

end Sys2Proof.Machine
end

