-- ==== Sys2Proof/Machine/Flags.lean ====
section
/-! DEFINITION. The STATUS word (R36), the packed WSTATE, RSTATE and CTRL words (R34, R43, R45) and the
sticky flags of successful commands (R52, R336). -/

namespace Sys2Proof.Machine

/-- One flag at its bit position. -/
def flagBit (b : Bool) (pos : Nat) : Word := if b then 1 <<< pos else 0

/-- R36: STATUS as the host reads it. -/
def State.statusWord (s : State) : Word :=
  flagBit s.busy 0 ||| flagBit s.done 1 ||| flagBit s.errv 2 ||| flagBit s.qclamp 3 |||
    flagBit s.oclamp 4 ||| flagBit s.vtrunc 5 ||| (s.errcode.setWidth 32 <<< 8)

/-- R34: CTRL as the host reads it; SRST reads 0. -/
def State.ctrlWord (s : State) : Word := flagBit s.ieDone 1 ||| flagBit s.ieErr 2

/-- R43: WSTATE as the host reads it. -/
def State.wstateWord (s : State) : Word := s.wbuf.setWidth 32 ||| (s.wfree.setWidth 32 <<< 8)

/-- R45: RSTATE as the host reads it. -/
def State.rstateWord (s : State) : Word := s.rbuf.setWidth 32 ||| (s.ravail.setWidth 32 <<< 8)

/-- R36, R216, R290: QCLAMP is set, and never cleared, by a command that clamped a value. -/
def State.stickQclamp (s : State) (clamped : Bool) : State := { s with qclamp := s.qclamp || clamped }

/-- R36, R284: OCLAMP is set, and never cleared, by a command that clamped a sample. -/
def State.stickOclamp (s : State) (clamped : Bool) : State := { s with oclamp := s.oclamp || clamped }

/-- R36, R246: VTRUNC is set, and never cleared, by a PUSH whose value had bits above its width. -/
def State.stickVtrunc (s : State) (cut : Bool) : State := { s with vtrunc := s.vtrunc || cut }

/-- R210: `sat_trunc8(v)`, the byte and the clamp bit. -/
def satTrunc8 (v : Word) : Nat × Bool :=
  if f32IsNaN v then (0, true)
  else if f32IsInf v then (if f32Sign v then (0, true) else (255, true))
  else
    let t := Int.tdiv (f32Units v) (2 ^ 149)
    if t < 0 then (0, true) else if 255 < t then (255, true) else (t.toNat, false)

/-- R212: `qdet(k, v)`, the index and the clamp bit. `floor((val(v) + 127.5) / 2^k)` is the floor of
(2·units + 255·2^149) / 2^(150 + k), in exact arithmetic. -/
def qdet (k : Nat) (v : Word) : Nat × Bool :=
  let mx : Nat := 2 ^ (8 - k) - 1
  if f32IsNaN v then (0, true)
  else if f32IsInf v then (if f32Sign v then (0, true) else (mx, true))
  else
    let t := Int.fdiv (2 * f32Units v + 255 * 2 ^ 149) (2 ^ (150 + k))
    if t < 0 then (0, true) else if (mx : Int) < t then (mx, true) else (t.toNat, false)

/-- R214: `deq(k, q)` = q·2^k + 2^(k−1) − 127.5, which is (q·2^(k+1) + 2^k − 255) / 2. -/
def deq (k q : Nat) : Word := rnd32 (((q : Int) * 2 ^ (k + 1) + 2 ^ k - 255) * 2 ^ 149)

end Sys2Proof.Machine
end

