-- ==== Sys2Proof/Machine/Bus.lean ====
section
/-! DEFINITION. The host bus: the address map (R91, R92), the register map (R31) and its access types
(R32), reads and writes with BUSY = 0 (R93 to R96) and BUSY = 1 (R380), and bus errors (R97). -/

namespace Sys2Proof.Machine

/-- The registers of R31. -/
inductive Reg where
  | id
  | ctrl
  | cmd
  | status
  | width
  | height
  | levels
  | curLevel
  | streamLen
  | wptr
  | wstate
  | rptr
  | rstate
  | pullData
  | qCoef
  | qIndex
  | pWmax
  | pHmax
  | pBscap
  deriving DecidableEq, Repr

/-- R31: the byte offset of a register in the REG window. -/
def Reg.offset : Reg → Nat
  | .id => 0x000
  | .ctrl => 0x004
  | .cmd => 0x008
  | .status => 0x00C
  | .width => 0x010
  | .height => 0x014
  | .levels => 0x018
  | .curLevel => 0x01C
  | .streamLen => 0x020
  | .wptr => 0x024
  | .wstate => 0x028
  | .rptr => 0x02C
  | .rstate => 0x030
  | .pullData => 0x034
  | .qCoef => 0x038
  | .qIndex => 0x03C
  | .pWmax => 0x040
  | .pHmax => 0x044
  | .pBscap => 0x048

/-- R31: the register at a word-aligned offset; `none` for a reserved offset. -/
def regAt (off : Nat) : Option Reg :=
  match off with
  | 0x000 => some .id
  | 0x004 => some .ctrl
  | 0x008 => some .cmd
  | 0x00C => some .status
  | 0x010 => some .width
  | 0x014 => some .height
  | 0x018 => some .levels
  | 0x01C => some .curLevel
  | 0x020 => some .streamLen
  | 0x024 => some .wptr
  | 0x028 => some .wstate
  | 0x02C => some .rptr
  | 0x030 => some .rstate
  | 0x034 => some .pullData
  | 0x038 => some .qCoef
  | 0x03C => some .qIndex
  | 0x040 => some .pWmax
  | 0x044 => some .pHmax
  | 0x048 => some .pBscap
  | _ => none

/-- Where a transaction goes. -/
inductive Target where
  /-- A register of the REG window (R96). -/
  | reg (r : Reg)
  /-- A reserved offset of the REG window, RAZ/WI (R31, R32). -/
  | reserved
  /-- An in-range element of a memory (R92). -/
  | elem (m : MemId) (index : Nat)
  /-- A misaligned, unmapped or out-of-range address (R97). -/
  | busError
  deriving DecidableEq, Repr

/-- R92: an element of a memory window, if its index is below the element count. -/
def windowTarget (m : MemId) (base size addr : Nat) : Target :=
  if (addr - base) / 4 < size then .elem m ((addr - base) / 4) else .busError

/-- R91, R92, R97: the target of an address. -/
def busTarget (p : Params) (addr : Word) : Target :=
  let a := addr.toNat
  if a % 4 ≠ 0 then .busError
  else if a < 0x00001000 then
    match regAt a with
    | some r => .reg r
    | none => .reserved
  else if a < 0x10000000 then .busError
  else if a < 0x20000000 then windowTarget .image 0x10000000 p.planeSize a
  else if a < 0x30000000 then windowTarget .plane 0x20000000 p.planeSize a
  else if a < 0x40000000 then windowTarget .stream 0x30000000 p.bsCap a
  else .busError

/-- R33 to R49: what a read of a register returns with BUSY = 0. -/
def State.regRead (s : State) : Reg → Word
  | .id => Config.idValue
  | .ctrl => s.ctrlWord
  | .cmd => s.cmd
  | .status => s.statusWord
  | .width => s.width.setWidth 32
  | .height => s.height.setWidth 32
  | .levels => s.levels.setWidth 32
  | .curLevel => s.curLevel.setWidth 32
  | .streamLen => s.streamLen
  | .wptr => s.wptr
  | .wstate => s.wstateWord
  | .rptr => s.rptr
  | .rstate => s.rstateWord
  | .pullData => s.pullData.setWidth 32
  | .qCoef => s.qCoef
  | .qIndex => s.qIndex.setWidth 32
  | .pWmax => BitVec.ofNat 32 s.params.wMax
  | .pHmax => BitVec.ofNat 32 s.params.hMax
  | .pBscap => BitVec.ofNat 32 s.params.bsCap

/-- R380: the registers that read as usual while BUSY = 1. -/
def Reg.readableWhileBusy : Reg → Bool
  | .id => true
  | .ctrl => true
  | .status => true
  | .pWmax => true
  | .pHmax => true
  | .pBscap => true
  | .cmd => false
  | .width => false
  | .height => false
  | .levels => false
  | .curLevel => false
  | .streamLen => false
  | .wptr => false
  | .wstate => false
  | .rptr => false
  | .rstate => false
  | .pullData => false
  | .qCoef => false
  | .qIndex => false

/-- R34: a write to CTRL: SRST = 1 is a soft reset and ignores the rest of the word (R372). -/
def State.writeCtrl (s : State) (data : Word) : State :=
  if data.getLsbD 0 then s.softReset
  else { s with ieDone := data.getLsbD 1, ieErr := data.getLsbD 2 }

/-- R32 to R49: a write to a register with BUSY = 0. A read-only register ignores it; a read-write
register stores the bits of its field. -/
def State.regWrite (s : State) (r : Reg) (data : Word) : State :=
  match r with
  | .id => s
  | .ctrl => s.writeCtrl data
  | .cmd => s.accept data
  | .status => s.acknowledge data
  | .width => { s with width := data.setWidth 16 }
  | .height => { s with height := data.setWidth 16 }
  | .levels => { s with levels := data.setWidth 3 }
  | .curLevel => { s with curLevel := data.setWidth 3 }
  | .streamLen => { s with streamLen := data }
  | .wptr => { s with wptr := data }
  | .wstate => s
  | .rptr => { s with rptr := data }
  | .rstate => s
  | .pullData => s
  | .qCoef => { s with qCoef := data }
  | .qIndex => { s with qIndex := data.setWidth 8 }
  | .pWmax => s
  | .pHmax => s
  | .pBscap => s

/-- R93 to R95: the word a read of an element returns; ⊥ is UNINIT_READ (R65). -/
def State.elemRead (s : State) (m : MemId) (i : Nat) : Except Fault Word :=
  match m with
  | .image => (fetchElem .image s.image i).map (·.setWidth 32)
  | .plane => fetchElem .plane s.plane i
  | .stream => (fetchElem .stream s.stream i).map (·.setWidth 32)

/-- R93 to R95: a write to an element. STREAM_LEN does not change (R95). -/
def State.elemWrite (s : State) (m : MemId) (i : Nat) (data : Word) : State :=
  match m with
  | .image => { s with image := s.image.write i (data.setWidth 8) }
  | .plane => { s with plane := s.plane.write i data }
  | .stream => { s with stream := s.stream.write i (data.setWidth 8) }

/-- `Read(addr)` (R90): the reply, or UNINIT_READ. No state changes (R102). -/
def State.busRead (s : State) (addr : Word) : Except Fault Reply :=
  match busTarget s.params addr with
  | .busError => .ok (.read 0 .error)
  | .reserved => .ok (.read 0 .okay)
  | .reg r => .ok (.read (if s.busy && !r.readableWhileBusy then 0 else s.regRead r) .okay)
  | .elem m i => if s.busy then .ok (.read 0 .okay) else (s.elemRead m i).map fun d => .read d .okay

/-- `Write(addr, data)` (R90): the reply and the state after. While BUSY = 1 a write is discarded with
OKAY (R380). -/
def State.busWrite (s : State) (addr data : Word) : Reply × State :=
  match busTarget s.params addr with
  | .busError => (.write .error, s)
  | .reserved => (.write .okay, s)
  | .reg r => (.write .okay, if s.busy then s else s.regWrite r data)
  | .elem m i => (.write .okay, if s.busy then s else s.elemWrite m i data)

/-- The bus gives a reply: it is added to the record (log 2). -/
def State.record (s : State) (r : Reply) : State := { s with replies := s.replies ++ [r] }

/-- One event that is no turn of the core: a transaction, or hardware reset (R370). -/
def State.readEvent (s : State) (addr : Word) : Host.Outcome State Fault Refusal :=
  match s.busRead addr with
  | .ok r => .next (s.record r)
  | .error f => .fault f

/-- A write transaction as an event. -/
def State.writeEvent (s : State) (addr data : Word) : State :=
  (s.busWrite addr data).2.record (s.busWrite addr data).1

end Sys2Proof.Machine
end

