-- ==== Sys2Proof/Machine/Operands.lean ====
section
/-! DEFINITION. What commands take from registers and where they reach into memory: the configuration
predicate (R15), the derived sizes (R16), plane positions (R61, R170, R171) and the scan order (R288). -/

namespace Sys2Proof.Machine

/-- R15: `CFG_OK`. -/
def State.cfgOk (s : State) : Bool :=
  decide (1 ≤ s.levels.toNat) && decide (s.levels.toNat ≤ 7) &&
    decide (1 ≤ s.width.toNat) && decide (s.width.toNat ≤ s.params.wMax) &&
    decide (1 ≤ s.height.toNat) && decide (s.height.toNat ≤ s.params.hMax) &&
    decide (s.width.toNat % 2 ^ s.levels.toNat = 0) &&
    decide (s.height.toNat % 2 ^ s.levels.toNat = 0)

/-- `n = WIDTH·HEIGHT` (R103). -/
def State.samples (s : State) : Nat := s.width.toNat * s.height.toNat

/-- R16: `w_k` of a width, or `h_k` of a height. -/
def dimAt (d k : Nat) : Nat := d >>> k

/-- R16: the bit depth `b_k` of level k. -/
def bitDepth (k : Nat) : Nat := 8 - k

/-- R16: the detail bits of levels 1..L, `Σ 3·w_k·h_k·b_k`. -/
def detailBits (w h : Nat) : Nat → Nat
  | 0 => 0
  | l + 1 => detailBits w h l + 3 * dimAt w (l + 1) * dimAt h (l + 1) * bitDepth (l + 1)

/-- R16: `N_LL`. -/
def llBytes (w h l : Nat) : Nat := dimAt w l * dimAt h l

/-- R16: `ENC_LEN`. -/
def encLen (w h l : Nat) : Nat := llBytes w h l + detailBits w h l / 8 + 1

/-- R16: `DEC_LEN`. -/
def decLen (w h l : Nat) : Nat := llBytes w h l + (detailBits w h l + 7) / 8

/-- `ENC_LEN` of the current configuration. -/
def State.encLen (s : State) : Nat :=
  Machine.encLen s.width.toNat s.height.toNat s.levels.toNat

/-- `DEC_LEN` of the current configuration. -/
def State.decLen (s : State) : Nat :=
  Machine.decLen s.width.toNat s.height.toNat s.levels.toNat

/-- R256: the bound of the unpacker's fetches, `min(STREAM_LEN, BS_CAP)`. -/
def State.streamBound (s : State) : Nat := min s.streamLen.toNat s.params.bsCap

/-- The positions of a `rows` × `cols` region, row by row. -/
def positions (rows cols : Nat) : List (Nat × Nat) :=
  (List.range rows).flatMap fun r => (List.range cols).map fun c => (r, c)

/-- R61: the PLANE index of `P(r, c)` with stride `w`. -/
def planeIndex (w : Nat) (rc : Nat × Nat) : Nat := rc.1 * w + rc.2

/-- `P(r, c)` of a plane none of whose elements in use holds ⊥ (`requireAll` comes first, so the default
is never read). -/
def planeAt (w : Nat) (plane : Memory Word) (r c : Nat) : Word :=
  (plane.read (planeIndex w (r, c))).getD 0

/-- R110: one functional update of the top-left `rows` × `cols` region: `P(r, c) <- f r c`, all values
computed before any is written. -/
def writeRegion (w rows cols : Nat) (f : Nat → Nat → Word) (plane : Memory Word) : Memory Word :=
  plane.writeAll ((positions rows cols).map fun rc => (planeIndex w rc, f rc.1 rc.2))

/-- The four subbands of a level (R171, R23). -/
inductive Subband where
  | ll
  | lh
  | hl
  | hh
  deriving DecidableEq, Repr

/-- R171: the plane position of element (i, j) of a subband whose level has `w_k` × `h_k` subbands. -/
def subbandPos (wk hk : Nat) (b : Subband) (i j : Nat) : Nat × Nat :=
  match b with
  | .ll => (i, j)
  | .lh => (hk + i, j)
  | .hl => (i, wk + j)
  | .hh => (hk + i, wk + j)

/-- One entry of SCHED (R288): a plane position, and a level, 0 for the LL block. -/
structure SchedEntry where
  pos : Nat × Nat
  level : Nat
  deriving DecidableEq, Repr

/-- R288: the detail entries of level k, LH, HL and HH of each position consecutively. -/
def schedLevel (w h k : Nat) : List SchedEntry :=
  (positions (dimAt h k) (dimAt w k)).flatMap fun ij =>
    [.lh, .hl, .hh].map fun b =>
      { pos := subbandPos (dimAt w k) (dimAt h k) b ij.1 ij.2, level := k }

/-- R288: `SCHED(WIDTH, HEIGHT, L)`: the LL block row by row, then the levels from the finest to L. -/
def sched (w h l : Nat) : List SchedEntry :=
  (positions (dimAt h l) (dimAt w l)).map (fun rc => { pos := rc, level := 0 }) ++
    (List.range l).flatMap fun k => schedLevel w h (k + 1)

/-- R288: the width of an entry: 8 for the LL block, `b_k` for level k ≥ 1. -/
def SchedEntry.bits (e : SchedEntry) : Nat := if e.level = 0 then 8 else bitDepth e.level

end Sys2Proof.Machine
end

