-- ==== Sys2Proof/Machine/BitPacker.lean ====
section
/-! DEFINITION. The bit packer and unpacker (R240 to R264) and the commands BP_INIT, PUSH, FLUSH and
PULL. The packer and the unpacker are small values of their own, independent of each other (R240). -/

namespace Sys2Proof.Machine

/-- R240: the packer's state, with the STREAM memory it writes. -/
structure Packer where
  /-- WBUF. -/
  buf : Byte
  /-- WFREE. -/
  free : BitVec 4
  /-- WPTR. -/
  ptr : Word
  /-- STREAM. -/
  out : Memory Byte
  deriving DecidableEq, Repr

/-- R240: the unpacker's state. -/
structure Unpacker where
  /-- RBUF. -/
  buf : Byte
  /-- RAVAIL. -/
  avail : BitVec 4
  /-- RPTR. -/
  ptr : Word
  deriving DecidableEq, Repr

/-- The packer of a state. -/
def State.packer (s : State) : Packer := { buf := s.wbuf, free := s.wfree, ptr := s.wptr, out := s.stream }

/-- A state with another packer. -/
def State.withPacker (s : State) (p : Packer) : State :=
  { s with wbuf := p.buf, wfree := p.free, wptr := p.ptr, stream := p.out }

/-- The unpacker of a state. -/
def State.unpacker (s : State) : Unpacker := { buf := s.rbuf, avail := s.ravail, ptr := s.rptr }

/-- A state with another unpacker. -/
def State.withUnpacker (s : State) (u : Unpacker) : State :=
  { s with rbuf := u.buf, ravail := u.avail, rptr := u.ptr }

/-- R243: the buffer is emitted to STREAM[WPTR] and a fresh one begins; all of `pk_flush`, and what
`pk_push` does when the buffer is full. -/
def pkEmit (p : Packer) : Packer :=
  { buf := 0, free := 8, ptr := p.ptr + 1, out := p.out.write p.ptr.toNat p.buf }

/-- R243: one turn of `pk_push`'s loop with `need` bits of `x` still to append: `take` of them go into
the buffer, left-justified in its free bits, and a full buffer is emitted. -/
def pkTurn (x need : Nat) (p : Packer) : Packer :=
  let take := min need p.free.toNat
  let bits := (x >>> (need - take)) % 2 ^ take
  let p' : Packer :=
    { p with
      buf := p.buf ||| BitVec.ofNat 8 (bits <<< (p.free.toNat - take))
      free := p.free - BitVec.ofNat 4 take }
  if p'.free = 0 then pkEmit p' else p'

/-- R243: `pk_push`'s loop. The first argument bounds its turns; `need + 1` of them always suffice, since
every turn but one that finds no free bit takes at least one (log 11). -/
def pkLoop : Nat → Nat → Nat → Packer → Packer
  | 0, _, _, p => p
  | fuel + 1, x, need, p =>
    if need = 0 then p else pkLoop fuel x (need - min need p.free.toNat) (pkTurn x need p)

/-- R243: `pk_push(x, w)`. -/
def pkPush (x w : Nat) (p : Packer) : Packer := pkLoop (w + 1) x w p

/-- R243: `pk_flush()`. -/
def pkFlush (p : Packer) : Packer := pkEmit p

/-- R245: the fetch of `upk_pull`: a byte is read only when a bit is needed and none is available. -/
def upkFetch (stream : Memory Byte) (u : Unpacker) : Except Fault Unpacker :=
  if u.avail = 0 then
    match fetchElem .stream stream u.ptr.toNat with
    | .ok b => .ok { buf := b, avail := 8, ptr := u.ptr + 1 }
    | .error f => .error f
  else .ok u

/-- R245: `upk_pull`'s loop with `need` bits still to read and `r` read so far. Every turn takes at least
one bit, so `need` turns suffice. -/
def upkLoop (stream : Memory Byte) : Nat → Nat → Nat → Unpacker → Except Fault (Nat × Unpacker)
  | 0, _, r, u => .ok (r, u)
  | fuel + 1, need, r, u =>
    if need = 0 then .ok (r, u)
    else
      match upkFetch stream u with
      | .error f => .error f
      | .ok u' =>
        let take := min need u'.avail.toNat
        let bits := (u'.buf.toNat >>> (u'.avail.toNat - take)) % 2 ^ take
        upkLoop stream fuel (need - take) ((r <<< take) ||| bits)
          { u' with avail := u'.avail - BitVec.ofNat 4 take }

/-- R245: `upk_pull(w)`. -/
def upkPull (stream : Memory Byte) (w : Nat) (u : Unpacker) : Except Fault (Nat × Unpacker) :=
  upkLoop stream w w 0 u

/-- R240, R244, R290: a packer at its start, over the STREAM memory `out`. -/
def Packer.start (out : Memory Byte) : Packer := { buf := 0, free := 8, ptr := 0, out := out }

/-- R240, R244, R292: an unpacker at its start. -/
def Unpacker.start : Unpacker := { buf := 0, avail := 0, ptr := 0 }

/-- R258: STREAM_LEN <- WPTR, the last action of PUSH, FLUSH, QPACK and ENCODE. -/
def State.setStreamLen (s : State) : State := { s with streamLen := s.wptr }

/-- R248: W is legal for PUSH and PULL. -/
def widthOk (w : Nat) : Bool := decide (1 ≤ w) && decide (w ≤ 8)

/-- R246: how many bytes a push of `w` bits emits. -/
def pushEmits (w : Nat) (s : State) : Nat := (8 - s.wfree.toNat + w) / 8

/-- R254: how many bytes a pull of `w` bits fetches. -/
def pullFetches (w : Nat) (s : State) : Nat := if s.ravail.toNat < w then 1 else 0

/-- R246: the checks of PUSH. -/
def checkPush (w : Nat) (s : State) : Option CmdError :=
  firstError [(!widthOk w, .badWidth),
    (decide (s.params.bsCap < s.wptr.toNat + pushEmits w s), .streamOverflow)]

/-- R250: the check of FLUSH. -/
def checkFlush (s : State) : Option CmdError :=
  firstError [(decide (s.params.bsCap < s.wptr.toNat + 1), .streamOverflow)]

/-- R254: the checks of PULL. -/
def checkPull (w : Nat) (s : State) : Option CmdError :=
  firstError [(!widthOk w, .badWidth),
    (decide (s.streamBound < s.rptr.toNat + pullFetches w s), .streamUnderrun)]

/-- R244: BP_INIT's effect. STREAM_LEN and the STREAM memory are unchanged. -/
def bodyBpInit (s : State) : Except Fault State :=
  .ok ((s.withPacker (Packer.start s.stream)).withUnpacker Unpacker.start)

/-- R246: PUSH's effect after its checks. -/
def bodyPush (v w : Nat) (s : State) : Except Fault State :=
  .ok ((s.withPacker (pkPush (v % 2 ^ w) w s.packer)).setStreamLen.stickVtrunc (decide (2 ^ w ≤ v)))

/-- R250: FLUSH's effect after its check. -/
def bodyFlush (s : State) : Except Fault State :=
  .ok (s.withPacker (pkFlush s.packer)).setStreamLen

/-- R254: PULL's effect after its checks. -/
def bodyPull (w : Nat) (s : State) : Except Fault State :=
  match upkPull s.stream w s.unpacker with
  | .error f => .error f
  | .ok (r, u) => .ok { s.withUnpacker u with pullData := BitVec.ofNat 8 r }

/-- BP_INIT (R244). -/
def execBpInit (s : State) : Host.Outcome State Fault Refusal := runCommand none bodyBpInit s

/-- PUSH v, w (R246). -/
def execPush (v w : Nat) (s : State) : Host.Outcome State Fault Refusal :=
  runCommand (checkPush w s) (bodyPush v w) s

/-- FLUSH (R250). -/
def execFlush (s : State) : Host.Outcome State Fault Refusal := runCommand (checkFlush s) bodyFlush s

/-- PULL w (R254). -/
def execPull (w : Nat) (s : State) : Host.Outcome State Fault Refusal :=
  runCommand (checkPull w s) (bodyPull w) s

end Sys2Proof.Machine
end

