-- ==== Sys2Proof/Machine/Quantizer.lean ====
section
/-! DEFINITION. The single-value quantizer commands QUANT and DEQUANT (R216, R218). The functions
`sat_trunc8`, `qdet` and `deq` stand in Flags.lean, since they compute the clamp bit. -/

namespace Sys2Proof.Machine

/-- R216, R290: quantize a value of level k; k = 0 is the LL rule. -/
def quantize (k : Nat) (v : Word) : Nat × Bool := if k = 0 then satTrunc8 v else qdet k v

/-- R218, R220, R292: reconstruct a value of level k; k = 0 is the LL rule. -/
def dequantize (k q : Nat) : Word := if k = 0 then cvt32 q else deq k q

/-- R216: QUANT's effect. -/
def bodyQuant (k : Nat) (s : State) : Except Fault State :=
  let r := quantize k s.qCoef
  .ok ({ s with qIndex := BitVec.ofNat 8 r.1 }.stickQclamp r.2)

/-- R218: DEQUANT's effect. -/
def bodyDequant (k : Nat) (s : State) : Except Fault State :=
  .ok { s with qCoef := dequantize k s.qIndex.toNat }

/-- QUANT k (R216). It checks nothing beyond its decoding. -/
def execQuant (k : Nat) (s : State) : Host.Outcome State Fault Refusal :=
  runCommand none (bodyQuant k) s

/-- DEQUANT k (R218). It checks nothing beyond its decoding. -/
def execDequant (k : Nat) (s : State) : Host.Outcome State Fault Refusal :=
  runCommand none (bodyDequant k) s

end Sys2Proof.Machine
end

