-- ==== Sys2Proof/Machine/Transform.lean ====
section
/-! DEFINITION. The 2D Haar transform commands FWD_LEVEL, INV_LEVEL, FWD_ALL and INV_ALL (R172, R176,
R180, R182). A level is one functional update of its region (R110). -/

namespace Sys2Proof.Machine

/-! The arithmetic of one level. `P` is the plane before the level. -/

/-- R172: the horizontal low-pass `Lb[i][j]`. -/
def fwdLow (P : Nat → Nat → Word) (i j : Nat) : Word := half32 (add32 (P i (2 * j)) (P i (2 * j + 1)))

/-- R172: the horizontal high-pass `Hb[i][j]`. -/
def fwdHigh (P : Nat → Nat → Word) (i j : Nat) : Word := half32 (sub32 (P i (2 * j)) (P i (2 * j + 1)))

/-- R172: element (i, j) of a subband of the forward level. -/
def fwdSubband (P : Nat → Nat → Word) (b : Subband) (i j : Nat) : Word :=
  match b with
  | .ll => half32 (add32 (fwdLow P (2 * i) j) (fwdLow P (2 * i + 1) j))
  | .lh => half32 (sub32 (fwdLow P (2 * i) j) (fwdLow P (2 * i + 1) j))
  | .hl => half32 (add32 (fwdHigh P (2 * i) j) (fwdHigh P (2 * i + 1) j))
  | .hh => half32 (sub32 (fwdHigh P (2 * i) j) (fwdHigh P (2 * i + 1) j))

/-- R171, R172: the new value at (r, c) of a region whose subbands are `wk` × `hk`: the quadrant of
(r, c) says which subband it belongs to. -/
def fwdValue (wk hk : Nat) (P : Nat → Nat → Word) (r c : Nat) : Word :=
  if r < hk then
    if c < wk then fwdSubband P .ll r c else fwdSubband P .hl r (c - wk)
  else
    if c < wk then fwdSubband P .lh (r - hk) c else fwdSubband P .hh (r - hk) (c - wk)

/-- R176: `LPF[r][j]` of the inverse level whose subbands are `wk` × `hk`. -/
def invLow (wk hk : Nat) (P : Nat → Nat → Word) (r j : Nat) : Word :=
  let at' (b : Subband) : Word := P (subbandPos wk hk b (r / 2) j).1 (subbandPos wk hk b (r / 2) j).2
  if r % 2 = 0 then add32 (at' .ll) (at' .lh) else sub32 (at' .ll) (at' .lh)

/-- R176: `HPF[r][j]`. -/
def invHigh (wk hk : Nat) (P : Nat → Nat → Word) (r j : Nat) : Word :=
  let at' (b : Subband) : Word := P (subbandPos wk hk b (r / 2) j).1 (subbandPos wk hk b (r / 2) j).2
  if r % 2 = 0 then add32 (at' .hl) (at' .hh) else sub32 (at' .hl) (at' .hh)

/-- R176: the new value at (r, c). -/
def invValue (wk hk : Nat) (P : Nat → Nat → Word) (r c : Nat) : Word :=
  if c % 2 = 0 then add32 (invLow wk hk P r (c / 2)) (invHigh wk hk P r (c / 2))
  else sub32 (invLow wk hk P r (c / 2)) (invHigh wk hk P r (c / 2))

/-! One level on a plane of width `w` and height `h`. -/

/-- R172: FWD_LEVEL's body from level `c` to level `c + 1`. The region `A_c` is read row by row. -/
def fwdLevel (w h c : Nat) (plane : Memory Word) : Except Fault (Memory Word) :=
  let n := dimAt w c
  let m := dimAt h c
  match requireAll .plane plane ((positions m n).map (planeIndex w)) with
  | .error f => .error f
  | .ok _ => .ok (writeRegion w m n (fwdValue (n / 2) (m / 2) (planeAt w plane)) plane)

/-- R176: the positions INV_LEVEL reads, in the order of its pseudocode. -/
def invReads (wk hk : Nat) : List (Nat × Nat) :=
  (positions hk wk).flatMap fun ij =>
    [.ll, .lh, .hl, .hh].map fun b => subbandPos wk hk b ij.1 ij.2

/-- R176: INV_LEVEL's body from level `c` to level `c - 1`. -/
def invLevel (w h c : Nat) (plane : Memory Word) : Except Fault (Memory Word) :=
  let wk := dimAt w c
  let hk := dimAt h c
  match requireAll .plane plane ((invReads wk hk).map (planeIndex w)) with
  | .error f => .error f
  | .ok _ => .ok (writeRegion w (2 * hk) (2 * wk) (invValue wk hk (planeAt w plane)) plane)

/-- R180: `count` forward levels from level `c` on. -/
def fwdLevels (w h c : Nat) : Nat → Memory Word → Except Fault (Memory Word)
  | 0, plane => .ok plane
  | count + 1, plane =>
    match fwdLevel w h c plane with
    | .error f => .error f
    | .ok plane' => fwdLevels w h (c + 1) count plane'

/-- R182: the inverse levels from level `c` down to level 1. -/
def invLevels (w h : Nat) : Nat → Memory Word → Except Fault (Memory Word)
  | 0, plane => .ok plane
  | c + 1, plane =>
    match invLevel w h (c + 1) plane with
    | .error f => .error f
    | .ok plane' => invLevels w h c plane'

/-! The commands. -/

/-- R172: the body of FWD_LEVEL after its checks. -/
def bodyFwdLevel (s : State) : Except Fault State :=
  match fwdLevel s.width.toNat s.height.toNat s.curLevel.toNat s.plane with
  | .error f => .error f
  | .ok plane => .ok { s with plane := plane, curLevel := s.curLevel + 1 }

/-- R176: the body of INV_LEVEL after its checks. -/
def bodyInvLevel (s : State) : Except Fault State :=
  match invLevel s.width.toNat s.height.toNat s.curLevel.toNat s.plane with
  | .error f => .error f
  | .ok plane => .ok { s with plane := plane, curLevel := s.curLevel - 1 }

/-- R180: the body of FWD_ALL after its checks: levels from CUR_LEVEL to LEVELS. -/
def bodyFwdAll (s : State) : Except Fault State :=
  match fwdLevels s.width.toNat s.height.toNat s.curLevel.toNat
      (s.levels.toNat - s.curLevel.toNat) s.plane with
  | .error f => .error f
  | .ok plane => .ok { s with plane := plane, curLevel := s.levels }

/-- R182: the body of INV_ALL after its checks: levels from CUR_LEVEL to 0. -/
def bodyInvAll (s : State) : Except Fault State :=
  match invLevels s.width.toNat s.height.toNat s.curLevel.toNat s.plane with
  | .error f => .error f
  | .ok plane => .ok { s with plane := plane, curLevel := 0 }

/-- R172: the checks of FWD_LEVEL. -/
def checkFwdLevel (s : State) : Option CmdError :=
  firstError [(!s.cfgOk, .badConfig), (decide (s.levels.toNat ≤ s.curLevel.toNat), .badLevel)]

/-- R176: the checks of INV_LEVEL. -/
def checkInvLevel (s : State) : Option CmdError :=
  firstError [(!s.cfgOk, .badConfig),
    (decide (s.curLevel.toNat = 0 ∨ s.levels.toNat < s.curLevel.toNat), .badLevel)]

/-- R180, R182: the checks of FWD_ALL and INV_ALL. -/
def checkAllLevels (s : State) : Option CmdError :=
  firstError [(!s.cfgOk, .badConfig), (decide (s.levels.toNat < s.curLevel.toNat), .badLevel)]

/-- FWD_LEVEL (R172). -/
def execFwdLevel (s : State) : Host.Outcome State Fault Refusal :=
  runCommand (checkFwdLevel s) bodyFwdLevel s

/-- INV_LEVEL (R176). -/
def execInvLevel (s : State) : Host.Outcome State Fault Refusal :=
  runCommand (checkInvLevel s) bodyInvLevel s

/-- FWD_ALL (R180). -/
def execFwdAll (s : State) : Host.Outcome State Fault Refusal :=
  runCommand (checkAllLevels s) bodyFwdAll s

/-- INV_ALL (R182). -/
def execInvAll (s : State) : Host.Outcome State Fault Refusal :=
  runCommand (checkAllLevels s) bodyInvAll s

end Sys2Proof.Machine
end

