-- ==== Sys2Proof/Machine/Orchestrator.lean ====
section
/-! DEFINITION. The orchestration commands NOP, LOAD_IMAGE, STORE_IMAGE, QPACK, UNPACK_DQ, ENCODE and
DECODE (R280 to R298). A composite command runs the bodies of its stages after one set of checks
(R334). -/

namespace Sys2Proof.Machine

/-- R282: the body of LOAD_IMAGE: PLN[i] <- cvt32(IMG[i]) for i below WIDTH·HEIGHT, CUR_LEVEL <- 0. -/
def bodyLoadImage (s : State) : Except Fault State :=
  match requireAll .image s.image (List.range s.samples) with
  | .error f => .error f
  | .ok _ =>
    .ok { s with
      plane := s.plane.writeAll
        ((List.range s.samples).map fun i => (i, cvt32 ((s.image.read i).getD 0).toNat))
      curLevel := 0 }

/-- R284: the sample a coefficient is stored as, and whether it was clamped. -/
def storedSample (plane : Memory Word) (i : Nat) : Nat × Bool := satTrunc8 ((plane.read i).getD 0)

/-- R284: the body of STORE_IMAGE: IMG[i] <- sat_trunc8(PLN[i]) for i below WIDTH·HEIGHT; OCLAMP when
any sample was clamped. -/
def bodyStoreImage (s : State) : Except Fault State :=
  match requireAll .plane s.plane (List.range s.samples) with
  | .error f => .error f
  | .ok _ =>
    .ok ({ s with
      image := s.image.writeAll
        ((List.range s.samples).map fun i => (i, BitVec.ofNat 8 (storedSample s.plane i).1)) }.stickOclamp
        ((List.range s.samples).any fun i => (storedSample s.plane i).2))

/-- R290: QPACK's loop over SCHED: quantize P(r, c) by the rule of its level, push it with the width of
its entry, and remember whether any value was clamped. -/
def packSched (w : Nat) (plane : Memory Word) :
    List SchedEntry → Packer → Bool → Except Fault (Packer × Bool)
  | [], p, cl => .ok (p, cl)
  | e :: es, p, cl =>
    match fetchElem .plane plane (planeIndex w e.pos) with
    | .error f => .error f
    | .ok v =>
      packSched w plane es (pkPush (quantize e.level v).1 e.bits p) (cl || (quantize e.level v).2)

/-- R290: the body of QPACK after its checks: the packer starts over, the plane is packed and flushed. -/
def bodyQpack (s : State) : Except Fault State :=
  match packSched s.width.toNat s.plane (sched s.width.toNat s.height.toNat s.levels.toNat)
      (Packer.start s.stream) false with
  | .error f => .error f
  | .ok (p, cl) => .ok ((s.withPacker (pkFlush p)).setStreamLen.stickQclamp cl)

/-- R292: UNPACK_DQ's loop over SCHED: pull the width of the entry and write its reconstruction. -/
def unpackSched (w : Nat) (stream : Memory Byte) :
    List SchedEntry → Unpacker → Memory Word → Except Fault (Unpacker × Memory Word)
  | [], u, plane => .ok (u, plane)
  | e :: es, u, plane =>
    match upkPull stream e.bits u with
    | .error f => .error f
    | .ok (q, u') =>
      unpackSched w stream es u' (plane.write (planeIndex w e.pos) (dequantize e.level q))

/-- R292: the body of UNPACK_DQ after its checks: the unpacker starts over; CUR_LEVEL <- LEVELS. -/
def bodyUnpackDq (s : State) : Except Fault State :=
  match unpackSched s.width.toNat s.stream (sched s.width.toNat s.height.toNat s.levels.toNat)
      Unpacker.start s.plane with
  | .error f => .error f
  | .ok (u, plane) => .ok { s.withUnpacker u with plane := plane, curLevel := s.levels }

/-- Two stages one after the other; a fault of the first ends the command (R65). -/
def andThen (first second : State → Except Fault State) (s : State) : Except Fault State :=
  match first s with
  | .error f => .error f
  | .ok t => second t

/-- R296: the body of ENCODE: LOAD_IMAGE, FWD_ALL, QPACK. -/
def bodyEncode (s : State) : Except Fault State := andThen (andThen bodyLoadImage bodyFwdAll) bodyQpack s

/-- R298: the body of DECODE: UNPACK_DQ, INV_ALL, STORE_IMAGE. -/
def bodyDecode (s : State) : Except Fault State := andThen (andThen bodyUnpackDq bodyInvAll) bodyStoreImage s

/-- R282, R284, R335: the check of LOAD_IMAGE and STORE_IMAGE. -/
def checkConfig (s : State) : Option CmdError := firstError [(!s.cfgOk, .badConfig)]

/-- R290: the checks of QPACK. -/
def checkQpack (s : State) : Option CmdError :=
  firstError [(!s.cfgOk, .badConfig), (decide (s.curLevel ≠ s.levels), .badLevel),
    (decide (s.params.bsCap < s.encLen), .streamOverflow)]

/-- R296: the checks of ENCODE. -/
def checkEncode (s : State) : Option CmdError :=
  firstError [(!s.cfgOk, .badConfig), (decide (s.params.bsCap < s.encLen), .streamOverflow)]

/-- R292, R298: the checks of UNPACK_DQ and DECODE. -/
def checkDecode (s : State) : Option CmdError :=
  firstError [(!s.cfgOk, .badConfig), (decide (s.streamBound < s.decLen), .streamUnderrun)]

/-- NOP (R280). -/
def execNop (s : State) : Host.Outcome State Fault Refusal := runCommand none Except.ok s

/-- LOAD_IMAGE (R282). -/
def execLoadImage (s : State) : Host.Outcome State Fault Refusal :=
  runCommand (checkConfig s) bodyLoadImage s

/-- STORE_IMAGE (R284). -/
def execStoreImage (s : State) : Host.Outcome State Fault Refusal :=
  runCommand (checkConfig s) bodyStoreImage s

/-- QPACK (R290). -/
def execQpack (s : State) : Host.Outcome State Fault Refusal := runCommand (checkQpack s) bodyQpack s

/-- UNPACK_DQ (R292). -/
def execUnpackDq (s : State) : Host.Outcome State Fault Refusal :=
  runCommand (checkDecode s) bodyUnpackDq s

/-- ENCODE (R296). -/
def execEncode (s : State) : Host.Outcome State Fault Refusal := runCommand (checkEncode s) bodyEncode s

/-- DECODE (R298). -/
def execDecode (s : State) : Host.Outcome State Fault Refusal := runCommand (checkDecode s) bodyDecode s

end Sys2Proof.Machine
end

