-- ==== Sys2Proof/Machine/Dispatch.lean ====
section
/-! DEFINITION. One arm per command (R134): its completion step (R54). -/

namespace Sys2Proof.Machine

/-- R54: the completion of a decoded command. -/
def exec (i : Instr) (s : State) : Host.Outcome State Fault Refusal :=
  match i with
  | .nop => Sys2Proof.Machine.execNop s
  | .loadImage => Sys2Proof.Machine.execLoadImage s
  | .storeImage => Sys2Proof.Machine.execStoreImage s
  | .fwdLevel => Sys2Proof.Machine.execFwdLevel s
  | .invLevel => Sys2Proof.Machine.execInvLevel s
  | .fwdAll => Sys2Proof.Machine.execFwdAll s
  | .invAll => Sys2Proof.Machine.execInvAll s
  | .qpack => Sys2Proof.Machine.execQpack s
  | .unpackDq => Sys2Proof.Machine.execUnpackDq s
  | .encode => Sys2Proof.Machine.execEncode s
  | .decode => Sys2Proof.Machine.execDecode s
  | .bpInit => Sys2Proof.Machine.execBpInit s
  | .push v w => Sys2Proof.Machine.execPush v w s
  | .flush => Sys2Proof.Machine.execFlush s
  | .pull w => Sys2Proof.Machine.execPull w s
  | .quant k => Sys2Proof.Machine.execQuant k s
  | .dequant k => Sys2Proof.Machine.execDequant k s

end Sys2Proof.Machine
end

