-- ==== Sys2Proof/Machine/Step.lean ====
section
/-! DEFINITION. One step of the machine. The first event of `env` says who moves (log 1); with no event
left it is the core. -/

namespace Sys2Proof.Machine

/-- R54: the core's turn. While BUSY = 1 it decodes PEND (R135) and completes the command, or completes
with the decoding error; while BUSY = 0 it is idle (R355). -/
def coreStep (s : State) : Host.Outcome State Fault Refusal :=
  if s.busy then
    match decode s.pend with
    | .ok i => exec i s
    | .error e => .next (s.raiseError e)
  else .next s

/-- One step: the next event (R24, R105). -/
def step (s : State) : Host.Outcome State Fault Refusal :=
  match s.env with
  | [] => coreStep s
  | .core :: es => coreStep { s with env := es }
  | .read addr :: es => State.readEvent { s with env := es } addr
  | .write addr data :: es => .next (State.writeEvent { s with env := es } addr data)
  | .rst :: es => .next (State.hardwareReset { s with env := es })

/-- `s` with the command word `w` accepted (R53) and the core's turn next, so that the next step runs
it: HWT fetches nothing, its host writes the word to CMD (R51; log 6). -/
def State.withFetchWord (s : State) (nbits w : Nat) : State :=
  { s.accept (BitVec.ofNat 32 (w % 2 ^ nbits)) with env := .core :: s.env }

end Sys2Proof.Machine
end

