-- ==== Sys2Proof/Machine/HostProgram.lean ====
section
/-! DEFINITION. Host programs (R140, R141) and the system of a host that runs one on HWT. The host is the
other agent of R24 and no part of HWT's state, so its program stands beside State; who takes the next turn
is a list of turns (log 19). Every turn is one `step` of the machine. -/

namespace Sys2Proof.Machine

/-- R140: `REG.<name>`. -/
def regAddr (r : Reg) : Word := BitVec.ofNat 32 r.offset

/-- R91: the base of a memory's window. -/
def windowBase : MemId → Nat
  | .image => 0x10000000
  | .plane => 0x20000000
  | .stream => 0x30000000

/-- R140: `IMAGE[i]`, `PLANE[i]` and `STREAM[i]`. -/
def elemAddr (m : MemId) (i : Nat) : Word := BitVec.ofNat 32 (windowBase m + 4 * i)

/-- One line of a host program: the bus operations of R140, and WAIT, "the only control flow in this
spec's host-program notation" (R346). -/
inductive HostOp where
  /-- `WR addr, data` (R140). -/
  | wr (addr data : Word)
  /-- `RD addr` (R140). -/
  | rd (addr : Word)
  /-- `loop: RD REG.STATUS; if bit 0 = 1 goto loop` (R141). -/
  | wait
  deriving DecidableEq, Repr

/-- The transaction a line issues each time it runs. -/
def HostOp.event : HostOp → Event
  | .wr addr data => .write addr data
  | .rd addr => .read addr
  | .wait => .read (regAddr .status)

/-- R141: whether a line runs once more after its transaction got `reply`: WAIT does while bit 0 of the
STATUS it read is 1. -/
def HostOp.loops : HostOp → Option Reply → Bool
  | .wait, some (.read data _) => data.getLsbD 0
  | .wait, some (.write _) => false
  | .wait, none => false
  | .wr _ _, _ => false
  | .rd _, _ => false

/-- R141: WAIT. -/
def hostWait : List HostOp := [.wait]

/-- R141: RUN of a command word. -/
def hostRun (word : Word) : List HostOp := .wr (regAddr .cmd) word :: hostWait

/-- R141: SETCFG w, h, l. -/
def hostSetCfg (w h l : Word) : List HostOp :=
  [.wr (regAddr .width) w, .wr (regAddr .height) h, .wr (regAddr .levels) l]

/-- R141: CLRST clears DONE, ERRV with ERRCODE, QCLAMP, OCLAMP and VTRUNC. -/
def hostClrst : List HostOp := [.wr (regAddr .status) 0x0000003E]

/-- R141: FILL, from element `i` on. -/
def hostFill (m : MemId) : Nat → List Word → List HostOp
  | _, [] => []
  | i, d :: ds => .wr (elemAddr m i) d :: hostFill m (i + 1) ds

/-- A host with the rest of its program, and the machine it drives (R24). -/
structure HostSystem where
  /-- The lines still to run, the current one first. -/
  prog : List HostOp
  /-- HWT. -/
  mach : State
  deriving DecidableEq, Repr

/-- Who takes the next turn (R24): the host, the core, or the environment with `rst`. -/
inductive Turn where
  | host
  | core
  | rst
  deriving DecidableEq, Repr

/-- A step of the machine on the event `e`, ahead of the events it already holds. -/
def State.stepOn (s : State) (e : Event) : Host.Outcome State Fault Refusal := step { s with env := e :: s.env }

/-- The outcome of a machine step as one of the system, whose program is then `prog` of the new state. -/
def HostSystem.lift (prog : State → List HostOp) (o : Host.Outcome State Fault Refusal) :
    Host.Outcome HostSystem Fault Refusal :=
  match o with
  | .next t => .next { prog := prog t, mach := t }
  | .fault f => .fault f
  | .refused r => .refused r

/-- One turn. The host issues the transaction of its current line, sees the reply, and goes on to the next
line unless the current one loops; a host whose program has ended does nothing. -/
def HostSystem.turn (h : HostSystem) : Turn → Host.Outcome HostSystem Fault Refusal
  | .core => HostSystem.lift (fun _ => h.prog) (h.mach.stepOn .core)
  | .rst => HostSystem.lift (fun _ => h.prog) (h.mach.stepOn .rst)
  | .host =>
    match h.prog with
    | [] => .next h
    | op :: ops =>
      HostSystem.lift (fun t => if op.loops t.replies.getLast? then op :: ops else ops)
        (h.mach.stepOn op.event)

/-- Turns one after another; a fault ends the run. -/
def HostSystem.run : List Turn → HostSystem → Host.Outcome HostSystem Fault Refusal
  | [], h => .next h
  | t :: ts, h =>
    match h.turn t with
    | .next h' => HostSystem.run ts h'
    | .fault f => .fault f
    | .refused r => .refused r

end Sys2Proof.Machine
end

