-- ==== Sys2Proof/Safety.lean ====
section
/-! DEFINITION. What counts as a safe run and the terms the claims use: the configuration predicate as a
proposition (R15), memory elements that hold a value (R64, R392), the invariants of the state, the
codec domain (R18, R19) and sequences of commands. -/

namespace Sys2Proof.Machine

/-- R15: `CFG_OK`, as a proposition on the registers and the parameters. -/
def State.CfgOk (s : State) : Prop :=
  (1 ≤ s.levels.toNat ∧ s.levels.toNat ≤ 7) ∧
    (1 ≤ s.width.toNat ∧ s.width.toNat ≤ s.params.wMax) ∧
    (1 ≤ s.height.toNat ∧ s.height.toNat ≤ s.params.hMax) ∧
    s.width.toNat % 2 ^ s.levels.toNat = 0 ∧ s.height.toNat % 2 ^ s.levels.toNat = 0

/-- Elements 0 to n − 1 of a memory hold values (R392). -/
def Memory.PresentBelow {α : Type} (m : Memory α) (n : Nat) : Prop := ∀ i < n, ∃ v, m.read i = some v

/-- Every element of the region `A_c` holds a value (R170, R392). -/
def State.RegionPresent (s : State) (c : Nat) : Prop :=
  ∀ r < s.height.toNat / 2 ^ c, ∀ k < s.width.toNat / 2 ^ c,
    ∃ v, s.plane.read (r * s.width.toNat + k) = some v

/-- The memory part of the invariant: each memory in canonical form, no element beyond its count (R8,
R60), and legal parameters (R7). -/
def State.MemoryInv (s : State) : Prop :=
  s.params.Legal ∧
    (Memory.wf s.image = true ∧ Memory.wf s.plane = true ∧ Memory.wf s.stream = true) ∧
    (∀ i, s.params.wMax * s.params.hMax ≤ i → s.image.read i = none) ∧
    (∀ i, s.params.wMax * s.params.hMax ≤ i → s.plane.read i = none) ∧
    (∀ i, s.params.bsCap ≤ i → s.stream.read i = none)

/-- The packer and unpacker part of the invariant (R43, R45). -/
def State.PackerInv (s : State) : Prop :=
  (1 ≤ s.wfree.toNat ∧ s.wfree.toNat ≤ 8 ∧ s.wbuf.toNat % 2 ^ s.wfree.toNat = 0) ∧ s.ravail.toNat ≤ 7

/-- The status part of the invariant: ERRCODE is a code of R331 and is nonzero exactly with ERRV (R36,
R332); while BUSY = 1, DONE and ERRV are 0 (R53, R380); CMD holds the word in PEND (R53). -/
def State.StatusInv (s : State) : Prop :=
  s.errcode.toNat ≤ 7 ∧ (s.errv = true ↔ s.errcode ≠ 0) ∧
    (s.busy = true → s.done = false ∧ s.errv = false) ∧ s.pend = s.cmd

/-- R132: the used fields of a command are the unsigned integers at their places in the word. -/
def FieldsOf (word : Word) : Instr → Prop
  | .push v w => v = word.toNat / 2 ^ 16 % 2 ^ 8 ∧ w = word.toNat / 2 ^ 8 % 2 ^ 4
  | .pull w => w = word.toNat / 2 ^ 8 % 2 ^ 4
  | .quant k => k = word.toNat / 2 ^ 12 % 2 ^ 3
  | .dequant k => k = word.toNat / 2 ^ 12 % 2 ^ 3
  | .nop => True
  | .loadImage => True
  | .storeImage => True
  | .fwdLevel => True
  | .invLevel => True
  | .fwdAll => True
  | .invAll => True
  | .qpack => True
  | .unpackDq => True
  | .encode => True
  | .decode => True
  | .bpInit => True
  | .flush => True

/-- R97: the addresses that get a bus error: misaligned, unmapped (R91), or an index not below the
element count of its memory (R92). -/
def BusError (p : Params) (addr : Word) : Prop :=
  addr.toNat % 4 ≠ 0 ∨
    (0x00001000 ≤ addr.toNat ∧ addr.toNat < 0x10000000) ∨ 0x40000000 ≤ addr.toNat ∨
    (0x10000000 ≤ addr.toNat ∧ addr.toNat < 0x20000000 ∧
      p.wMax * p.hMax ≤ (addr.toNat - 0x10000000) / 4) ∨
    (0x20000000 ≤ addr.toNat ∧ addr.toNat < 0x30000000 ∧
      p.wMax * p.hMax ≤ (addr.toNat - 0x20000000) / 4) ∨
    (0x30000000 ≤ addr.toNat ∧ addr.toNat < 0x40000000 ∧ p.bsCap ≤ (addr.toNat - 0x30000000) / 4)

/-- R36, R52: a state without its flags (DONE, ERRV, ERRCODE and the sticky ones). -/
def State.forgetFlags (s : State) : State :=
  { s with
    done := false, errv := false, errcode := 0, qclamp := false, oclamp := false, vtrunc := false }

/-- R332: the state a failed command leaves: the state it started from, but for four STATUS fields. -/
def State.failedWith (s : State) (code : BitVec 4) : State :=
  { s with errcode := code, errv := true, busy := false, done := true }

/-- A successful command (R54, R332): it completes and raises no error. -/
def Succeeds (i : Instr) (s t : State) : Prop :=
  exec i s = .next t ∧ t.busy = false ∧ t.done = true ∧ t.errv = s.errv ∧ t.errcode = s.errcode

/-- R19: an LL value of the encode side after `c` forward levels: a multiple of 4^-c in [0, 255], and
not −0 (R18). -/
def CodecLow (c : Nat) (v : Word) : Prop :=
  f32IsFinite v = true ∧ f32Sign v = false ∧
    ∃ m : Nat, m ≤ 255 * 4 ^ c ∧ f32Val v = (m : Rat) / 4 ^ c

/-- R19: a detail value of level `c`: a multiple of 4^-c in [−127.5, 127.5], and not −0 (R18). -/
def CodecDetail (c : Nat) (v : Word) : Prop :=
  f32IsFinite v = true ∧ v ≠ 0x80000000 ∧
    ∃ m : Int, 2 * m.natAbs ≤ 255 * 4 ^ c ∧ f32Val v = (m : Rat) / 4 ^ c

/-- R20: a value of the decode side: a multiple of 1/2 with magnitude below 2^12, and not −0 (R18). -/
def CodecHalf (v : Word) : Prop :=
  f32IsFinite v = true ∧ v ≠ 0x80000000 ∧ ∃ m : Int, m.natAbs < 2 ^ 13 ∧ f32Val v = (m : Rat) / 2

/-- R242: `bits(x, w)`, the bits x[w−1] … x[0] of a value of width w. -/
def bitsOf (x : Nat) : Nat → List Bool
  | 0 => []
  | w + 1 => x.testBit w :: bitsOf x w

/-- R242: the bits of the STREAM bytes at indices p … p + n − 1, each from bit 7 down to bit 0. -/
def streamBits (m : Memory Byte) (p n : Nat) : List Bool :=
  (List.range n).flatMap fun j => bitsOf ((m.read (p + j)).getD 0).toNat 8

/-- R252: the bit sequence of pushes `(x, w)` in order. -/
def pushedBits (ps : List (Nat × Nat)) : List Bool := ps.flatMap fun xw => bitsOf xw.1 xw.2

/-- Commands completed one after another, each with its success; `none` if one does not succeed. -/
def runCommands : List Instr → State → Option State
  | [], s => some s
  | i :: is, s =>
    match exec i s with
    | .next t => if t.errv then none else runCommands is t
    | .fault _ => none
    | .refused _ => none

/-- PULLs of the given widths one after another, with what each left in PULL_DATA. -/
def pullAll : List Nat → State → Option (List Nat)
  | [], _ => some []
  | w :: ws, s =>
    match exec (.pull w) s with
    | .next t => if t.errv then none else (pullAll ws t).map (t.pullData.toNat :: ·)
    | .fault _ => none
    | .refused _ => none

end Sys2Proof.Machine
end

