-- ==== Sys2Proof/Certificates/Slice0/Obligations.lean ====
section
/-! DEFINITION. The statements about the model, each a formal reading of the rules its docstring names. A
statement about a command is about its completion step, `exec` (R54); a premise `s.errv = false` is what
the accept step leaves (R53). -/

section

open Sys2Proof Sys2Proof.Machine

/-! Command words. -/

/-- R130, R135, R139: decoding the word of a well-formed command gives the command back, every field at
every value its bits admit. -/
def Obligations.DecodeEncodeRoundTrip : Prop :=
  ∀ i : Instr, i.wellFormed = true → decode (encode i) = .ok i

/-- R134: a word decodes exactly when some row has (word & mask) = match; then it is the encoding of the
command it decodes to, in that command's row; and no word is in the rows of two opcodes. -/
def Obligations.DecodedWordIsInItsRow : Prop :=
  (∀ word : Word, (∃ i, decode word = .ok i) ↔ ∃ i : Instr, i.rowMatches word) ∧
    (∀ (word : Word) (i : Instr), decode word = .ok i →
      i.wellFormed = true ∧ i.rowMatches word ∧ encode i = word) ∧
    ∀ (word : Word) (i j : Instr), i.rowMatches word → j.rowMatches word → i.op = j.op

/-- R135: decoding, case by case: an OP outside the table is ILLEGAL_OP; a legal OP with a bit set outside
OP and its used fields is RSVD_FIELD; any other word is the command of its OP with the word's fields. -/
def Obligations.DecodingFollowsTheFields : Prop :=
  ∀ word : Word,
    let op := word.toNat % 2 ^ 8
    let used : Word :=
      if op = 0x11 then 0x00FF0F00 else if op = 0x13 then 0x00000F00
      else if op = 0x20 ∨ op = 0x21 then 0x00007000 else 0x00000000
    let legal : Prop := op ≤ 0x0A ∨ (0x10 ≤ op ∧ op ≤ 0x13) ∨ op = 0x20 ∨ op = 0x21
    (¬ legal → decode word = .error .illegalOp) ∧
      (legal → word &&& ~~~(0x000000FF ||| used) ≠ 0 → decode word = .error .rsvdField) ∧
      (legal → word &&& ~~~(0x000000FF ||| used) = 0 →
        ∃ i, decode word = .ok i ∧ i.op.toNat = op ∧ FieldsOf word i)

/-- R142: the encoding examples, and the opcodes of R134 as whole words. -/
def Obligations.EncodingExamples : Prop :=
  (decode 0x00000000 = .ok .nop ∧ decode 0x00000009 = .ok .encode ∧ decode 0x0000000A = .ok .decode ∧
    decode 0x00050311 = .ok (.push 5 3) ∧ decode 0x00FF0811 = .ok (.push 0xFF 8) ∧
    decode 0x00000713 = .ok (.pull 7) ∧ decode 0x00000020 = .ok (.quant 0) ∧
    decode 0x00003020 = .ok (.quant 3) ∧ decode 0x00007021 = .ok (.dequant 7)) ∧
  (encode .nop = 0x00000000 ∧ encode .encode = 0x00000009 ∧ encode .decode = 0x0000000A ∧
    encode (.push 5 3) = 0x00050311 ∧ encode (.push 0xFF 8) = 0x00FF0811 ∧
    encode (.pull 7) = 0x00000713 ∧ encode (.quant 0) = 0x00000020 ∧
    encode (.quant 3) = 0x00003020 ∧ encode (.dequant 7) = 0x00007021) ∧
  (decode 0x00000030 = .error .illegalOp ∧ decode 0x01000009 = .error .rsvdField) ∧
  decode 0x00000011 = .ok (.push 0 0) ∧
  ∀ s : State, exec (.push 0 0) s = .next (s.failedWith 5)

/-! Steps. -/

/-- R54, R135: while BUSY = 1 the core's turn runs the command in PEND, on the state as it is but for the
turn taken out of the schedule; a word that does not decode completes with its error code (R332). -/
def Obligations.StepRunsThePendingCommand : Prop :=
  ∀ s : State, s.busy = true →
    (∀ i, decode s.pend = .ok i →
      (s.env = [] → step s = exec i s) ∧
        ∀ es, s.env = .core :: es → step s = exec i { s with env := es }) ∧
    (∀ e, decode s.pend = .error e →
      (s.env = [] → step s = .next (s.failedWith e.code)) ∧
        ∀ es, s.env = .core :: es → step s = .next (State.failedWith { s with env := es } e.code))

/-- R90, R105, R355 (and logs 1, 2, 13, the model's schedule and record of replies): an idle core changes
nothing; a host transaction is one step, whose reply is recorded; a read changes nothing else. -/
def Obligations.StepTakesTheNextEvent : Prop :=
  ∀ s : State,
    (s.busy = false → (s.env = [] → step s = .next s) ∧
      ∀ es, s.env = .core :: es → step s = .next { s with env := es }) ∧
    (∀ addr es, s.env = .read addr :: es →
      (∀ r, s.busRead addr = .ok r → step s = .next { s with env := es, replies := s.replies ++ [r] }) ∧
        ∀ f, s.busRead addr = .error f → step s = .fault f) ∧
    (∀ addr data es, s.env = .write addr data :: es → ∃ t r,
      State.busWrite { s with env := es } addr data = (r, t) ∧
        step s = .next { t with replies := t.replies ++ [r] })

/-- R54, R390: while BUSY = 1 the core's turn always does something: the command completes, or a model
fault names an element that holds no value (R65). -/
def Obligations.BusyCommandCompletes : Prop :=
  ∀ s : State, s.busy = true → (s.env = [] ∨ ∃ es, s.env = .core :: es) →
    (∃ t, step s = .next t ∧ t.busy = false ∧ t.done = true) ∨
      (∃ n, step s = .fault (.uninitRead .image n) ∧ s.image.read n = none) ∨
      (∃ n, step s = .fault (.uninitRead .plane n) ∧ s.plane.read n = none) ∨
      ∃ n, step s = .fault (.uninitRead .stream n) ∧ s.stream.read n = none

/-- R53: a write to CMD with BUSY = 0 is the accept step and nothing else; with BUSY = 1 it is discarded. -/
def Obligations.CommandWordAccepted : Prop :=
  ∀ (s : State) (data : Word),
    (s.busy = false → s.busWrite 0x00000008 data = (.write .okay,
      { s with cmd := data, pend := data, busy := true, done := false, errv := false, errcode := 0 })) ∧
    (s.busy = true → s.busWrite 0x00000008 data = (.write .okay, s))

/-! The host bus. -/

/-- R97: a misaligned, unmapped or out-of-range transaction answers ERROR with data 0 and changes nothing,
BUSY or not; every other transaction answers OKAY. -/
def Obligations.BusErrorsChangeNothing : Prop :=
  ∀ (s : State) (addr data : Word),
    (BusError s.params addr →
      s.busRead addr = .ok (.read 0x00000000 .error) ∧ s.busWrite addr data = (.write .error, s)) ∧
    (¬ BusError s.params addr →
      (∀ d, s.busRead addr ≠ .ok (.read d .error)) ∧ (s.busWrite addr data).1 = .write .okay)

/-- R380: while BUSY = 1 bus errors are as ever; ID, CTRL, STATUS and P_* read their values; every other
read returns 0 with OKAY and never faults; every write is discarded with OKAY. -/
def Obligations.BusyHostAccess : Prop :=
  ∀ s : State, s.busy = true → s.StatusInv →
    (∀ addr data, BusError s.params addr →
      s.busRead addr = .ok (.read 0x00000000 .error) ∧ s.busWrite addr data = (.write .error, s)) ∧
    (∀ addr data, ¬ BusError s.params addr → s.busWrite addr data = (.write .okay, s)) ∧
    (∀ addr : Word, ¬ BusError s.params addr →
      addr ∉ [0x00000000, 0x00000004, 0x0000000C, 0x00000040, 0x00000044, 0x00000048] →
      s.busRead addr = .ok (.read 0x00000000 .okay)) ∧
    s.busRead 0x00000000 = .ok (.read 0x48575431 .okay) ∧
    s.busRead 0x00000004 =
      .ok (.read (BitVec.ofNat 32 (2 * s.ieDone.toNat + 4 * s.ieErr.toNat)) .okay) ∧
    s.busRead 0x0000000C = .ok (.read
      (BitVec.ofNat 32 (1 + 8 * s.qclamp.toNat + 16 * s.oclamp.toNat + 32 * s.vtrunc.toNat)) .okay) ∧
    s.busRead 0x00000040 = .ok (.read (BitVec.ofNat 32 s.params.wMax) .okay) ∧
    s.busRead 0x00000044 = .ok (.read (BitVec.ofNat 32 s.params.hMax) .okay) ∧
    s.busRead 0x00000048 = .ok (.read (BitVec.ofNat 32 s.params.bsCap) .okay)

/-- R92 to R95, R65: with BUSY = 0 a write in a memory window stores its element and changes nothing else
(not STREAM_LEN either), and a read returns the element zero-extended, or is UNINIT_READ on ⊥. -/
def Obligations.MemoryWindows : Prop :=
  ∀ s : State, s.params.Legal → s.busy = false →
    (∀ i < s.params.wMax * s.params.hMax, ∀ data : Word,
      (∃ m, s.busWrite (BitVec.ofNat 32 (0x10000000 + 4 * i)) data =
          (.write .okay, { s with image := m }) ∧
        ∀ j, m.read j = if j = i then some (data.extractLsb' 0 8) else s.image.read j) ∧
      (∀ b, s.image.read i = some b →
        s.busRead (BitVec.ofNat 32 (0x10000000 + 4 * i)) = .ok (.read (b.setWidth 32) .okay)) ∧
      (s.image.read i = none →
        s.busRead (BitVec.ofNat 32 (0x10000000 + 4 * i)) = .error (.uninitRead .image i))) ∧
    (∀ i < s.params.wMax * s.params.hMax, ∀ data : Word,
      (∃ m, s.busWrite (BitVec.ofNat 32 (0x20000000 + 4 * i)) data =
          (.write .okay, { s with plane := m }) ∧
        ∀ j, m.read j = if j = i then some data else s.plane.read j) ∧
      (∀ v, s.plane.read i = some v →
        s.busRead (BitVec.ofNat 32 (0x20000000 + 4 * i)) = .ok (.read v .okay)) ∧
      (s.plane.read i = none →
        s.busRead (BitVec.ofNat 32 (0x20000000 + 4 * i)) = .error (.uninitRead .plane i))) ∧
    (∀ i < s.params.bsCap, ∀ data : Word,
      (∃ m, s.busWrite (BitVec.ofNat 32 (0x30000000 + 4 * i)) data =
          (.write .okay, { s with stream := m }) ∧
        ∀ j, m.read j = if j = i then some (data.extractLsb' 0 8) else s.stream.read j) ∧
      (∀ b, s.stream.read i = some b →
        s.busRead (BitVec.ofNat 32 (0x30000000 + 4 * i)) = .ok (.read (b.setWidth 32) .okay)) ∧
      (s.stream.read i = none →
        s.busRead (BitVec.ofNat 32 (0x30000000 + 4 * i)) = .error (.uninitRead .stream i)))

/-- R32 to R49, with BUSY = 0. A read of a register returns its field, the packed words with each field at
its bits. A write to a read-write register stores the bits of its field and changes nothing else of the whole
state; it reads back masked to the field, and every other register reads as before. A read-only register and
a reserved offset ignore writes. A STATUS bit is cleared by writing 1, ERRV with ERRCODE, and only those
flags change. -/
def Obligations.RegisterAccessTypes : Prop :=
  ∀ (s : State) (data : Word), s.busy = false →
    (s.busRead 0x00 = .ok (.read 0x48575431 .okay) ∧
      s.busRead 0x04 = .ok (.read (BitVec.ofNat 32 (2 * s.ieDone.toNat + 4 * s.ieErr.toNat)) .okay) ∧
      s.busRead 0x08 = .ok (.read s.cmd .okay) ∧
      s.busRead 0x0C = .ok (.read (BitVec.ofNat 32 (2 * s.done.toNat + 4 * s.errv.toNat +
        8 * s.qclamp.toNat + 16 * s.oclamp.toNat + 32 * s.vtrunc.toNat + 256 * s.errcode.toNat)) .okay) ∧
      s.busRead 0x10 = .ok (.read (BitVec.ofNat 32 s.width.toNat) .okay) ∧
      s.busRead 0x14 = .ok (.read (BitVec.ofNat 32 s.height.toNat) .okay) ∧
      s.busRead 0x18 = .ok (.read (BitVec.ofNat 32 s.levels.toNat) .okay) ∧
      s.busRead 0x1C = .ok (.read (BitVec.ofNat 32 s.curLevel.toNat) .okay) ∧
      s.busRead 0x20 = .ok (.read s.streamLen .okay) ∧
      s.busRead 0x24 = .ok (.read s.wptr .okay) ∧
      s.busRead 0x28 = .ok (.read (BitVec.ofNat 32 (s.wbuf.toNat + 256 * s.wfree.toNat)) .okay) ∧
      s.busRead 0x2C = .ok (.read s.rptr .okay) ∧
      s.busRead 0x30 = .ok (.read (BitVec.ofNat 32 (s.rbuf.toNat + 256 * s.ravail.toNat)) .okay) ∧
      s.busRead 0x34 = .ok (.read (BitVec.ofNat 32 s.pullData.toNat) .okay) ∧
      s.busRead 0x38 = .ok (.read s.qCoef .okay) ∧
      s.busRead 0x3C = .ok (.read (BitVec.ofNat 32 s.qIndex.toNat) .okay) ∧
      s.busRead 0x40 = .ok (.read (BitVec.ofNat 32 s.params.wMax) .okay) ∧
      s.busRead 0x44 = .ok (.read (BitVec.ofNat 32 s.params.hMax) .okay) ∧
      s.busRead 0x48 = .ok (.read (BitVec.ofNat 32 s.params.bsCap) .okay)) ∧
    (s.busWrite 0x10 data = (.write .okay, { s with width := data.extractLsb' 0 16 }) ∧
      s.busWrite 0x14 data = (.write .okay, { s with height := data.extractLsb' 0 16 }) ∧
      s.busWrite 0x18 data = (.write .okay, { s with levels := data.extractLsb' 0 3 }) ∧
      s.busWrite 0x1C data = (.write .okay, { s with curLevel := data.extractLsb' 0 3 }) ∧
      s.busWrite 0x20 data = (.write .okay, { s with streamLen := data }) ∧
      s.busWrite 0x24 data = (.write .okay, { s with wptr := data }) ∧
      s.busWrite 0x2C data = (.write .okay, { s with rptr := data }) ∧
      s.busWrite 0x38 data = (.write .okay, { s with qCoef := data }) ∧
      s.busWrite 0x3C data = (.write .okay, { s with qIndex := data.extractLsb' 0 8 })) ∧
    (∀ p ∈ ([(0x10, 0x0000FFFF), (0x14, 0x0000FFFF), (0x18, 0x00000007), (0x1C, 0x00000007),
        (0x20, 0xFFFFFFFF), (0x24, 0xFFFFFFFF), (0x2C, 0xFFFFFFFF), (0x38, 0xFFFFFFFF),
        (0x3C, 0x000000FF)] : List (Word × Word)),
      ∃ t, s.busWrite p.1 data = (.write .okay, t) ∧ t.busRead p.1 = .ok (.read (data &&& p.2) .okay) ∧
        t.image = s.image ∧ t.plane = s.plane ∧ t.stream = s.stream ∧ t.busy = false ∧
        ∀ q ∈ ([0x00, 0x04, 0x08, 0x0C, 0x10, 0x14, 0x18, 0x1C, 0x20, 0x24, 0x28, 0x2C, 0x30, 0x34,
          0x38, 0x3C, 0x40, 0x44, 0x48] : List Word), q ≠ p.1 → t.busRead q = s.busRead q) ∧
    (data.getLsbD 0 = false → s.busWrite 0x04 data =
      (.write .okay, { s with ieDone := data.getLsbD 1, ieErr := data.getLsbD 2 }) ∧
        (s.busWrite 0x04 data).2.busRead 0x04 = .ok (.read (data &&& 0x00000006) .okay)) ∧
    (∀ a ∈ ([0x00, 0x28, 0x30, 0x34, 0x40, 0x44, 0x48] : List Word),
      s.busWrite a data = (.write .okay, s)) ∧
    (∀ a : Word, 0x4C ≤ a.toNat → a.toNat < 0x1000 → a.toNat % 4 = 0 →
      s.busWrite a data = (.write .okay, s) ∧ s.busRead a = .ok (.read 0x00000000 .okay)) ∧
    (∀ w, s.busRead 0x0C = .ok (.read w .okay) → ∃ t, s.busWrite 0x0C data = (.write .okay, t) ∧
      t.forgetFlags = s.forgetFlags ∧
      t.busRead 0x0C = .ok (.read
        (if data.getLsbD 2 then w &&& ~~~((data &&& 0x0000003E) ||| 0x00000F00)
         else w &&& ~~~(data &&& 0x0000003E)) .okay))

/-- R370, R372: hardware reset gives every register its reset value and every memory element ⊥, at any
moment; a write of CTRL.SRST = 1 gives every register its reset value and keeps the memories, and is
discarded while BUSY = 1. The model's schedule and record of replies stay (logs 1, 2, 17). -/
def Obligations.Resets : Prop :=
  (∀ (s : State) (es : List Event), s.env = .rst :: es →
    step s = .next { State.resetWith s.params with env := es, replies := s.replies }) ∧
  ∀ (s : State) (data : Word), data.getLsbD 0 = true →
    (s.busy = false → s.busWrite 0x00000004 data = (.write .okay,
      { State.resetWith s.params with
        image := s.image, plane := s.plane, stream := s.stream, env := s.env, replies := s.replies })) ∧
    (s.busy = true → s.busWrite 0x00000004 data = (.write .okay, s))

/-- R31, R371: what the host reads of every register after reset, and what else reset leaves. -/
def Obligations.ResetRegisterMap : Prop :=
  State.reset = State.resetWith { wMax := 256, hMax := 256, bsCap := 65537 } ∧
  ∀ p : Params,
    let s := State.resetWith p
    (∀ q ∈ ([(0x000, 0x48575431), (0x004, 0x00000000), (0x008, 0x00000000), (0x00C, 0x00000000),
        (0x010, 0x00000000), (0x014, 0x00000000), (0x018, 0x00000000), (0x01C, 0x00000000),
        (0x020, 0x00000000), (0x024, 0x00000000), (0x028, 0x00000800), (0x02C, 0x00000000),
        (0x030, 0x00000000), (0x034, 0x00000000), (0x038, 0x00000000), (0x03C, 0x00000000),
        (0x040, BitVec.ofNat 32 p.wMax), (0x044, BitVec.ofNat 32 p.hMax),
        (0x048, BitVec.ofNat 32 p.bsCap)] : List (Word × Word)),
      s.busRead q.1 = .ok (.read q.2 .okay)) ∧
    (∀ a : Word, 0x4C ≤ a.toNat → a.toNat < 0x1000 → a.toNat % 4 = 0 →
      s.busRead a = .ok (.read 0x00000000 .okay)) ∧
    (∀ i, s.image.read i = none ∧ s.plane.read i = none ∧ s.stream.read i = none) ∧
    s.pend = 0x00000000 ∧ s.irq = false ∧ ¬ s.CfgOk

/-- R55: the irq output, and its level right after a command completes. -/
def Obligations.IrqLevel : Prop :=
  (∀ s : State, s.irq = true ↔ (s.ieDone = true ∧ s.done = true) ∨ (s.ieErr = true ∧ s.errv = true)) ∧
  ∀ (i : Instr) (s t : State), exec i s = .next t → t.irq = (s.ieDone || (s.ieErr && t.errv))

/-! What every command does, and does not do. -/

/-- R332: a command that fails leaves the state its accept step left, but for ERRCODE, ERRV, BUSY and
DONE; a word that does not decode fails in the same way. -/
def Obligations.FailedCommandChangesOnlyStatus : Prop :=
  (∀ (i : Instr) (s t : State), s.errv = false → exec i s = .next t → t.errv = true →
    ∃ code : BitVec 4, 3 ≤ code.toNat ∧ code.toNat ≤ 7 ∧
      t = { s with errcode := code, errv := true, busy := false, done := true }) ∧
  ∀ (s : State) (e : CmdError), s.busy = true → s.env = [] → decode s.pend = .error e →
    1 ≤ e.code.toNat ∧ e.code.toNat ≤ 2 ∧
      step s = .next { s with errcode := e.code, errv := true, busy := false, done := true }

/-- R52: which commands write which flags, and that no command reads one: with other flags at the start,
a command does the same but for the flags. -/
def Obligations.FlagsAreWrittenByTheirCommandsAndNeverRead : Prop :=
  (∀ (i : Instr) (s t : State), exec i s = .next t →
    t.done = true ∧
    ((t.errv = s.errv ∧ t.errcode = s.errcode) ∨ ∃ e : CmdError, t = s.failedWith e.code) ∧
    (t.qclamp ≠ s.qclamp → t.qclamp = true ∧ ((∃ k, i = .quant k) ∨ i = .qpack ∨ i = .encode)) ∧
    (t.oclamp ≠ s.oclamp → t.oclamp = true ∧ (i = .storeImage ∨ i = .decode)) ∧
    (t.vtrunc ≠ s.vtrunc → t.vtrunc = true ∧ ∃ v w, i = .push v w)) ∧
  ∀ (i : Instr) (s s' : State), s.forgetFlags = s'.forgetFlags →
    (∀ t, exec i s = .next t → ∃ t', exec i s' = .next t' ∧ t.forgetFlags = t'.forgetFlags) ∧
    ∀ f, exec i s = .fault f → exec i s' = .fault f

/-- R103 (the writes), R37 to R48: what each command leaves unchanged: the parameters, the enables, CMD,
PEND, WIDTH, HEIGHT and LEVELS always; every other register but by the commands that write it; and every
memory element outside the ones the command writes. -/
def Obligations.CommandFrame : Prop :=
  ∀ (i : Instr) (s t : State), s.PackerInv → exec i s = .next t →
    (t.params = s.params ∧ t.ieDone = s.ieDone ∧ t.ieErr = s.ieErr ∧ t.cmd = s.cmd ∧ t.pend = s.pend ∧
      t.width = s.width ∧ t.height = s.height ∧ t.levels = s.levels ∧ t.env = s.env ∧
      t.replies = s.replies) ∧
    (i ∉ [.loadImage, .fwdLevel, .invLevel, .fwdAll, .invAll, .unpackDq, .encode, .decode] →
      t.curLevel = s.curLevel) ∧
    (i ∉ [.bpInit, .flush, .qpack, .encode] → (∀ v w, i ≠ .push v w) →
      t.wptr = s.wptr ∧ t.wbuf = s.wbuf ∧ t.wfree = s.wfree ∧ t.stream = s.stream) ∧
    (i ∉ [.bpInit, .unpackDq, .decode] → (∀ w, i ≠ .pull w) →
      t.rptr = s.rptr ∧ t.rbuf = s.rbuf ∧ t.ravail = s.ravail) ∧
    ((∀ w, i ≠ .pull w) → t.pullData = s.pullData) ∧
    ((∀ k, i ≠ .dequant k) → t.qCoef = s.qCoef) ∧
    ((∀ k, i ≠ .quant k) → t.qIndex = s.qIndex) ∧
    (i ∉ [.storeImage, .decode] → t.image = s.image) ∧
    (∀ n, s.width.toNat * s.height.toNat ≤ n → t.image.read n = s.image.read n) ∧
    (i ∉ [.loadImage, .fwdLevel, .invLevel, .fwdAll, .invAll, .unpackDq, .encode, .decode] →
      t.plane = s.plane) ∧
    (∀ n, s.width.toNat * s.height.toNat ≤ n → t.plane.read n = s.plane.read n) ∧
    (i = .fwdLevel ∨ i = .fwdAll → ∀ n,
      (∀ r < s.height.toNat / 2 ^ s.curLevel.toNat, ∀ k < s.width.toNat / 2 ^ s.curLevel.toNat,
        n ≠ r * s.width.toNat + k) → t.plane.read n = s.plane.read n) ∧
    (i = .invLevel → ∀ n,
      (∀ r < s.height.toNat / 2 ^ (s.curLevel.toNat - 1),
        ∀ k < s.width.toNat / 2 ^ (s.curLevel.toNat - 1), n ≠ r * s.width.toNat + k) →
        t.plane.read n = s.plane.read n) ∧
    (i = .flush ∨ (∃ v w, i = .push v w) → ∀ n, n ≠ s.wptr.toNat → t.stream.read n = s.stream.read n) ∧
    (i = .bpInit → t.stream = s.stream) ∧
    (i = .qpack ∨ i = .encode → ∀ n, s.encLen ≤ n → t.stream.read n = s.stream.read n)

/-- R65, R330: a command that stops with UNINIT_READ(memory, index) names an element that holds ⊥. -/
def Obligations.UninitReadNamesAnUnwrittenElement : Prop :=
  ∀ (i : Instr) (s : State) (f : Fault), exec i s = .fault f →
    (∃ n, f = .uninitRead .image n ∧ s.image.read n = none) ∨
      (∃ n, f = .uninitRead .plane n ∧ s.plane.read n = none) ∨
      ∃ n, f = .uninitRead .stream n ∧ s.stream.read n = none

/-- R335, R331: a plane command fails with BAD_CONFIG (3) when `CFG_OK` is false. -/
def Obligations.PlaneCommandsNeedAValidConfiguration : Prop :=
  ∀ (s : State) (i : Instr),
    i ∈ [.loadImage, .storeImage, .fwdLevel, .invLevel, .fwdAll, .invAll, .qpack, .unpackDq, .encode,
      .decode] →
    ¬ s.CfgOk → exec i s = .next (s.failedWith 3)

/-- R172, R176, R180, R182, R290, R331: a command whose CUR_LEVEL is not legal fails with BAD_LEVEL (4). -/
def Obligations.IllegalLevelFails : Prop :=
  ∀ s : State, s.CfgOk →
    (s.levels.toNat ≤ s.curLevel.toNat → exec .fwdLevel s = .next (s.failedWith 4)) ∧
    (s.curLevel.toNat = 0 ∨ s.levels.toNat < s.curLevel.toNat →
      exec .invLevel s = .next (s.failedWith 4)) ∧
    (s.levels.toNat < s.curLevel.toNat →
      exec .fwdAll s = .next (s.failedWith 4) ∧ exec .invAll s = .next (s.failedWith 4)) ∧
    (s.curLevel ≠ s.levels → exec .qpack s = .next (s.failedWith 4))

/-- R248: PUSH and PULL with a W field of 0 or of 9 and more fail with BAD_WIDTH (5). -/
def Obligations.IllegalWidthFails : Prop :=
  ∀ (s : State) (v w : Nat), w = 0 ∨ 9 ≤ w →
    exec (.push v w) s = .next (s.failedWith 5) ∧ exec (.pull w) s = .next (s.failedWith 5)

/-- R256, R260: a command that would write STREAM at or beyond BS_CAP fails with STREAM_OVERFLOW (6), and
one that must fetch beyond min(STREAM_LEN, BS_CAP) fails with STREAM_UNDERRUN (7), with no other effect;
QPACK and ENCODE never overflow with `CFG_OK`. The tests are those of R246, R250, R254, R290 and R292
(logs 7 and 8 on what they say of host-written pointers). -/
def Obligations.StreamBoundsFail : Prop :=
  ∀ s : State,
    (∀ v w, 1 ≤ w → w ≤ 8 → s.params.bsCap < s.wptr.toNat + (8 - s.wfree.toNat + w) / 8 →
      exec (.push v w) s = .next (s.failedWith 6)) ∧
    (s.params.bsCap < s.wptr.toNat + 1 → exec .flush s = .next (s.failedWith 6)) ∧
    (s.CfgOk → s.params.bsCap < s.encLen →
      exec .encode s = .next (s.failedWith 6) ∧
        (s.curLevel = s.levels → exec .qpack s = .next (s.failedWith 6))) ∧
    (s.CfgOk → s.params.Legal → s.encLen ≤ s.params.bsCap) ∧
    (∀ w, 1 ≤ w → w ≤ 8 →
      min s.streamLen.toNat s.params.bsCap < s.rptr.toNat + (if s.ravail.toNat < w then 1 else 0) →
      exec (.pull w) s = .next (s.failedWith 7)) ∧
    (s.CfgOk → min s.streamLen.toNat s.params.bsCap < s.decLen →
      exec .unpackDq s = .next (s.failedWith 7) ∧ exec .decode s = .next (s.failedWith 7))

/-! Sizes. -/

/-- R16, R294: ENC_LEN and DEC_LEN from the sum over the levels, and which of the two is larger. -/
def Obligations.DerivedSizes : Prop :=
  ∀ (s : State) (nll dbits : Nat),
    nll = s.width.toNat / 2 ^ s.levels.toNat * (s.height.toNat / 2 ^ s.levels.toNat) →
    dbits = ∑ k ∈ Finset.range s.levels.toNat,
      3 * (s.width.toNat / 2 ^ (k + 1)) * (s.height.toNat / 2 ^ (k + 1)) * (8 - (k + 1)) →
    s.encLen = nll + dbits / 8 + 1 ∧ s.decLen = nll + ⌈(dbits : Rat) / 8⌉₊ ∧
      s.encLen = if dbits % 8 = 0 then s.decLen + 1 else s.decLen

/-- R17: the encoded stream always fits. -/
def Obligations.EncodedStreamFits : Prop :=
  ∀ s : State, s.params.Legal → s.CfgOk →
    s.encLen ≤ s.width.toNat * s.height.toNat + 1 ∧
      s.width.toNat * s.height.toNat + 1 ≤ s.params.bsCap

/-! Numbers. -/

/-- R13 (K1): `rnd32` rounds an exact multiple of 2^-150 to the nearest binary32 value, ties to the even
encoding, and to ±∞ from the overflow threshold (2 − 2^-24)·2^127 on. The sign of a nonzero value that
rounds to zero is kept (log 12). -/
def Obligations.RoundingIsToNearestEven : Prop :=
  ∀ n : Int,
    (n.natAbs < (2 ^ 25 - 1) * 2 ^ 253 →
      f32IsFinite (rnd32 n) = true ∧ f32Sign (rnd32 n) = decide (n < 0) ∧
      ∀ v : Word, f32IsFinite v = true →
        |n - 2 * f32Units (rnd32 n)| ≤ |n - 2 * f32Units v| ∧
        (|n - 2 * f32Units (rnd32 n)| = |n - 2 * f32Units v| → f32Units v ≠ f32Units (rnd32 n) →
          (rnd32 n).toNat % 2 = 0)) ∧
    ((2 ^ 25 - 1) * 2 ^ 253 ≤ n.natAbs → rnd32 n = if n < 0 then 0xFF800000 else 0x7F800000)

/-- R13: add32, sub32 and half32 on NaN, on ±∞, on exact zero results and on every other finite operand,
and cvt32 on 0 to 2^24. -/
def Obligations.FloatOperationCases : Prop :=
  (∀ a b : Word,
    (f32IsNaN a = true ∨ f32IsNaN b = true → add32 a b = 0x7FC00000 ∧ sub32 a b = 0x7FC00000) ∧
    (f32IsInf a = true → f32IsNaN b = false →
      add32 a b = (if f32IsInf b = true ∧ f32Sign a ≠ f32Sign b then 0x7FC00000 else a) ∧
      sub32 a b = (if f32IsInf b = true ∧ f32Sign a = f32Sign b then 0x7FC00000 else a)) ∧
    (f32IsFinite a = true → f32IsInf b = true → add32 a b = b ∧ sub32 a b = b ^^^ 0x80000000) ∧
    (f32IsFinite a = true → f32IsFinite b = true →
      add32 a b =
        (if f32Units a + f32Units b ≠ 0 then rnd32 (2 * (f32Units a + f32Units b))
         else if a = 0x80000000 ∧ b = 0x80000000 then 0x80000000 else 0x00000000) ∧
      sub32 a b =
        (if f32Units a - f32Units b ≠ 0 then rnd32 (2 * (f32Units a - f32Units b))
         else if a = 0x80000000 ∧ b = 0x00000000 then 0x80000000 else 0x00000000))) ∧
  (∀ a : Word,
    (f32IsNaN a = true → half32 a = 0x7FC00000) ∧ (f32IsInf a = true → half32 a = a) ∧
    (f32IsFinite a = true → half32 a = if f32Units a ≠ 0 then rnd32 (f32Units a) else a)) ∧
  ∀ n : Nat, n ≤ 2 ^ 24 →
    f32IsFinite (cvt32 n) = true ∧ f32Sign (cvt32 n) = false ∧ f32Val (cvt32 n) = (n : Rat)

/-- R210: `sat_trunc8`, with truncation toward zero of the exact value. -/
def Obligations.SatTruncTruncatesAndSaturates : Prop :=
  ∀ v : Word,
    (f32IsNaN v = true → satTrunc8 v = (0, true)) ∧
    (v = 0x7F800000 → satTrunc8 v = (255, true)) ∧ (v = 0xFF800000 → satTrunc8 v = (0, true)) ∧
    (f32IsFinite v = true → ∀ t : Int, t = (if 0 ≤ f32Val v then ⌊f32Val v⌋ else ⌈f32Val v⌉) →
      satTrunc8 v = if t < 0 then (0, true) else if 255 < t then (255, true) else (t.toNat, false))

/-- R212: `qdet(k, v)`, with the floor of the exact quotient. -/
def Obligations.QdetFloorsAndClamps : Prop :=
  ∀ (k : Nat) (v : Word), 1 ≤ k → k ≤ 7 →
    (f32IsNaN v = true → qdet k v = (0, true)) ∧
    (v = 0x7F800000 → qdet k v = (2 ^ (8 - k) - 1, true)) ∧ (v = 0xFF800000 → qdet k v = (0, true)) ∧
    (f32IsFinite v = true → ∀ t : Int, t = ⌊(f32Val v + 255 / 2) / 2 ^ k⌋ →
      qdet k v = if t < 0 then (0, true)
        else if 2 ^ (8 - k) - 1 < t then (2 ^ (8 - k) - 1, true) else (t.toNat, false))

/-- R214: `deq(k, q)` is exact, and its range for an index of a real level-k value. -/
def Obligations.DeqIsTheBinMidpoint : Prop :=
  ∀ k q : Nat, 1 ≤ k → k ≤ 7 → q ≤ 255 →
    f32IsFinite (deq k q) = true ∧
    f32Val (deq k q) = (q : Rat) * 2 ^ k + 2 ^ (k - 1) - 255 / 2 ∧
    (∃ z : Int, f32Val (deq k q) = z / 2) ∧ |f32Val (deq k q)| < 2 ^ 15 ∧
    (q ≤ 2 ^ (8 - k) - 1 →
      2 ^ (k - 1) - 255 / 2 ≤ f32Val (deq k q) ∧ f32Val (deq k q) ≤ 257 / 2 - 2 ^ (k - 1))

/-- R215: the bin a value falls into, the error of its reconstruction, and what zero becomes. -/
def Obligations.QuantizationErrorBound : Prop :=
  (∀ (k : Nat) (v : Word) (q : Nat), 1 ≤ k → k ≤ 7 → f32IsFinite v = true → qdet k v = (q, false) →
    ((q : Rat) * 2 ^ k - 255 / 2 ≤ f32Val v ∧ f32Val v < ((q : Rat) + 1) * 2 ^ k - 255 / 2) ∧
    (-(2 : Rat) ^ (k - 1) < f32Val (deq k q) - f32Val v ∧
      f32Val (deq k q) - f32Val v ≤ 2 ^ (k - 1))) ∧
  ∀ k : Nat, 1 ≤ k → k ≤ 7 →
    qdet k 0x00000000 = (2 ^ (7 - k) - 1, false) ∧
      f32Val (deq k (2 ^ (7 - k) - 1)) = 1 / 2 - 2 ^ (k - 1)

/-- R213: dividing after truncating gives the index `qdet` gives, for every value with
−1 < v + 127.5 < 256. -/
def Obligations.TruncationOrderDoesNotMatter : Prop :=
  ∀ (k : Nat) (v : Word) (x : Rat), 1 ≤ k → k ≤ 7 → f32IsFinite v = true → x = f32Val v + 255 / 2 →
    -1 < x → x < 256 →
    ((qdet k v).1 : Int) = (if 0 ≤ x then ⌊x⌋ else ⌈x⌉) / 2 ^ k ∧ ((qdet k v).2 = true ↔ x < 0)

/-- R216, R218: QUANT and DEQUANT complete, whatever the configuration, and change only Q_INDEX with
QCLAMP, or only Q_COEF. -/
def Obligations.QuantizerCommands : Prop :=
  ∀ (s : State) (k : Nat), k ≤ 7 →
    (∀ (q : Nat) (cl : Bool), (q, cl) = (if k = 0 then satTrunc8 s.qCoef else qdet k s.qCoef) →
      q ≤ (if k = 0 then 255 else 2 ^ (8 - k) - 1) ∧
      exec (.quant k) s = .next
        { s with
          qIndex := BitVec.ofNat 8 q, qclamp := s.qclamp || cl, busy := false, done := true }) ∧
    exec (.dequant k) s = .next
      { s with
        qCoef := if k = 0 then cvt32 s.qIndex.toNat else deq k s.qIndex.toNat
        busy := false, done := true }

/-! The bit packer and unpacker. -/

/-- R280, R244: NOP only completes; BP_INIT resets the packer and the unpacker. -/
def Obligations.NopAndBpInit : Prop :=
  ∀ s : State,
    exec .nop s = .next { s with busy := false, done := true } ∧
    exec .bpInit s = .next
      { s with
        wbuf := 0, wfree := 8, wptr := 0, rbuf := 0, ravail := 0, rptr := 0
        busy := false, done := true }

/-- R246, R250: a PUSH appends the low w bits of v to the pending bits and emits the byte that fills up;
a FLUSH emits the pending bits padded with zeros; each sets STREAM_LEN to WPTR. -/
def Obligations.PushAndFlush : Prop :=
  ∀ s : State, s.PackerInv →
    (∀ v w x, 1 ≤ w → w ≤ 8 → x = v % 2 ^ w → w < s.wfree.toNat → s.wptr.toNat ≤ s.params.bsCap →
      exec (.push v w) s = .next
        { s with
          wbuf := BitVec.ofNat 8 (s.wbuf.toNat + x * 2 ^ (s.wfree.toNat - w))
          wfree := BitVec.ofNat 4 (s.wfree.toNat - w)
          streamLen := s.wptr
          vtrunc := s.vtrunc || decide (2 ^ w ≤ v)
          busy := false, done := true }) ∧
    (∀ v w x, 1 ≤ w → w ≤ 8 → x = v % 2 ^ w → s.wfree.toNat ≤ w → s.wptr.toNat < s.params.bsCap →
      ∃ m, exec (.push v w) s = .next
        { s with
          stream := m
          wbuf := BitVec.ofNat 8 (x % 2 ^ (w - s.wfree.toNat) * 2 ^ (8 - (w - s.wfree.toNat)))
          wfree := BitVec.ofNat 4 (8 - (w - s.wfree.toNat))
          wptr := s.wptr + 1, streamLen := s.wptr + 1
          vtrunc := s.vtrunc || decide (2 ^ w ≤ v)
          busy := false, done := true } ∧
        ∀ j, m.read j = if j = s.wptr.toNat
          then some (BitVec.ofNat 8 (s.wbuf.toNat + x / 2 ^ (w - s.wfree.toNat)))
          else s.stream.read j) ∧
    (s.wptr.toNat < s.params.bsCap →
      ∃ m, exec .flush s = .next
        { s with
          stream := m, wbuf := 0, wfree := 8, wptr := s.wptr + 1, streamLen := s.wptr + 1
          busy := false, done := true } ∧
        ∀ j, m.read j = if j = s.wptr.toNat then some s.wbuf else s.stream.read j)

/-- R254, R245: a PULL takes the next w bits, from the bits RBUF still holds and, when they are too few,
from the byte at RPTR. (Log 7: it is R254's test on RPTR that is read, also when no byte is fetched.) -/
def Obligations.PullTakesTheNextBits : Prop :=
  ∀ (s : State) (w : Nat), s.PackerInv → 1 ≤ w → w ≤ 8 →
    (w ≤ s.ravail.toNat → s.rptr.toNat ≤ min s.streamLen.toNat s.params.bsCap →
      exec (.pull w) s = .next
        { s with
          pullData := BitVec.ofNat 8 (s.rbuf.toNat / 2 ^ (s.ravail.toNat - w) % 2 ^ w)
          ravail := BitVec.ofNat 4 (s.ravail.toNat - w)
          busy := false, done := true }) ∧
    (∀ b : Byte, s.ravail.toNat < w → s.rptr.toNat < min s.streamLen.toNat s.params.bsCap →
      s.stream.read s.rptr.toNat = some b →
      exec (.pull w) s = .next
        { s with
          pullData := BitVec.ofNat 8
            (s.rbuf.toNat % 2 ^ s.ravail.toNat * 2 ^ (w - s.ravail.toNat) +
              b.toNat / 2 ^ (8 - (w - s.ravail.toNat)))
          rbuf := b
          ravail := BitVec.ofNat 4 (8 - (w - s.ravail.toNat))
          rptr := s.rptr + 1
          busy := false, done := true })

/-- R252, R242: what a sequence of pushes and a flush leaves in STREAM, from an empty buffer. -/
def Obligations.StreamHoldsThePushedBits : Prop :=
  ∀ (p q : Packer) (ps : List (Nat × Nat)) (total : Nat),
    p.free = 8 → p.buf = 0 → (∀ xw ∈ ps, 1 ≤ xw.2 ∧ xw.2 ≤ 8 ∧ xw.1 < 2 ^ xw.2) →
    total = (ps.map Prod.snd).sum → p.ptr.toNat + total / 8 + 1 < 2 ^ 32 →
    q = pkFlush (ps.foldl (fun p xw => pkPush xw.1 xw.2 p) p) →
    streamBits q.out p.ptr.toNat (total / 8 + 1) =
        pushedBits ps ++ List.replicate (8 * (total / 8 + 1) - total) false ∧
      (∀ j < total / 8 + 1, ∃ b, q.out.read (p.ptr.toNat + j) = some b) ∧
      q.ptr.toNat = p.ptr.toNat + total / 8 + 1 ∧
      ∀ j, j < p.ptr.toNat ∨ p.ptr.toNat + total / 8 + 1 ≤ j → q.out.read j = p.out.read j

/-- R262: BP_INIT, the pushes and a FLUSH, then PULLs of the same widths: every command succeeds and the
PULLs return the values pushed, in order. -/
def Obligations.PackedValuesPullBack : Prop :=
  ∀ (s : State) (ps : List (Nat × Nat)) (total : Nat),
    s.errv = false → s.params.Legal → (∀ xw ∈ ps, 1 ≤ xw.2 ∧ xw.2 ≤ 8 ∧ xw.1 < 2 ^ xw.2) →
    total = (ps.map Prod.snd).sum → total / 8 + 1 ≤ s.params.bsCap →
    ∃ t, runCommands ((.bpInit :: ps.map fun xw => .push xw.1 xw.2) ++ [.flush]) s = some t ∧
      t.rptr = 0 ∧ t.ravail = 0 ∧ t.streamLen.toNat = total / 8 + 1 ∧
      pullAll (ps.map Prod.snd) t = some (ps.map Prod.fst)

/-- R258: which commands set STREAM_LEN, to WPTR, as they succeed; every other command leaves it. -/
def Obligations.StreamLenFollowsWptr : Prop :=
  ∀ (i : Instr) (s t : State), s.errv = false → exec i s = .next t → t.errv = false →
    ((∃ v w, i = .push v w) ∨ i = .flush ∨ i = .qpack ∨ i = .encode → t.streamLen = t.wptr) ∧
    ((∀ v w, i ≠ .push v w) → i ≠ .flush → i ≠ .qpack → i ≠ .encode → t.streamLen = s.streamLen)

/-! The transform. -/

/-- R282: LOAD_IMAGE copies the image into the plane and changes nothing else but CUR_LEVEL. -/
def Obligations.LoadImageCopiesTheImage : Prop :=
  ∀ (s : State) (n : Nat), s.CfgOk → n = s.width.toNat * s.height.toNat → s.image.PresentBelow n →
    ∃ m, exec .loadImage s = .next { s with plane := m, curLevel := 0, busy := false, done := true } ∧
      (∀ i < n, ∀ b, s.image.read i = some b → m.read i = some (cvt32 b.toNat)) ∧
      ∀ i, n ≤ i → m.read i = s.plane.read i

/-- R284: STORE_IMAGE stores the truncated plane, sets OCLAMP when a sample was clamped, and changes
nothing else. -/
def Obligations.StoreImageTruncatesThePlane : Prop :=
  ∀ (s : State) (n : Nat), s.CfgOk → n = s.width.toNat * s.height.toNat → s.plane.PresentBelow n →
    ∃ m cl, exec .storeImage s = .next
        { s with image := m, oclamp := s.oclamp || cl, busy := false, done := true } ∧
      (∀ i < n, ∀ v, s.plane.read i = some v → m.read i = some (BitVec.ofNat 8 (satTrunc8 v).1)) ∧
      (∀ i, n ≤ i → m.read i = s.image.read i) ∧
      (cl = true ↔ ∃ i < n, ∃ v, s.plane.read i = some v ∧ (satTrunc8 v).2 = true)

/-- R172: FWD_LEVEL, element by element, and everything it leaves unchanged. -/
def Obligations.FwdLevelTransformsTheRegion : Prop :=
  ∀ (s : State) (w n m : Nat), s.CfgOk → s.curLevel.toNat < s.levels.toNat →
    s.RegionPresent s.curLevel.toNat → w = s.width.toNat →
    n = s.width.toNat / 2 ^ s.curLevel.toNat → m = s.height.toNat / 2 ^ s.curLevel.toNat →
    ∃ p, exec .fwdLevel s =
        .next { s with plane := p, curLevel := s.curLevel + 1, busy := false, done := true } ∧
      (∀ i < m / 2, ∀ j < n / 2, ∀ a b c d,
        s.plane.read (2 * i * w + 2 * j) = some a → s.plane.read (2 * i * w + (2 * j + 1)) = some b →
        s.plane.read ((2 * i + 1) * w + 2 * j) = some c →
        s.plane.read ((2 * i + 1) * w + (2 * j + 1)) = some d →
        p.read (i * w + j) = some (half32 (add32 (half32 (add32 a b)) (half32 (add32 c d)))) ∧
        p.read ((m / 2 + i) * w + j) = some (half32 (sub32 (half32 (add32 a b)) (half32 (add32 c d)))) ∧
        p.read (i * w + (n / 2 + j)) = some (half32 (add32 (half32 (sub32 a b)) (half32 (sub32 c d)))) ∧
        p.read ((m / 2 + i) * w + (n / 2 + j)) =
          some (half32 (sub32 (half32 (sub32 a b)) (half32 (sub32 c d))))) ∧
      ∀ x, (∀ r < m, ∀ k < n, x ≠ r * w + k) → p.read x = s.plane.read x

/-- R176: INV_LEVEL, element by element, and everything it leaves unchanged. -/
def Obligations.InvLevelRestoresTheRegion : Prop :=
  ∀ (s : State) (w n m : Nat), s.CfgOk → 1 ≤ s.curLevel.toNat → s.curLevel.toNat ≤ s.levels.toNat →
    s.RegionPresent (s.curLevel.toNat - 1) → w = s.width.toNat →
    n = s.width.toNat / 2 ^ s.curLevel.toNat → m = s.height.toNat / 2 ^ s.curLevel.toNat →
    ∃ p, exec .invLevel s =
        .next { s with plane := p, curLevel := s.curLevel - 1, busy := false, done := true } ∧
      (∀ i < m, ∀ j < n, ∀ ll lh hl hh,
        s.plane.read (i * w + j) = some ll → s.plane.read ((m + i) * w + j) = some lh →
        s.plane.read (i * w + (n + j)) = some hl → s.plane.read ((m + i) * w + (n + j)) = some hh →
        p.read (2 * i * w + 2 * j) = some (add32 (add32 ll lh) (add32 hl hh)) ∧
        p.read (2 * i * w + (2 * j + 1)) = some (sub32 (add32 ll lh) (add32 hl hh)) ∧
        p.read ((2 * i + 1) * w + 2 * j) = some (add32 (sub32 ll lh) (sub32 hl hh)) ∧
        p.read ((2 * i + 1) * w + (2 * j + 1)) = some (sub32 (sub32 ll lh) (sub32 hl hh))) ∧
      ∀ x, (∀ r < 2 * m, ∀ k < 2 * n, x ≠ r * w + k) → p.read x = s.plane.read x

/-- R180, R182: FWD_ALL is FWD_LEVEL run LEVELS − CUR_LEVEL times, and INV_ALL is INV_LEVEL run CUR_LEVEL
times; with none to run they only complete. -/
def Obligations.AllLevelsAreRepeatedLevels : Prop :=
  ∀ s : State, s.errv = false → s.CfgOk → s.curLevel.toNat ≤ s.levels.toNat →
    ((s.curLevel ≠ s.levels → s.RegionPresent s.curLevel.toNat) →
      ∃ t, runCommands (List.replicate (s.levels.toNat - s.curLevel.toNat) .fwdLevel) s = some t ∧
        t.curLevel = s.levels ∧ exec .fwdAll s = .next { t with busy := false, done := true }) ∧
    ((s.curLevel ≠ 0 → s.RegionPresent 0) →
      ∃ t, runCommands (List.replicate s.curLevel.toNat .invLevel) s = some t ∧
        t.curLevel = 0 ∧ exec .invAll s = .next { t with busy := false, done := true })

/-- R174, R19: in the codec domain a forward level is exact: the closed form, and the range and grid of
its results. -/
def Obligations.ForwardLevelIsExactInTheCodecDomain : Prop :=
  ∀ (s : State) (w n m c : Nat), s.CfgOk → c = s.curLevel.toNat → c < s.levels.toNat →
    w = s.width.toNat → n = s.width.toNat / 2 ^ c → m = s.height.toNat / 2 ^ c →
    (∀ r < m, ∀ k < n, ∃ v, s.plane.read (r * w + k) = some v ∧ CodecLow c v) →
    ∃ t, exec .fwdLevel s = .next t ∧
      ∀ i < m / 2, ∀ j < n / 2, ∀ a b c' d,
        s.plane.read (2 * i * w + 2 * j) = some a → s.plane.read (2 * i * w + (2 * j + 1)) = some b →
        s.plane.read ((2 * i + 1) * w + 2 * j) = some c' →
        s.plane.read ((2 * i + 1) * w + (2 * j + 1)) = some d →
        ∃ ll lh hl hh, t.plane.read (i * w + j) = some ll ∧
          t.plane.read ((m / 2 + i) * w + j) = some lh ∧
          t.plane.read (i * w + (n / 2 + j)) = some hl ∧
          t.plane.read ((m / 2 + i) * w + (n / 2 + j)) = some hh ∧
          f32Val ll = (f32Val a + f32Val b + f32Val c' + f32Val d) / 4 ∧
          f32Val lh = (f32Val a + f32Val b - f32Val c' - f32Val d) / 4 ∧
          f32Val hl = (f32Val a - f32Val b + f32Val c' - f32Val d) / 4 ∧
          f32Val hh = (f32Val a - f32Val b - f32Val c' + f32Val d) / 4 ∧
          CodecLow (c + 1) ll ∧ CodecDetail (c + 1) lh ∧ CodecDetail (c + 1) hl ∧
          CodecDetail (c + 1) hh

/-- R177, R20: on the values of the decode side an inverse level is exact: the closed form. -/
def Obligations.InverseLevelIsExactInTheCodecDomain : Prop :=
  ∀ (s : State) (w n m c : Nat), s.CfgOk → c = s.curLevel.toNat → 1 ≤ c → c ≤ s.levels.toNat →
    w = s.width.toNat → n = s.width.toNat / 2 ^ c → m = s.height.toNat / 2 ^ c →
    (∀ r < 2 * m, ∀ k < 2 * n, ∃ v, s.plane.read (r * w + k) = some v ∧ CodecHalf v) →
    ∃ t, exec .invLevel s = .next t ∧
      ∀ i < m, ∀ j < n, ∀ ll lh hl hh,
        s.plane.read (i * w + j) = some ll → s.plane.read ((m + i) * w + j) = some lh →
        s.plane.read (i * w + (n + j)) = some hl → s.plane.read ((m + i) * w + (n + j)) = some hh →
        ∃ a b c' d, t.plane.read (2 * i * w + 2 * j) = some a ∧
          t.plane.read (2 * i * w + (2 * j + 1)) = some b ∧
          t.plane.read ((2 * i + 1) * w + 2 * j) = some c' ∧
          t.plane.read ((2 * i + 1) * w + (2 * j + 1)) = some d ∧
          f32Val a = f32Val ll + f32Val lh + f32Val hl + f32Val hh ∧
          f32Val b = f32Val ll + f32Val lh - f32Val hl - f32Val hh ∧
          f32Val c' = f32Val ll - f32Val lh + f32Val hl - f32Val hh ∧
          f32Val d = f32Val ll - f32Val lh - f32Val hl + f32Val hh

/-- R178: in the codec domain INV_LEVEL undoes FWD_LEVEL: nothing but BUSY and DONE differs. -/
def Obligations.OneLevelRoundTrip : Prop :=
  ∀ (s : State) (c : Nat), Memory.wf s.plane = true → s.CfgOk → c = s.curLevel.toNat →
    c < s.levels.toNat →
    (∀ r < s.height.toNat / 2 ^ c, ∀ k < s.width.toNat / 2 ^ c,
      ∃ v, s.plane.read (r * s.width.toNat + k) = some v ∧ CodecLow c v) →
    ∃ t, exec .fwdLevel s = .next t ∧ t.curLevel.toNat = c + 1 ∧
      exec .invLevel t = .next { s with busy := false, done := true }

/-- R184: on a plane of integers in [0, 255], FWD_ALL and then INV_ALL leave the plane equal bit for bit. -/
def Obligations.TransformRoundTrip : Prop :=
  ∀ s : State, Memory.wf s.plane = true → s.CfgOk → s.curLevel = 0 →
    (∀ i < s.width.toNat * s.height.toNat, ∃ b ≤ 255, s.plane.read i = some (cvt32 b)) →
    ∃ t, exec .fwdAll s = .next t ∧ t.curLevel = s.levels ∧
      exec .invAll t = .next { s with busy := false, done := true }

/-! The codec. -/

/-- R288, R171: SCHED's entries in order: the LL block row by row, then levels 1 to L, of each level the
positions row by row and LH, HL and HH of a position together. It visits every plane position exactly once,
and its widths add up to the LL bytes and the detail bits of R16. -/
def Obligations.SchedVisitsEveryPositionOnce : Prop :=
  ∀ (s : State) (es : List SchedEntry), s.CfgOk →
    es = sched s.width.toNat s.height.toNat s.levels.toNat →
    es =
      ((List.range (s.height.toNat / 2 ^ s.levels.toNat)).flatMap fun r =>
        (List.range (s.width.toNat / 2 ^ s.levels.toNat)).map fun c => { pos := (r, c), level := 0 }) ++
      (((List.range s.levels.toNat).map (· + 1)).flatMap fun k =>
        (List.range (s.height.toNat / 2 ^ k)).flatMap fun i =>
          (List.range (s.width.toNat / 2 ^ k)).flatMap fun j =>
            [{ pos := (s.height.toNat / 2 ^ k + i, j), level := k },
              { pos := (i, s.width.toNat / 2 ^ k + j), level := k },
              { pos := (s.height.toNat / 2 ^ k + i, s.width.toNat / 2 ^ k + j), level := k }]) ∧
    (∀ r c, (es.map SchedEntry.pos).count (r, c) =
      if r < s.height.toNat ∧ c < s.width.toNat then 1 else 0) ∧
    (∀ e ∈ es, e.level ≤ s.levels.toNat ∧ e.bits = if e.level = 0 then 8 else 8 - e.level) ∧
    (es.map SchedEntry.bits).sum =
      8 * (s.width.toNat / 2 ^ s.levels.toNat * (s.height.toNat / 2 ^ s.levels.toNat)) +
        ∑ k ∈ Finset.range s.levels.toNat,
          3 * (s.width.toNat / 2 ^ (k + 1)) * (s.height.toNat / 2 ^ (k + 1)) * (8 - (k + 1))

/-- R290, R286: QPACK quantizes the plane in SCHED order into STREAM[0, ENC_LEN), ends with one zero-padded
byte, and sets QCLAMP when a value was clamped. -/
def Obligations.QpackPacksThePlane : Prop :=
  ∀ (s : State) (es : List SchedEntry) (quantized : SchedEntry → Nat × Bool), s.params.Legal → s.CfgOk →
    s.curLevel = s.levels → s.plane.PresentBelow (s.width.toNat * s.height.toNat) →
    es = sched s.width.toNat s.height.toNat s.levels.toNat →
    (∀ e ∈ es, ∀ v, s.plane.read (e.pos.1 * s.width.toNat + e.pos.2) = some v →
      quantized e = if e.level = 0 then satTrunc8 v else qdet e.level v) →
    ∃ m cl, exec .qpack s = .next
        { s with
          stream := m, wptr := BitVec.ofNat 32 s.encLen, wbuf := 0, wfree := 8
          streamLen := BitVec.ofNat 32 s.encLen, qclamp := s.qclamp || cl
          busy := false, done := true } ∧
      streamBits m 0 s.encLen =
        pushedBits (es.map fun e => ((quantized e).1, e.bits)) ++
          List.replicate (8 * s.encLen - (es.map SchedEntry.bits).sum) false ∧
      (∀ j < s.encLen, ∃ b, m.read j = some b) ∧
      (∀ j, s.encLen ≤ j → m.read j = s.stream.read j) ∧
      (cl = true ↔ ∃ e ∈ es, (quantized e).2 = true)

/-- R292: UNPACK_DQ reads SCHED's widths from STREAM and writes their reconstructions to the plane; what
it leaves in the unpacker. -/
def Obligations.UnpackDqFillsThePlane : Prop :=
  ∀ (s : State) (es : List SchedEntry) (total : Nat), s.params.Legal → s.CfgOk →
    s.decLen ≤ min s.streamLen.toNat s.params.bsCap → s.stream.PresentBelow s.decLen →
    es = sched s.width.toNat s.height.toNat s.levels.toNat → total = (es.map SchedEntry.bits).sum →
    ∃ (m : Memory Word) (qs : List Nat), exec .unpackDq s = .next
        { s with
          plane := m, curLevel := s.levels
          rptr := BitVec.ofNat 32 s.decLen, rbuf := (s.stream.read (s.decLen - 1)).getD 0
          ravail := BitVec.ofNat 4 (8 * s.decLen - total)
          busy := false, done := true } ∧
      qs.length = es.length ∧
      pushedBits (qs.zip (es.map SchedEntry.bits)) = (streamBits s.stream 0 s.decLen).take total ∧
      (∀ qe ∈ qs.zip es, qe.1 < 2 ^ qe.2.bits ∧
        m.read (qe.2.pos.1 * s.width.toNat + qe.2.pos.2) =
          some (if qe.2.level = 0 then cvt32 qe.1 else deq qe.2.level qe.1)) ∧
      ∀ j, s.width.toNat * s.height.toNat ≤ j → m.read j = s.plane.read j

/-- R294, R215: a stream QPACK made always decodes with the same configuration, and UNPACK_DQ then puts
the reconstruction of every quantized value back at its place. -/
def Obligations.UnpackAfterPackReconstructs : Prop :=
  ∀ s : State, s.params.Legal → s.CfgOk → s.curLevel = s.levels →
    s.plane.PresentBelow (s.width.toNat * s.height.toNat) →
    ∃ t u, exec .qpack s = .next t ∧ exec .unpackDq t = .next u ∧ u.curLevel = s.curLevel ∧
      ∀ e ∈ sched s.width.toNat s.height.toNat s.levels.toNat,
        ∀ v, s.plane.read (e.pos.1 * s.width.toNat + e.pos.2) = some v →
          u.plane.read (e.pos.1 * s.width.toNat + e.pos.2) =
            some (if e.level = 0 then cvt32 (satTrunc8 v).1 else deq e.level (qdet e.level v).1)

/-- R296, R298: ENCODE is LOAD_IMAGE, FWD_ALL and QPACK; DECODE is UNPACK_DQ, INV_ALL and STORE_IMAGE. -/
def Obligations.CompositeCommandsAreTheirStages : Prop :=
  ∀ s : State, s.errv = false → s.params.Legal → s.CfgOk →
    (s.image.PresentBelow (s.width.toNat * s.height.toNat) →
      ∃ t, runCommands [.loadImage, .fwdAll, .qpack] s = some t ∧ exec .encode s = .next t ∧
        t.curLevel = s.levels ∧ t.wptr.toNat = s.encLen ∧ t.streamLen.toNat = s.encLen ∧ t.wbuf = 0 ∧
        t.wfree = 8) ∧
    (s.decLen ≤ min s.streamLen.toNat s.params.bsCap → s.stream.PresentBelow s.decLen →
      ∃ t, runCommands [.unpackDq, .invAll, .storeImage] s = some t ∧ exec .decode s = .next t ∧
        t.curLevel = 0)

/-- R300: what ENCODE writes to STREAM and STREAM_LEN depends on the image and the configuration alone, and
what DECODE writes to IMAGE on the stream and the configuration alone. -/
def Obligations.EncodeAndDecodeArePure : Prop :=
  ∀ s s' t t' : State, s.width = s'.width → s.height = s'.height → s.levels = s'.levels →
    s.errv = false → s'.errv = false → t.errv = false → t'.errv = false →
    ((∀ i < s.width.toNat * s.height.toNat, s.image.read i = s'.image.read i) →
      exec .encode s = .next t → exec .encode s' = .next t' →
      t.streamLen = t'.streamLen ∧ ∀ j < s.encLen, t.stream.read j = t'.stream.read j) ∧
    ((∀ j < s.decLen, s.stream.read j = s'.stream.read j) →
      exec .decode s = .next t → exec .decode s' = .next t' →
      ∀ i < s.width.toNat * s.height.toNat, t.image.read i = t'.image.read i)

/-- R22: no LL value and no detail value of the codec domain's encode side is clamped, and ENCODE never sets
QCLAMP. -/
def Obligations.EncodeNeverClamps : Prop :=
  (∀ (c : Nat) (v : Word), c ≤ 7 → CodecLow c v → (satTrunc8 v).2 = false) ∧
  (∀ (k : Nat) (v : Word), 1 ≤ k → k ≤ 7 → CodecDetail k v →
    0 ≤ f32Val v + 255 / 2 ∧ f32Val v + 255 / 2 ≤ 255 ∧ (qdet k v).2 = false ∧
      ((qdet k v).1 : Int) = ⌊(f32Val v + 255 / 2) / 2 ^ k⌋) ∧
  ∀ s t : State, exec .encode s = .next t → t.qclamp = s.qclamp

/-! Invariants. -/

/-- R43, R45: every step keeps 1 ≤ WFREE ≤ 8, the low WFREE bits of WBUF 0, and RAVAIL ≤ 7. -/
def Obligations.StepKeepsThePackerInvariant : Prop :=
  ∀ s t : State, s.PackerInv → step s = .next t → t.PackerInv

/-- R8, R60, R49, R373: every step keeps the memories in canonical form and within their element counts,
and keeps the parameters. -/
def Obligations.StepKeepsTheMemoryInvariant : Prop :=
  ∀ s t : State, s.MemoryInv → s.PackerInv → step s = .next t → t.MemoryInv ∧ t.params = s.params

/-- R36, R53, R331, R332, R380: every step keeps ERRCODE a code of R331, nonzero exactly with ERRV, DONE and
ERRV clear while BUSY = 1, and CMD equal to PEND. -/
def Obligations.StepKeepsTheStatusInvariant : Prop :=
  ∀ s t : State, s.StatusInv → step s = .next t → t.StatusInv

/-- R31, R370, R43, R45: reset meets the three invariants, for all legal parameters; the recommended ones
are legal (R7). -/
def Obligations.ResetMeetsTheInvariants : Prop :=
  Params.recommended.Legal ∧
    ∀ p : Params, p.Legal → (State.resetWith p).MemoryInv ∧ (State.resetWith p).PackerInv ∧
      (State.resetWith p).StatusInv

/-! Host programs. -/

/-- R141: WAIT reads STATUS once per turn and loops exactly while bit 0 of what it read is 1, for any number
of polls; RUN writes CMD and waits, and goes on after the poll that follows the completion (R54), or the run
ends where the command stops on an element that holds ⊥ (R65); SETCFG, CLRST and FILL line by line. That the
host and the order of turns stand beside State is the model's choice (log 19). -/
def Obligations.HostProgramPseudoInstructions : Prop :=
  (∀ (s : State) (ops : List HostOp), ∃ w : Word, w.getLsbD 0 = s.busy ∧
    s.busRead 0x0000000C = .ok (.read w .okay) ∧
    HostSystem.turn { prog := hostWait ++ ops, mach := s } .host =
      .next { prog := if s.busy = true then hostWait ++ ops else ops,
              mach := { s with replies := s.replies ++ [.read w .okay] } }) ∧
  (∀ (s : State) (word : Word) (ops : List HostOp) (n : Nat), s.busy = false →
    ∃ polls : List Reply, polls.length = n ∧
      (∀ r ∈ polls, ∃ w : Word, r = .read w .okay ∧ w.getLsbD 0 = true) ∧
      let accepted : State :=
        { s with
          cmd := word, pend := word, busy := true, done := false, errv := false, errcode := 0
          env := .core :: s.env, replies := s.replies ++ .write .okay :: polls }
      let turns : List Turn := .host :: List.replicate n .host ++ [.core, .host]
      (∀ t, step accepted = .next t → ∃ w : Word, w.getLsbD 0 = false ∧
        t.busRead 0x0000000C = .ok (.read w .okay) ∧
        HostSystem.run turns { prog := hostRun word ++ ops, mach := s } =
          .next { prog := ops, mach := { t with replies := t.replies ++ [.read w .okay] } }) ∧
      ∀ f, step accepted = .fault f →
        HostSystem.run turns { prog := hostRun word ++ ops, mach := s } = .fault f) ∧
  (∀ word, hostRun word = .wr 0x00000008 word :: hostWait) ∧
  (∀ w h l, hostSetCfg w h l = [.wr 0x00000010 w, .wr 0x00000014 h, .wr 0x00000018 l]) ∧
  hostClrst = [.wr 0x0000000C 0x0000003E] ∧
  ∀ (ds : List Word) (i : Nat),
    (hostFill .image 0 ds)[i]? = ds[i]?.map (.wr (BitVec.ofNat 32 (0x10000000 + 4 * i)) ·) ∧
      (hostFill .plane 0 ds)[i]? = ds[i]?.map (.wr (BitVec.ofNat 32 (0x20000000 + 4 * i)) ·) ∧
      (hostFill .stream 0 ds)[i]? = ds[i]?.map (.wr (BitVec.ofNat 32 (0x30000000 + 4 * i)) ·)

end
end

