-- ==== Sys2Proof/Laws/Bits.lean ====
section
/-! SUPPORT. The laws of bit sequences (R242): how `bitsOf` splits, and that it determines its value. -/

namespace Sys2Proof.Machine

@[simp] theorem length_bitsOf (x w : Nat) : (bitsOf x w).length = w := by
  induction w with
  | zero => rfl
  | succ w ih => simp [bitsOf, ih]

/-- The high `a` bits come first, then the low `b` bits. -/
theorem bitsOf_add (x a b : Nat) : bitsOf x (a + b) = bitsOf (x >>> b) a ++ bitsOf x b := by
  induction a with
  | zero => simp [bitsOf]
  | succ a ih =>
    rw [show a + 1 + b = (a + b) + 1 by omega]
    simp only [bitsOf, ih, List.cons_append, Nat.testBit_shiftRight]
    rw [Nat.add_comm b a]

/-- Only the low `w` bits matter. -/
theorem bitsOf_congr {x y w : Nat} (h : ∀ i < w, x.testBit i = y.testBit i) : bitsOf x w = bitsOf y w := by
  induction w with
  | zero => rfl
  | succ w ih =>
    simp only [bitsOf]
    rw [h w (by omega), ih fun i hi => h i (by omega)]

theorem bitsOf_mod (x w : Nat) : bitsOf (x % 2 ^ w) w = bitsOf x w :=
  bitsOf_congr fun i hi => by simp [Nat.testBit_mod_two_pow, hi]

/-- Bits `x` appended to bits `b` are the bits of `b · 2^w + x`. -/
theorem bitsOf_append {b u x w : Nat} (hx : x < 2 ^ w) :
    bitsOf b u ++ bitsOf x w = bitsOf (b * 2 ^ w + x) (u + w) := by
  rw [bitsOf_add, Nat.shiftRight_eq_div_pow]
  congr 1
  · rw [Nat.add_comm, Nat.add_mul_div_right _ _ (by positivity), Nat.div_eq_of_lt hx, Nat.zero_add]
  · rw [← bitsOf_mod (b * 2 ^ w + x), Nat.add_comm, Nat.add_mul_mod_self_right, bitsOf_mod]

theorem testBit_of_bitsOf_eq {x y w : Nat} (h : bitsOf x w = bitsOf y w) :
    ∀ i < w, x.testBit i = y.testBit i := by
  induction w with
  | zero => simp
  | succ w ih =>
    simp only [bitsOf, List.cons.injEq] at h
    intro i hi
    rcases Nat.lt_succ_iff_lt_or_eq.1 hi with hi | rfl
    · exact ih h.2 i hi
    · exact h.1

/-- The bits of a value below 2^w determine it. -/
theorem bitsOf_inj {x y w : Nat} (hx : x < 2 ^ w) (hy : y < 2 ^ w) (h : bitsOf x w = bitsOf y w) :
    x = y := by
  apply Nat.eq_of_testBit_eq
  intro i
  by_cases hi : i < w
  · exact testBit_of_bitsOf_eq h i hi
  · rw [Nat.testBit_lt_two_pow (lt_of_lt_of_le hx (Nat.pow_le_pow_right (by omega) (by omega))),
      Nat.testBit_lt_two_pow (lt_of_lt_of_le hy (Nat.pow_le_pow_right (by omega) (by omega)))]

/-- Zeros below the bits of `b` are the padding of R243's flush. -/
theorem bitsOf_pad (b u z : Nat) : bitsOf (b * 2 ^ z) (u + z) = bitsOf b u ++ List.replicate z false := by
  rw [bitsOf_add, Nat.shiftRight_eq_div_pow, Nat.mul_div_cancel _ (by positivity)]
  congr 1
  apply List.ext_getElem
  · simp
  · intro i h1 h2
    have : ∀ (z' : Nat), z' ≤ z → ∀ c ∈ bitsOf (b * 2 ^ z) z', c = false := by
      intro z'
      induction z' with
      | zero => intro _ c hc; simp [bitsOf] at hc
      | succ z' ih =>
        intro hz c hc
        simp only [bitsOf, List.mem_cons] at hc
        rcases hc with rfl | hc
        · rw [Nat.mul_comm, Nat.testBit_two_pow_mul]; simp; omega
        · exact ih (by omega) c hc
    rw [this z le_rfl _ (List.getElem_mem h1), List.getElem_replicate]

@[simp] theorem streamBits_zero (m : Memory Byte) (p : Nat) : streamBits m p 0 = [] := rfl

theorem streamBits_succ (m : Memory Byte) (p n : Nat) :
    streamBits m p (n + 1) = streamBits m p n ++ bitsOf ((m.read (p + n)).getD 0).toNat 8 := by
  simp [streamBits, List.range_succ]

theorem streamBits_cons (m : Memory Byte) (p n : Nat) :
    streamBits m p (n + 1) = bitsOf ((m.read p).getD 0).toNat 8 ++ streamBits m (p + 1) n := by
  induction n with
  | zero => simp [streamBits_succ]
  | succ n ih => rw [streamBits_succ, ih, streamBits_succ m (p + 1) n]; simp [Nat.add_assoc, Nat.add_comm 1 n]

@[simp] theorem length_streamBits (m : Memory Byte) (p n : Nat) : (streamBits m p n).length = 8 * n := by
  induction n with
  | zero => rfl
  | succ n ih => rw [streamBits_succ, List.length_append, ih, length_bitsOf]; omega

/-- Bytes that agree give the same bits. -/
theorem streamBits_congr {m m' : Memory Byte} {p n : Nat}
    (h : ∀ j < n, m.read (p + j) = m'.read (p + j)) : streamBits m p n = streamBits m' p n := by
  induction n with
  | zero => rfl
  | succ n ih =>
    rw [streamBits_succ, streamBits_succ, ih fun j hj => h j (by omega), h n (by omega)]

end Sys2Proof.Machine
end

