-- ==== Sys2Proof/Laws/Memory.lean ====
section
/-! SUPPORT. The laws of the memory operations: a read after a write, the canonical form, and what the
fault-only reads of `requireAll` say. -/

namespace Sys2Proof.Machine

variable {α : Type}

@[simp] theorem Memory.read_nil (i : Nat) : Memory.read ([] : Memory α) i = none := rfl

theorem Memory.read_cons (a : Nat) (x : α) (m : Memory α) (i : Nat) :
    Memory.read ((a, x) :: m) i = if a = i then some x else Memory.read m i := rfl

/-- What a memory holds after a write. -/
theorem Memory.read_write (m : Memory α) (i j : Nat) (v : α) :
    Memory.read (Memory.write m i v) j = if i = j then some v else Memory.read m j := by
  induction m with
  | nil => rfl
  | cons p m ih =>
    obtain ⟨a, x⟩ := p
    unfold Memory.write
    split
    · simp only [Memory.read_cons]
    · split
      · subst_vars
        simp only [Memory.read_cons]
        split <;> rfl
      · simp only [Memory.read_cons, ih]
        split <;> split <;> simp_all

@[simp] theorem Memory.read_write_same (m : Memory α) (i : Nat) (v : α) :
    Memory.read (Memory.write m i v) i = some v := by simp [Memory.read_write]

theorem Memory.read_write_ne (m : Memory α) {i j : Nat} (v : α) (h : i ≠ j) :
    Memory.read (Memory.write m i v) j = Memory.read m j := by simp [Memory.read_write, h]

/-- The canonical form, as a pairwise fact. -/
theorem Memory.wf_iff (m : Memory α) : Memory.wf m = true ↔ m.Pairwise fun p q => p.1 < q.1 := by
  induction m with
  | nil => simp [Memory.wf]
  | cons p m ih =>
    obtain ⟨a, x⟩ := p
    cases m with
    | nil => simp [Memory.wf]
    | cons q m =>
      obtain ⟨b, y⟩ := q
      simp only [Memory.wf, Bool.and_eq_true, decide_eq_true_eq, ih, List.pairwise_cons]
      constructor
      · rintro ⟨hab, hb, hm⟩
        refine ⟨?_, hb, hm⟩
        intro p hp
        rcases List.mem_cons.1 hp with rfl | hp
        · exact hab
        · exact lt_trans hab (hb p hp)
      · rintro ⟨ha, hb, hm⟩
        exact ⟨ha (b, y) (by simp), hb, hm⟩

theorem Memory.mem_write (m : Memory α) (i : Nat) (v : α) (p : Nat × α)
    (h : p ∈ Memory.write m i v) : p = (i, v) ∨ p ∈ m := by
  induction m with
  | nil => simpa [Memory.write] using h
  | cons q m ih =>
    obtain ⟨a, x⟩ := q
    unfold Memory.write at h
    split at h
    · simpa using h
    · split at h
      · rcases List.mem_cons.1 h with h | h <;> simp [h]
      · rcases List.mem_cons.1 h with h | h
        · simp [h]
        · rcases ih h with h | h <;> simp [h]

/-- A write keeps the canonical form. -/
theorem Memory.wf_write (m : Memory α) (i : Nat) (v : α) (h : Memory.wf m = true) :
    Memory.wf (Memory.write m i v) = true := by
  rw [Memory.wf_iff] at h ⊢
  induction m with
  | nil => simp [Memory.write]
  | cons q m ih =>
    obtain ⟨a, x⟩ := q
    rw [List.pairwise_cons] at h
    unfold Memory.write
    split
    · rename_i hi
      refine List.pairwise_cons.2 ⟨?_, List.pairwise_cons.2 h⟩
      intro p hp
      rcases List.mem_cons.1 hp with rfl | hp
      · exact hi
      · exact lt_trans hi (h.1 p hp)
    · split
      · rename_i hi
        exact List.pairwise_cons.2 ⟨fun p hp => hi ▸ h.1 p hp, h.2⟩
      · rename_i h1 h2
        refine List.pairwise_cons.2 ⟨?_, ih h.2⟩
        intro p hp
        rcases Memory.mem_write m i v p hp with rfl | hp
        · simp only; omega
        · exact h.1 p hp

/-- Writes one after another keep the canonical form. -/
theorem Memory.wf_writeAll (ws : List (Nat × α)) (m : Memory α) (h : Memory.wf m = true) :
    Memory.wf (Memory.writeAll m ws) = true := by
  induction ws generalizing m with
  | nil => exact h
  | cons w ws ih => exact ih _ (Memory.wf_write m w.1 w.2 h)

/-- An element that is not among the writes reads as before. -/
theorem Memory.read_writeAll_of_notMem (ws : List (Nat × α)) (m : Memory α) (i : Nat)
    (h : ∀ p ∈ ws, p.1 ≠ i) : Memory.read (Memory.writeAll m ws) i = Memory.read m i := by
  induction ws generalizing m with
  | nil => rfl
  | cons w ws ih =>
    obtain ⟨a, x⟩ := w
    simp only [Memory.writeAll]
    rw [ih _ (fun p hp => h p (List.mem_cons_of_mem _ hp)),
      Memory.read_write_ne m x (h (a, x) (by simp))]

/-- Writes to distinct elements: each element among them reads as its own value. -/
theorem Memory.read_writeAll_of_mem (ws : List (Nat × α)) (m : Memory α) (i : Nat) (v : α)
    (hmem : (i, v) ∈ ws) (hd : (ws.map Prod.fst).Nodup) :
    Memory.read (Memory.writeAll m ws) i = some v := by
  induction ws generalizing m with
  | nil => simp at hmem
  | cons w ws ih =>
    obtain ⟨a, x⟩ := w
    simp only [List.map_cons, List.nodup_cons] at hd
    simp only [Memory.writeAll]
    rcases List.mem_cons.1 hmem with h | h
    · obtain ⟨rfl, rfl⟩ := Prod.mk.inj h
      rw [Memory.read_writeAll_of_notMem]
      · simp
      · intro p hp e
        exact hd.1 (List.mem_map.2 ⟨p, hp, e⟩)
    · exact ih _ h hd.2

/-- `fetchElem` answers the element, or UNINIT_READ when it holds ⊥ (R65). -/
theorem fetchElem_eq_ok {id : MemId} {m : Memory α} {i : Nat} {v : α} :
    fetchElem id m i = .ok v ↔ m.read i = some v := by
  unfold fetchElem
  cases h : m.read i <;> simp

theorem fetchElem_eq_error {id : MemId} {m : Memory α} {i : Nat} {f : Fault} :
    fetchElem id m i = .error f ↔ m.read i = none ∧ f = .uninitRead id i := by
  unfold fetchElem
  cases h : m.read i <;> simp [eq_comm]

/-- `requireAll` succeeds exactly when every listed element holds a value. -/
theorem requireAll_eq_ok {id : MemId} {m : Memory α} {is : List Nat} :
    requireAll id m is = .ok () ↔ ∀ i ∈ is, ∃ v, m.read i = some v := by
  induction is with
  | nil => simp [requireAll]
  | cons i is ih =>
    simp only [requireAll, List.forall_mem_cons]
    cases h : m.read i <;> simp [ih]

/-- `requireAll` otherwise names an element of the list that holds ⊥. -/
theorem requireAll_eq_error {id : MemId} {m : Memory α} {is : List Nat} {f : Fault}
    (h : requireAll id m is = .error f) : ∃ i ∈ is, m.read i = none ∧ f = .uninitRead id i := by
  induction is with
  | nil => simp [requireAll] at h
  | cons i is ih =>
    simp only [requireAll] at h
    cases hr : m.read i with
    | none => rw [hr] at h; exact ⟨i, by simp, hr, by simpa using h.symm⟩
    | some v =>
      rw [hr] at h
      obtain ⟨j, hj, h⟩ := ih h
      exact ⟨j, List.mem_cons_of_mem _ hj, h⟩

/-- In canonical form, an element that every listed index exceeds is not listed. -/
theorem Memory.read_eq_none_of_lt {m : Memory α} {i : Nat} (h : ∀ p ∈ m, i < p.1) : m.read i = none := by
  induction m with
  | nil => rfl
  | cons p m ih =>
    obtain ⟨a, x⟩ := p
    have := h (a, x) (by simp)
    rw [Memory.read_cons, if_neg (by simp only at this; omega), ih fun q hq => h q (by simp [hq])]

/-- Memories in canonical form that read alike are equal data. -/
theorem Memory.eq_of_read_eq {m m' : Memory α} (hm : Memory.wf m = true) (hm' : Memory.wf m' = true)
    (h : ∀ i, m.read i = m'.read i) : m = m' := by
  rw [Memory.wf_iff] at hm hm'
  induction m generalizing m' with
  | nil =>
    cases m' with
    | nil => rfl
    | cons q m' => obtain ⟨b, y⟩ := q; have := h b; simp [Memory.read_cons] at this
  | cons p m ih =>
    obtain ⟨a, x⟩ := p
    cases m' with
    | nil => have := h a; simp [Memory.read_cons] at this
    | cons q m' =>
      obtain ⟨b, y⟩ := q
      simp only [List.pairwise_cons] at hm hm'
      have ha := h a
      have hb := h b
      simp only [Memory.read_cons, if_true] at ha hb
      have hab : a = b := by
        by_contra hne
        rcases Nat.lt_or_gt_of_ne hne with hlt | hlt
        · rw [if_neg (by omega), Memory.read_eq_none_of_lt fun p hp => hlt.trans (hm'.1 p hp)] at ha
          cases ha
        · rw [if_neg (by omega), Memory.read_eq_none_of_lt fun p hp => Nat.lt_trans hlt (hm.1 p hp)] at hb
          cases hb
      subst hab
      simp only [if_true, Option.some.injEq] at ha
      subst ha
      congr 1
      refine ih hm.2 hm'.2 fun i => ?_
      have hi := h i
      simp only [Memory.read_cons] at hi
      by_cases hia : a = i
      · subst hia
        rw [Memory.read_eq_none_of_lt fun p hp => hm.1 p hp, Memory.read_eq_none_of_lt fun p hp => hm'.1 p hp]
      · rwa [if_neg hia, if_neg hia] at hi

end Sys2Proof.Machine
end

