-- ==== Sys2Proof/Laws/Region.lean ====
section
/-! SUPPORT. The laws of plane regions: positions, what a region holds after a functional update, and
when a level of the transform runs. -/

namespace Sys2Proof.Machine

theorem mem_positions {rows cols r c : Nat} : (r, c) ∈ positions rows cols ↔ r < rows ∧ c < cols := by
  simp [positions]

theorem mem_positions' {rows cols : Nat} {rc : Nat × Nat} :
    rc ∈ positions rows cols ↔ rc.1 < rows ∧ rc.2 < cols := mem_positions

theorem length_positions (rows cols : Nat) : (positions rows cols).length = rows * cols := by
  simp [positions, List.length_flatMap]

theorem nodup_positions (rows cols : Nat) : (positions rows cols).Nodup := by
  unfold positions
  rw [List.nodup_flatMap]
  refine ⟨fun r _ => ?_, ?_⟩
  · exact (List.nodup_range).map fun a b h => (Prod.mk.inj h).2
  · refine (List.nodup_range (n := rows)).imp_of_mem ?_
    intro a b _ _ hab
    rw [Function.onFun, List.disjoint_left]
    intro p hp hq
    simp only [List.mem_map] at hp hq
    obtain ⟨_, _, rfl⟩ := hp
    obtain ⟨_, _, h⟩ := hq
    exact hab (Prod.mk.inj h).1.symm

theorem planeIndex_div {w : Nat} {rc : Nat × Nat} (h : rc.2 < w) : planeIndex w rc / w = rc.1 := by
  unfold planeIndex
  rw [Nat.add_comm, Nat.add_mul_div_right _ _ (by omega), Nat.div_eq_of_lt h, Nat.zero_add]

theorem planeIndex_mod {w : Nat} {rc : Nat × Nat} (h : rc.2 < w) : planeIndex w rc % w = rc.2 := by
  unfold planeIndex
  rw [Nat.add_comm, Nat.add_mul_mod_self_right, Nat.mod_eq_of_lt h]

theorem planeIndex_inj {w : Nat} {p q : Nat × Nat} (hp : p.2 < w) (hq : q.2 < w)
    (h : planeIndex w p = planeIndex w q) : p = q := by
  have h1 := planeIndex_div hp
  have h2 := planeIndex_mod hp
  rw [h, planeIndex_div hq] at h1
  rw [h, planeIndex_mod hq] at h2
  exact Prod.ext h1.symm h2.symm

theorem planeIndex_divMod (w i : Nat) : planeIndex w (i / w, i % w) = i := by
  simp only [planeIndex]
  exact Nat.div_add_mod' i w

/-- What the plane holds after a functional update of its top-left region (R110). -/
theorem read_writeRegion {w rows cols : Nat} (hw : cols ≤ w) (f : Nat → Nat → Word)
    (plane : Memory Word) (i : Nat) :
    (writeRegion w rows cols f plane).read i =
      if i / w < rows ∧ i % w < cols then some (f (i / w) (i % w)) else plane.read i := by
  unfold writeRegion
  split
  · rename_i h
    apply Memory.read_writeAll_of_mem
    · refine List.mem_map.2 ⟨(i / w, i % w), mem_positions.2 h, ?_⟩
      rw [planeIndex_divMod]
    · rw [List.map_map]
      refine List.Nodup.map_on ?_ (nodup_positions rows cols)
      intro p hp q hq e
      have hp := (mem_positions'.1 hp).2
      have hq := (mem_positions'.1 hq).2
      exact planeIndex_inj (by omega) (by omega) e
  · rename_i h
    apply Memory.read_writeAll_of_notMem
    intro p hp e
    obtain ⟨rc, hrc, rfl⟩ := List.mem_map.1 hp
    obtain ⟨h1, h2⟩ := mem_positions'.1 hrc
    have hlt : rc.2 < w := by omega
    subst e
    exact h ⟨by rw [planeIndex_div hlt]; exact h1, by rw [planeIndex_mod hlt]; exact h2⟩

theorem wf_writeRegion {w rows cols : Nat} (f : Nat → Nat → Word) {plane : Memory Word}
    (h : Memory.wf plane = true) : Memory.wf (writeRegion w rows cols f plane) = true :=
  Memory.wf_writeAll _ _ h

/-- What a memory holds after its elements below `n` were written. -/
theorem Memory.read_writeAll_range {α : Type} (m : Memory α) (n : Nat) (f : Nat → α) (i : Nat) :
    (m.writeAll ((List.range n).map fun j => (j, f j))).read i =
      if i < n then some (f i) else m.read i := by
  split
  · rename_i h
    apply Memory.read_writeAll_of_mem
    · exact List.mem_map.2 ⟨i, List.mem_range.2 h, rfl⟩
    · rw [List.map_map]
      exact (List.nodup_range).map fun a b h => h
  · rename_i h
    apply Memory.read_writeAll_of_notMem
    intro p hp e
    obtain ⟨j, hj, rfl⟩ := List.mem_map.1 hp
    exact h (e ▸ List.mem_range.1 hj)

theorem planeAt_eq {w : Nat} {plane : Memory Word} {r c : Nat} {v : Word}
    (h : plane.read (r * w + c) = some v) : planeAt w plane r c = v := by
  simp [planeAt, planeIndex, h]

/-- R172: a forward level runs exactly when every element of its region holds a value, and then it is
one functional update of the region. -/
theorem fwdLevel_eq_ok {w h c : Nat} {plane plane' : Memory Word} :
    fwdLevel w h c plane = .ok plane' ↔
      (∀ r < dimAt h c, ∀ k < dimAt w c, ∃ v, plane.read (r * w + k) = some v) ∧
      plane' = writeRegion w (dimAt h c) (dimAt w c)
        (fwdValue (dimAt w c / 2) (dimAt h c / 2) (planeAt w plane)) plane := by
  have key : requireAll .plane plane ((positions (dimAt h c) (dimAt w c)).map (planeIndex w)) = .ok () ↔
      (∀ r < dimAt h c, ∀ k < dimAt w c, ∃ v, plane.read (r * w + k) = some v) := by
    rw [requireAll_eq_ok]
    constructor
    · intro hall r hr k hk
      exact hall _ (List.mem_map.2 ⟨(r, k), mem_positions.2 ⟨hr, hk⟩, rfl⟩)
    · intro hall i hi
      obtain ⟨rc, hrc, rfl⟩ := List.mem_map.1 hi
      exact hall _ (mem_positions'.1 hrc).1 _ (mem_positions'.1 hrc).2
  unfold fwdLevel
  rw [← key]
  cases hr : requireAll .plane plane ((positions (dimAt h c) (dimAt w c)).map (planeIndex w)) with
  | error f => simp [hr]
  | ok u => cases u; simp [hr, eq_comm]

theorem mem_invReads {wk hk : Nat} {rc : Nat × Nat} :
    rc ∈ invReads wk hk ↔ rc.1 < 2 * hk ∧ rc.2 < 2 * wk := by
  obtain ⟨r, c⟩ := rc
  simp only [invReads, List.mem_flatMap, List.map_cons, List.map_nil, List.mem_cons, List.not_mem_nil,
    or_false]
  constructor
  · rintro ⟨ij, hij, h⟩
    obtain ⟨h1, h2⟩ := mem_positions'.1 hij
    rcases h with h | h | h | h <;> (simp only [subbandPos, Prod.mk.injEq] at h; omega)
  · rintro ⟨h1, h2⟩
    refine ⟨(if r < hk then r else r - hk, if c < wk then c else c - wk), ?_, ?_⟩
    · rw [mem_positions]; constructor <;> split <;> omega
    · simp only [subbandPos, Prod.mk.injEq]
      split <;> split <;> omega

/-- R176: an inverse level runs exactly when every element of its region holds a value, and then it is
one functional update of the region. -/
theorem invLevel_eq_ok {w h c : Nat} {plane plane' : Memory Word} :
    invLevel w h c plane = .ok plane' ↔
      (∀ r < 2 * dimAt h c, ∀ k < 2 * dimAt w c, ∃ v, plane.read (r * w + k) = some v) ∧
      plane' = writeRegion w (2 * dimAt h c) (2 * dimAt w c)
        (invValue (dimAt w c) (dimAt h c) (planeAt w plane)) plane := by
  have key : requireAll .plane plane ((invReads (dimAt w c) (dimAt h c)).map (planeIndex w)) = .ok () ↔
      (∀ r < 2 * dimAt h c, ∀ k < 2 * dimAt w c, ∃ v, plane.read (r * w + k) = some v) := by
    rw [requireAll_eq_ok]
    constructor
    · intro hall r hr k hk
      exact hall _ (List.mem_map.2 ⟨(r, k), mem_invReads.2 ⟨hr, hk⟩, rfl⟩)
    · intro hall i hi
      obtain ⟨rc, hrc, rfl⟩ := List.mem_map.1 hi
      exact hall _ (mem_invReads.1 hrc).1 _ (mem_invReads.1 hrc).2
  unfold invLevel
  rw [← key]
  cases hr : requireAll .plane plane ((invReads (dimAt w c) (dimAt h c)).map (planeIndex w)) with
  | error f => simp [hr]
  | ok u => cases u; simp [hr, eq_comm]

/-- A level that does not run names an element of the plane that holds ⊥ (R65). -/
theorem fwdLevel_eq_error {w h c : Nat} {plane : Memory Word} {f : Fault}
    (hf : fwdLevel w h c plane = .error f) : ∃ i, plane.read i = none ∧ f = .uninitRead .plane i := by
  simp only [fwdLevel] at hf
  split at hf
  · rename_i e he
    cases hf
    obtain ⟨i, _, h⟩ := requireAll_eq_error he
    exact ⟨i, h⟩
  · simp at hf

theorem invLevel_eq_error {w h c : Nat} {plane : Memory Word} {f : Fault}
    (hf : invLevel w h c plane = .error f) : ∃ i, plane.read i = none ∧ f = .uninitRead .plane i := by
  simp only [invLevel] at hf
  split at hf
  · rename_i e he
    cases hf
    obtain ⟨i, _, h⟩ := requireAll_eq_error he
    exact ⟨i, h⟩
  · simp at hf

/-- The canonical form is kept by a level. -/
theorem wf_fwdLevel {w h c : Nat} {plane plane' : Memory Word} (hw : Memory.wf plane = true)
    (hk : fwdLevel w h c plane = .ok plane') : Memory.wf plane' = true := by
  obtain ⟨_, rfl⟩ := fwdLevel_eq_ok.1 hk
  exact wf_writeRegion _ hw

theorem wf_invLevel {w h c : Nat} {plane plane' : Memory Word} (hw : Memory.wf plane = true)
    (hk : invLevel w h c plane = .ok plane') : Memory.wf plane' = true := by
  obtain ⟨_, rfl⟩ := invLevel_eq_ok.1 hk
  exact wf_writeRegion _ hw

end Sys2Proof.Machine
end

