-- ==== Sys2Proof/Laws/State.lean ====
section
/-! SUPPORT. What every named update of State does to every field, one lemma a field, so that no proof
unfolds a record update. -/

namespace Sys2Proof.Machine

variable (s : State)

/-! R53: the accept step. -/

@[simp] theorem State.accept_params (d : Word) : (s.accept d).params = s.params := rfl
@[simp] theorem State.accept_ieDone (d : Word) : (s.accept d).ieDone = s.ieDone := rfl
@[simp] theorem State.accept_ieErr (d : Word) : (s.accept d).ieErr = s.ieErr := rfl
@[simp] theorem State.accept_cmd (d : Word) : (s.accept d).cmd = d := rfl
@[simp] theorem State.accept_busy (d : Word) : (s.accept d).busy = true := rfl
@[simp] theorem State.accept_done (d : Word) : (s.accept d).done = false := rfl
@[simp] theorem State.accept_errv (d : Word) : (s.accept d).errv = false := rfl
@[simp] theorem State.accept_qclamp (d : Word) : (s.accept d).qclamp = s.qclamp := rfl
@[simp] theorem State.accept_oclamp (d : Word) : (s.accept d).oclamp = s.oclamp := rfl
@[simp] theorem State.accept_vtrunc (d : Word) : (s.accept d).vtrunc = s.vtrunc := rfl
@[simp] theorem State.accept_errcode (d : Word) : (s.accept d).errcode = 0 := rfl
@[simp] theorem State.accept_width (d : Word) : (s.accept d).width = s.width := rfl
@[simp] theorem State.accept_height (d : Word) : (s.accept d).height = s.height := rfl
@[simp] theorem State.accept_levels (d : Word) : (s.accept d).levels = s.levels := rfl
@[simp] theorem State.accept_curLevel (d : Word) : (s.accept d).curLevel = s.curLevel := rfl
@[simp] theorem State.accept_streamLen (d : Word) : (s.accept d).streamLen = s.streamLen := rfl
@[simp] theorem State.accept_wptr (d : Word) : (s.accept d).wptr = s.wptr := rfl
@[simp] theorem State.accept_wbuf (d : Word) : (s.accept d).wbuf = s.wbuf := rfl
@[simp] theorem State.accept_wfree (d : Word) : (s.accept d).wfree = s.wfree := rfl
@[simp] theorem State.accept_rptr (d : Word) : (s.accept d).rptr = s.rptr := rfl
@[simp] theorem State.accept_rbuf (d : Word) : (s.accept d).rbuf = s.rbuf := rfl
@[simp] theorem State.accept_ravail (d : Word) : (s.accept d).ravail = s.ravail := rfl
@[simp] theorem State.accept_pullData (d : Word) : (s.accept d).pullData = s.pullData := rfl
@[simp] theorem State.accept_qCoef (d : Word) : (s.accept d).qCoef = s.qCoef := rfl
@[simp] theorem State.accept_qIndex (d : Word) : (s.accept d).qIndex = s.qIndex := rfl
@[simp] theorem State.accept_pend (d : Word) : (s.accept d).pend = d := rfl
@[simp] theorem State.accept_image (d : Word) : (s.accept d).image = s.image := rfl
@[simp] theorem State.accept_plane (d : Word) : (s.accept d).plane = s.plane := rfl
@[simp] theorem State.accept_stream (d : Word) : (s.accept d).stream = s.stream := rfl
@[simp] theorem State.accept_env (d : Word) : (s.accept d).env = s.env := rfl
@[simp] theorem State.accept_replies (d : Word) : (s.accept d).replies = s.replies := rfl

/-! R54: completion. -/

@[simp] theorem State.complete_params : (s.complete).params = s.params := rfl
@[simp] theorem State.complete_ieDone : (s.complete).ieDone = s.ieDone := rfl
@[simp] theorem State.complete_ieErr : (s.complete).ieErr = s.ieErr := rfl
@[simp] theorem State.complete_cmd : (s.complete).cmd = s.cmd := rfl
@[simp] theorem State.complete_busy : (s.complete).busy = false := rfl
@[simp] theorem State.complete_done : (s.complete).done = true := rfl
@[simp] theorem State.complete_errv : (s.complete).errv = s.errv := rfl
@[simp] theorem State.complete_qclamp : (s.complete).qclamp = s.qclamp := rfl
@[simp] theorem State.complete_oclamp : (s.complete).oclamp = s.oclamp := rfl
@[simp] theorem State.complete_vtrunc : (s.complete).vtrunc = s.vtrunc := rfl
@[simp] theorem State.complete_errcode : (s.complete).errcode = s.errcode := rfl
@[simp] theorem State.complete_width : (s.complete).width = s.width := rfl
@[simp] theorem State.complete_height : (s.complete).height = s.height := rfl
@[simp] theorem State.complete_levels : (s.complete).levels = s.levels := rfl
@[simp] theorem State.complete_curLevel : (s.complete).curLevel = s.curLevel := rfl
@[simp] theorem State.complete_streamLen : (s.complete).streamLen = s.streamLen := rfl
@[simp] theorem State.complete_wptr : (s.complete).wptr = s.wptr := rfl
@[simp] theorem State.complete_wbuf : (s.complete).wbuf = s.wbuf := rfl
@[simp] theorem State.complete_wfree : (s.complete).wfree = s.wfree := rfl
@[simp] theorem State.complete_rptr : (s.complete).rptr = s.rptr := rfl
@[simp] theorem State.complete_rbuf : (s.complete).rbuf = s.rbuf := rfl
@[simp] theorem State.complete_ravail : (s.complete).ravail = s.ravail := rfl
@[simp] theorem State.complete_pullData : (s.complete).pullData = s.pullData := rfl
@[simp] theorem State.complete_qCoef : (s.complete).qCoef = s.qCoef := rfl
@[simp] theorem State.complete_qIndex : (s.complete).qIndex = s.qIndex := rfl
@[simp] theorem State.complete_pend : (s.complete).pend = s.pend := rfl
@[simp] theorem State.complete_image : (s.complete).image = s.image := rfl
@[simp] theorem State.complete_plane : (s.complete).plane = s.plane := rfl
@[simp] theorem State.complete_stream : (s.complete).stream = s.stream := rfl
@[simp] theorem State.complete_env : (s.complete).env = s.env := rfl
@[simp] theorem State.complete_replies : (s.complete).replies = s.replies := rfl

/-! R332: the error outcome. -/

@[simp] theorem State.raiseError_params (e : CmdError) : (s.raiseError e).params = s.params := rfl
@[simp] theorem State.raiseError_ieDone (e : CmdError) : (s.raiseError e).ieDone = s.ieDone := rfl
@[simp] theorem State.raiseError_ieErr (e : CmdError) : (s.raiseError e).ieErr = s.ieErr := rfl
@[simp] theorem State.raiseError_cmd (e : CmdError) : (s.raiseError e).cmd = s.cmd := rfl
@[simp] theorem State.raiseError_busy (e : CmdError) : (s.raiseError e).busy = false := rfl
@[simp] theorem State.raiseError_done (e : CmdError) : (s.raiseError e).done = true := rfl
@[simp] theorem State.raiseError_errv (e : CmdError) : (s.raiseError e).errv = true := rfl
@[simp] theorem State.raiseError_qclamp (e : CmdError) : (s.raiseError e).qclamp = s.qclamp := rfl
@[simp] theorem State.raiseError_oclamp (e : CmdError) : (s.raiseError e).oclamp = s.oclamp := rfl
@[simp] theorem State.raiseError_vtrunc (e : CmdError) : (s.raiseError e).vtrunc = s.vtrunc := rfl
@[simp] theorem State.raiseError_errcode (e : CmdError) : (s.raiseError e).errcode = e.code := rfl
@[simp] theorem State.raiseError_width (e : CmdError) : (s.raiseError e).width = s.width := rfl
@[simp] theorem State.raiseError_height (e : CmdError) : (s.raiseError e).height = s.height := rfl
@[simp] theorem State.raiseError_levels (e : CmdError) : (s.raiseError e).levels = s.levels := rfl
@[simp] theorem State.raiseError_curLevel (e : CmdError) : (s.raiseError e).curLevel = s.curLevel := rfl
@[simp] theorem State.raiseError_streamLen (e : CmdError) : (s.raiseError e).streamLen = s.streamLen := rfl
@[simp] theorem State.raiseError_wptr (e : CmdError) : (s.raiseError e).wptr = s.wptr := rfl
@[simp] theorem State.raiseError_wbuf (e : CmdError) : (s.raiseError e).wbuf = s.wbuf := rfl
@[simp] theorem State.raiseError_wfree (e : CmdError) : (s.raiseError e).wfree = s.wfree := rfl
@[simp] theorem State.raiseError_rptr (e : CmdError) : (s.raiseError e).rptr = s.rptr := rfl
@[simp] theorem State.raiseError_rbuf (e : CmdError) : (s.raiseError e).rbuf = s.rbuf := rfl
@[simp] theorem State.raiseError_ravail (e : CmdError) : (s.raiseError e).ravail = s.ravail := rfl
@[simp] theorem State.raiseError_pullData (e : CmdError) : (s.raiseError e).pullData = s.pullData := rfl
@[simp] theorem State.raiseError_qCoef (e : CmdError) : (s.raiseError e).qCoef = s.qCoef := rfl
@[simp] theorem State.raiseError_qIndex (e : CmdError) : (s.raiseError e).qIndex = s.qIndex := rfl
@[simp] theorem State.raiseError_pend (e : CmdError) : (s.raiseError e).pend = s.pend := rfl
@[simp] theorem State.raiseError_image (e : CmdError) : (s.raiseError e).image = s.image := rfl
@[simp] theorem State.raiseError_plane (e : CmdError) : (s.raiseError e).plane = s.plane := rfl
@[simp] theorem State.raiseError_stream (e : CmdError) : (s.raiseError e).stream = s.stream := rfl
@[simp] theorem State.raiseError_env (e : CmdError) : (s.raiseError e).env = s.env := rfl
@[simp] theorem State.raiseError_replies (e : CmdError) : (s.raiseError e).replies = s.replies := rfl

/-! R36, R341: the host's acknowledgement. -/

@[simp] theorem State.acknowledge_params (d : Word) : (s.acknowledge d).params = s.params := rfl
@[simp] theorem State.acknowledge_ieDone (d : Word) : (s.acknowledge d).ieDone = s.ieDone := rfl
@[simp] theorem State.acknowledge_ieErr (d : Word) : (s.acknowledge d).ieErr = s.ieErr := rfl
@[simp] theorem State.acknowledge_cmd (d : Word) : (s.acknowledge d).cmd = s.cmd := rfl
@[simp] theorem State.acknowledge_busy (d : Word) : (s.acknowledge d).busy = s.busy := rfl
@[simp] theorem State.acknowledge_done (d : Word) : (s.acknowledge d).done = (s.done && !d.getLsbD 1) := rfl
@[simp] theorem State.acknowledge_errv (d : Word) : (s.acknowledge d).errv = (s.errv && !d.getLsbD 2) := rfl
@[simp] theorem State.acknowledge_qclamp (d : Word) : (s.acknowledge d).qclamp = (s.qclamp && !d.getLsbD 3) := rfl
@[simp] theorem State.acknowledge_oclamp (d : Word) : (s.acknowledge d).oclamp = (s.oclamp && !d.getLsbD 4) := rfl
@[simp] theorem State.acknowledge_vtrunc (d : Word) : (s.acknowledge d).vtrunc = (s.vtrunc && !d.getLsbD 5) := rfl
@[simp] theorem State.acknowledge_errcode (d : Word) : (s.acknowledge d).errcode = (if d.getLsbD 2 then 0 else s.errcode) := rfl
@[simp] theorem State.acknowledge_width (d : Word) : (s.acknowledge d).width = s.width := rfl
@[simp] theorem State.acknowledge_height (d : Word) : (s.acknowledge d).height = s.height := rfl
@[simp] theorem State.acknowledge_levels (d : Word) : (s.acknowledge d).levels = s.levels := rfl
@[simp] theorem State.acknowledge_curLevel (d : Word) : (s.acknowledge d).curLevel = s.curLevel := rfl
@[simp] theorem State.acknowledge_streamLen (d : Word) : (s.acknowledge d).streamLen = s.streamLen := rfl
@[simp] theorem State.acknowledge_wptr (d : Word) : (s.acknowledge d).wptr = s.wptr := rfl
@[simp] theorem State.acknowledge_wbuf (d : Word) : (s.acknowledge d).wbuf = s.wbuf := rfl
@[simp] theorem State.acknowledge_wfree (d : Word) : (s.acknowledge d).wfree = s.wfree := rfl
@[simp] theorem State.acknowledge_rptr (d : Word) : (s.acknowledge d).rptr = s.rptr := rfl
@[simp] theorem State.acknowledge_rbuf (d : Word) : (s.acknowledge d).rbuf = s.rbuf := rfl
@[simp] theorem State.acknowledge_ravail (d : Word) : (s.acknowledge d).ravail = s.ravail := rfl
@[simp] theorem State.acknowledge_pullData (d : Word) : (s.acknowledge d).pullData = s.pullData := rfl
@[simp] theorem State.acknowledge_qCoef (d : Word) : (s.acknowledge d).qCoef = s.qCoef := rfl
@[simp] theorem State.acknowledge_qIndex (d : Word) : (s.acknowledge d).qIndex = s.qIndex := rfl
@[simp] theorem State.acknowledge_pend (d : Word) : (s.acknowledge d).pend = s.pend := rfl
@[simp] theorem State.acknowledge_image (d : Word) : (s.acknowledge d).image = s.image := rfl
@[simp] theorem State.acknowledge_plane (d : Word) : (s.acknowledge d).plane = s.plane := rfl
@[simp] theorem State.acknowledge_stream (d : Word) : (s.acknowledge d).stream = s.stream := rfl
@[simp] theorem State.acknowledge_env (d : Word) : (s.acknowledge d).env = s.env := rfl
@[simp] theorem State.acknowledge_replies (d : Word) : (s.acknowledge d).replies = s.replies := rfl

/-! R370: hardware reset. -/

@[simp] theorem State.hardwareReset_params : (s.hardwareReset).params = s.params := rfl
@[simp] theorem State.hardwareReset_ieDone : (s.hardwareReset).ieDone = false := rfl
@[simp] theorem State.hardwareReset_ieErr : (s.hardwareReset).ieErr = false := rfl
@[simp] theorem State.hardwareReset_cmd : (s.hardwareReset).cmd = 0x00000000 := rfl
@[simp] theorem State.hardwareReset_busy : (s.hardwareReset).busy = false := rfl
@[simp] theorem State.hardwareReset_done : (s.hardwareReset).done = false := rfl
@[simp] theorem State.hardwareReset_errv : (s.hardwareReset).errv = false := rfl
@[simp] theorem State.hardwareReset_qclamp : (s.hardwareReset).qclamp = false := rfl
@[simp] theorem State.hardwareReset_oclamp : (s.hardwareReset).oclamp = false := rfl
@[simp] theorem State.hardwareReset_vtrunc : (s.hardwareReset).vtrunc = false := rfl
@[simp] theorem State.hardwareReset_errcode : (s.hardwareReset).errcode = 0 := rfl
@[simp] theorem State.hardwareReset_width : (s.hardwareReset).width = 0 := rfl
@[simp] theorem State.hardwareReset_height : (s.hardwareReset).height = 0 := rfl
@[simp] theorem State.hardwareReset_levels : (s.hardwareReset).levels = 0 := rfl
@[simp] theorem State.hardwareReset_curLevel : (s.hardwareReset).curLevel = 0 := rfl
@[simp] theorem State.hardwareReset_streamLen : (s.hardwareReset).streamLen = 0x00000000 := rfl
@[simp] theorem State.hardwareReset_wptr : (s.hardwareReset).wptr = 0x00000000 := rfl
@[simp] theorem State.hardwareReset_wbuf : (s.hardwareReset).wbuf = 0x00 := rfl
@[simp] theorem State.hardwareReset_wfree : (s.hardwareReset).wfree = 8 := rfl
@[simp] theorem State.hardwareReset_rptr : (s.hardwareReset).rptr = 0x00000000 := rfl
@[simp] theorem State.hardwareReset_rbuf : (s.hardwareReset).rbuf = 0x00 := rfl
@[simp] theorem State.hardwareReset_ravail : (s.hardwareReset).ravail = 0 := rfl
@[simp] theorem State.hardwareReset_pullData : (s.hardwareReset).pullData = 0x00 := rfl
@[simp] theorem State.hardwareReset_qCoef : (s.hardwareReset).qCoef = 0x00000000 := rfl
@[simp] theorem State.hardwareReset_qIndex : (s.hardwareReset).qIndex = 0x00 := rfl
@[simp] theorem State.hardwareReset_pend : (s.hardwareReset).pend = 0x00000000 := rfl
@[simp] theorem State.hardwareReset_image : (s.hardwareReset).image = [] := rfl
@[simp] theorem State.hardwareReset_plane : (s.hardwareReset).plane = [] := rfl
@[simp] theorem State.hardwareReset_stream : (s.hardwareReset).stream = [] := rfl
@[simp] theorem State.hardwareReset_env : (s.hardwareReset).env = s.env := rfl
@[simp] theorem State.hardwareReset_replies : (s.hardwareReset).replies = s.replies := rfl

/-! R372: soft reset. -/

@[simp] theorem State.softReset_params : (s.softReset).params = s.params := rfl
@[simp] theorem State.softReset_ieDone : (s.softReset).ieDone = false := rfl
@[simp] theorem State.softReset_ieErr : (s.softReset).ieErr = false := rfl
@[simp] theorem State.softReset_cmd : (s.softReset).cmd = 0x00000000 := rfl
@[simp] theorem State.softReset_busy : (s.softReset).busy = false := rfl
@[simp] theorem State.softReset_done : (s.softReset).done = false := rfl
@[simp] theorem State.softReset_errv : (s.softReset).errv = false := rfl
@[simp] theorem State.softReset_qclamp : (s.softReset).qclamp = false := rfl
@[simp] theorem State.softReset_oclamp : (s.softReset).oclamp = false := rfl
@[simp] theorem State.softReset_vtrunc : (s.softReset).vtrunc = false := rfl
@[simp] theorem State.softReset_errcode : (s.softReset).errcode = 0 := rfl
@[simp] theorem State.softReset_width : (s.softReset).width = 0 := rfl
@[simp] theorem State.softReset_height : (s.softReset).height = 0 := rfl
@[simp] theorem State.softReset_levels : (s.softReset).levels = 0 := rfl
@[simp] theorem State.softReset_curLevel : (s.softReset).curLevel = 0 := rfl
@[simp] theorem State.softReset_streamLen : (s.softReset).streamLen = 0x00000000 := rfl
@[simp] theorem State.softReset_wptr : (s.softReset).wptr = 0x00000000 := rfl
@[simp] theorem State.softReset_wbuf : (s.softReset).wbuf = 0x00 := rfl
@[simp] theorem State.softReset_wfree : (s.softReset).wfree = 8 := rfl
@[simp] theorem State.softReset_rptr : (s.softReset).rptr = 0x00000000 := rfl
@[simp] theorem State.softReset_rbuf : (s.softReset).rbuf = 0x00 := rfl
@[simp] theorem State.softReset_ravail : (s.softReset).ravail = 0 := rfl
@[simp] theorem State.softReset_pullData : (s.softReset).pullData = 0x00 := rfl
@[simp] theorem State.softReset_qCoef : (s.softReset).qCoef = 0x00000000 := rfl
@[simp] theorem State.softReset_qIndex : (s.softReset).qIndex = 0x00 := rfl
@[simp] theorem State.softReset_pend : (s.softReset).pend = 0x00000000 := rfl
@[simp] theorem State.softReset_image : (s.softReset).image = s.image := rfl
@[simp] theorem State.softReset_plane : (s.softReset).plane = s.plane := rfl
@[simp] theorem State.softReset_stream : (s.softReset).stream = s.stream := rfl
@[simp] theorem State.softReset_env : (s.softReset).env = s.env := rfl
@[simp] theorem State.softReset_replies : (s.softReset).replies = s.replies := rfl

/-! R36: QCLAMP. -/

@[simp] theorem State.stickQclamp_params (b : Bool) : (s.stickQclamp b).params = s.params := rfl
@[simp] theorem State.stickQclamp_ieDone (b : Bool) : (s.stickQclamp b).ieDone = s.ieDone := rfl
@[simp] theorem State.stickQclamp_ieErr (b : Bool) : (s.stickQclamp b).ieErr = s.ieErr := rfl
@[simp] theorem State.stickQclamp_cmd (b : Bool) : (s.stickQclamp b).cmd = s.cmd := rfl
@[simp] theorem State.stickQclamp_busy (b : Bool) : (s.stickQclamp b).busy = s.busy := rfl
@[simp] theorem State.stickQclamp_done (b : Bool) : (s.stickQclamp b).done = s.done := rfl
@[simp] theorem State.stickQclamp_errv (b : Bool) : (s.stickQclamp b).errv = s.errv := rfl
@[simp] theorem State.stickQclamp_qclamp (b : Bool) : (s.stickQclamp b).qclamp = (s.qclamp || b) := rfl
@[simp] theorem State.stickQclamp_oclamp (b : Bool) : (s.stickQclamp b).oclamp = s.oclamp := rfl
@[simp] theorem State.stickQclamp_vtrunc (b : Bool) : (s.stickQclamp b).vtrunc = s.vtrunc := rfl
@[simp] theorem State.stickQclamp_errcode (b : Bool) : (s.stickQclamp b).errcode = s.errcode := rfl
@[simp] theorem State.stickQclamp_width (b : Bool) : (s.stickQclamp b).width = s.width := rfl
@[simp] theorem State.stickQclamp_height (b : Bool) : (s.stickQclamp b).height = s.height := rfl
@[simp] theorem State.stickQclamp_levels (b : Bool) : (s.stickQclamp b).levels = s.levels := rfl
@[simp] theorem State.stickQclamp_curLevel (b : Bool) : (s.stickQclamp b).curLevel = s.curLevel := rfl
@[simp] theorem State.stickQclamp_streamLen (b : Bool) : (s.stickQclamp b).streamLen = s.streamLen := rfl
@[simp] theorem State.stickQclamp_wptr (b : Bool) : (s.stickQclamp b).wptr = s.wptr := rfl
@[simp] theorem State.stickQclamp_wbuf (b : Bool) : (s.stickQclamp b).wbuf = s.wbuf := rfl
@[simp] theorem State.stickQclamp_wfree (b : Bool) : (s.stickQclamp b).wfree = s.wfree := rfl
@[simp] theorem State.stickQclamp_rptr (b : Bool) : (s.stickQclamp b).rptr = s.rptr := rfl
@[simp] theorem State.stickQclamp_rbuf (b : Bool) : (s.stickQclamp b).rbuf = s.rbuf := rfl
@[simp] theorem State.stickQclamp_ravail (b : Bool) : (s.stickQclamp b).ravail = s.ravail := rfl
@[simp] theorem State.stickQclamp_pullData (b : Bool) : (s.stickQclamp b).pullData = s.pullData := rfl
@[simp] theorem State.stickQclamp_qCoef (b : Bool) : (s.stickQclamp b).qCoef = s.qCoef := rfl
@[simp] theorem State.stickQclamp_qIndex (b : Bool) : (s.stickQclamp b).qIndex = s.qIndex := rfl
@[simp] theorem State.stickQclamp_pend (b : Bool) : (s.stickQclamp b).pend = s.pend := rfl
@[simp] theorem State.stickQclamp_image (b : Bool) : (s.stickQclamp b).image = s.image := rfl
@[simp] theorem State.stickQclamp_plane (b : Bool) : (s.stickQclamp b).plane = s.plane := rfl
@[simp] theorem State.stickQclamp_stream (b : Bool) : (s.stickQclamp b).stream = s.stream := rfl
@[simp] theorem State.stickQclamp_env (b : Bool) : (s.stickQclamp b).env = s.env := rfl
@[simp] theorem State.stickQclamp_replies (b : Bool) : (s.stickQclamp b).replies = s.replies := rfl

/-! R36: OCLAMP. -/

@[simp] theorem State.stickOclamp_params (b : Bool) : (s.stickOclamp b).params = s.params := rfl
@[simp] theorem State.stickOclamp_ieDone (b : Bool) : (s.stickOclamp b).ieDone = s.ieDone := rfl
@[simp] theorem State.stickOclamp_ieErr (b : Bool) : (s.stickOclamp b).ieErr = s.ieErr := rfl
@[simp] theorem State.stickOclamp_cmd (b : Bool) : (s.stickOclamp b).cmd = s.cmd := rfl
@[simp] theorem State.stickOclamp_busy (b : Bool) : (s.stickOclamp b).busy = s.busy := rfl
@[simp] theorem State.stickOclamp_done (b : Bool) : (s.stickOclamp b).done = s.done := rfl
@[simp] theorem State.stickOclamp_errv (b : Bool) : (s.stickOclamp b).errv = s.errv := rfl
@[simp] theorem State.stickOclamp_qclamp (b : Bool) : (s.stickOclamp b).qclamp = s.qclamp := rfl
@[simp] theorem State.stickOclamp_oclamp (b : Bool) : (s.stickOclamp b).oclamp = (s.oclamp || b) := rfl
@[simp] theorem State.stickOclamp_vtrunc (b : Bool) : (s.stickOclamp b).vtrunc = s.vtrunc := rfl
@[simp] theorem State.stickOclamp_errcode (b : Bool) : (s.stickOclamp b).errcode = s.errcode := rfl
@[simp] theorem State.stickOclamp_width (b : Bool) : (s.stickOclamp b).width = s.width := rfl
@[simp] theorem State.stickOclamp_height (b : Bool) : (s.stickOclamp b).height = s.height := rfl
@[simp] theorem State.stickOclamp_levels (b : Bool) : (s.stickOclamp b).levels = s.levels := rfl
@[simp] theorem State.stickOclamp_curLevel (b : Bool) : (s.stickOclamp b).curLevel = s.curLevel := rfl
@[simp] theorem State.stickOclamp_streamLen (b : Bool) : (s.stickOclamp b).streamLen = s.streamLen := rfl
@[simp] theorem State.stickOclamp_wptr (b : Bool) : (s.stickOclamp b).wptr = s.wptr := rfl
@[simp] theorem State.stickOclamp_wbuf (b : Bool) : (s.stickOclamp b).wbuf = s.wbuf := rfl
@[simp] theorem State.stickOclamp_wfree (b : Bool) : (s.stickOclamp b).wfree = s.wfree := rfl
@[simp] theorem State.stickOclamp_rptr (b : Bool) : (s.stickOclamp b).rptr = s.rptr := rfl
@[simp] theorem State.stickOclamp_rbuf (b : Bool) : (s.stickOclamp b).rbuf = s.rbuf := rfl
@[simp] theorem State.stickOclamp_ravail (b : Bool) : (s.stickOclamp b).ravail = s.ravail := rfl
@[simp] theorem State.stickOclamp_pullData (b : Bool) : (s.stickOclamp b).pullData = s.pullData := rfl
@[simp] theorem State.stickOclamp_qCoef (b : Bool) : (s.stickOclamp b).qCoef = s.qCoef := rfl
@[simp] theorem State.stickOclamp_qIndex (b : Bool) : (s.stickOclamp b).qIndex = s.qIndex := rfl
@[simp] theorem State.stickOclamp_pend (b : Bool) : (s.stickOclamp b).pend = s.pend := rfl
@[simp] theorem State.stickOclamp_image (b : Bool) : (s.stickOclamp b).image = s.image := rfl
@[simp] theorem State.stickOclamp_plane (b : Bool) : (s.stickOclamp b).plane = s.plane := rfl
@[simp] theorem State.stickOclamp_stream (b : Bool) : (s.stickOclamp b).stream = s.stream := rfl
@[simp] theorem State.stickOclamp_env (b : Bool) : (s.stickOclamp b).env = s.env := rfl
@[simp] theorem State.stickOclamp_replies (b : Bool) : (s.stickOclamp b).replies = s.replies := rfl

/-! R36: VTRUNC. -/

@[simp] theorem State.stickVtrunc_params (b : Bool) : (s.stickVtrunc b).params = s.params := rfl
@[simp] theorem State.stickVtrunc_ieDone (b : Bool) : (s.stickVtrunc b).ieDone = s.ieDone := rfl
@[simp] theorem State.stickVtrunc_ieErr (b : Bool) : (s.stickVtrunc b).ieErr = s.ieErr := rfl
@[simp] theorem State.stickVtrunc_cmd (b : Bool) : (s.stickVtrunc b).cmd = s.cmd := rfl
@[simp] theorem State.stickVtrunc_busy (b : Bool) : (s.stickVtrunc b).busy = s.busy := rfl
@[simp] theorem State.stickVtrunc_done (b : Bool) : (s.stickVtrunc b).done = s.done := rfl
@[simp] theorem State.stickVtrunc_errv (b : Bool) : (s.stickVtrunc b).errv = s.errv := rfl
@[simp] theorem State.stickVtrunc_qclamp (b : Bool) : (s.stickVtrunc b).qclamp = s.qclamp := rfl
@[simp] theorem State.stickVtrunc_oclamp (b : Bool) : (s.stickVtrunc b).oclamp = s.oclamp := rfl
@[simp] theorem State.stickVtrunc_vtrunc (b : Bool) : (s.stickVtrunc b).vtrunc = (s.vtrunc || b) := rfl
@[simp] theorem State.stickVtrunc_errcode (b : Bool) : (s.stickVtrunc b).errcode = s.errcode := rfl
@[simp] theorem State.stickVtrunc_width (b : Bool) : (s.stickVtrunc b).width = s.width := rfl
@[simp] theorem State.stickVtrunc_height (b : Bool) : (s.stickVtrunc b).height = s.height := rfl
@[simp] theorem State.stickVtrunc_levels (b : Bool) : (s.stickVtrunc b).levels = s.levels := rfl
@[simp] theorem State.stickVtrunc_curLevel (b : Bool) : (s.stickVtrunc b).curLevel = s.curLevel := rfl
@[simp] theorem State.stickVtrunc_streamLen (b : Bool) : (s.stickVtrunc b).streamLen = s.streamLen := rfl
@[simp] theorem State.stickVtrunc_wptr (b : Bool) : (s.stickVtrunc b).wptr = s.wptr := rfl
@[simp] theorem State.stickVtrunc_wbuf (b : Bool) : (s.stickVtrunc b).wbuf = s.wbuf := rfl
@[simp] theorem State.stickVtrunc_wfree (b : Bool) : (s.stickVtrunc b).wfree = s.wfree := rfl
@[simp] theorem State.stickVtrunc_rptr (b : Bool) : (s.stickVtrunc b).rptr = s.rptr := rfl
@[simp] theorem State.stickVtrunc_rbuf (b : Bool) : (s.stickVtrunc b).rbuf = s.rbuf := rfl
@[simp] theorem State.stickVtrunc_ravail (b : Bool) : (s.stickVtrunc b).ravail = s.ravail := rfl
@[simp] theorem State.stickVtrunc_pullData (b : Bool) : (s.stickVtrunc b).pullData = s.pullData := rfl
@[simp] theorem State.stickVtrunc_qCoef (b : Bool) : (s.stickVtrunc b).qCoef = s.qCoef := rfl
@[simp] theorem State.stickVtrunc_qIndex (b : Bool) : (s.stickVtrunc b).qIndex = s.qIndex := rfl
@[simp] theorem State.stickVtrunc_pend (b : Bool) : (s.stickVtrunc b).pend = s.pend := rfl
@[simp] theorem State.stickVtrunc_image (b : Bool) : (s.stickVtrunc b).image = s.image := rfl
@[simp] theorem State.stickVtrunc_plane (b : Bool) : (s.stickVtrunc b).plane = s.plane := rfl
@[simp] theorem State.stickVtrunc_stream (b : Bool) : (s.stickVtrunc b).stream = s.stream := rfl
@[simp] theorem State.stickVtrunc_env (b : Bool) : (s.stickVtrunc b).env = s.env := rfl
@[simp] theorem State.stickVtrunc_replies (b : Bool) : (s.stickVtrunc b).replies = s.replies := rfl

/-! R240: another packer. -/

@[simp] theorem State.withPacker_params (p : Packer) : (s.withPacker p).params = s.params := rfl
@[simp] theorem State.withPacker_ieDone (p : Packer) : (s.withPacker p).ieDone = s.ieDone := rfl
@[simp] theorem State.withPacker_ieErr (p : Packer) : (s.withPacker p).ieErr = s.ieErr := rfl
@[simp] theorem State.withPacker_cmd (p : Packer) : (s.withPacker p).cmd = s.cmd := rfl
@[simp] theorem State.withPacker_busy (p : Packer) : (s.withPacker p).busy = s.busy := rfl
@[simp] theorem State.withPacker_done (p : Packer) : (s.withPacker p).done = s.done := rfl
@[simp] theorem State.withPacker_errv (p : Packer) : (s.withPacker p).errv = s.errv := rfl
@[simp] theorem State.withPacker_qclamp (p : Packer) : (s.withPacker p).qclamp = s.qclamp := rfl
@[simp] theorem State.withPacker_oclamp (p : Packer) : (s.withPacker p).oclamp = s.oclamp := rfl
@[simp] theorem State.withPacker_vtrunc (p : Packer) : (s.withPacker p).vtrunc = s.vtrunc := rfl
@[simp] theorem State.withPacker_errcode (p : Packer) : (s.withPacker p).errcode = s.errcode := rfl
@[simp] theorem State.withPacker_width (p : Packer) : (s.withPacker p).width = s.width := rfl
@[simp] theorem State.withPacker_height (p : Packer) : (s.withPacker p).height = s.height := rfl
@[simp] theorem State.withPacker_levels (p : Packer) : (s.withPacker p).levels = s.levels := rfl
@[simp] theorem State.withPacker_curLevel (p : Packer) : (s.withPacker p).curLevel = s.curLevel := rfl
@[simp] theorem State.withPacker_streamLen (p : Packer) : (s.withPacker p).streamLen = s.streamLen := rfl
@[simp] theorem State.withPacker_wptr (p : Packer) : (s.withPacker p).wptr = p.ptr := rfl
@[simp] theorem State.withPacker_wbuf (p : Packer) : (s.withPacker p).wbuf = p.buf := rfl
@[simp] theorem State.withPacker_wfree (p : Packer) : (s.withPacker p).wfree = p.free := rfl
@[simp] theorem State.withPacker_rptr (p : Packer) : (s.withPacker p).rptr = s.rptr := rfl
@[simp] theorem State.withPacker_rbuf (p : Packer) : (s.withPacker p).rbuf = s.rbuf := rfl
@[simp] theorem State.withPacker_ravail (p : Packer) : (s.withPacker p).ravail = s.ravail := rfl
@[simp] theorem State.withPacker_pullData (p : Packer) : (s.withPacker p).pullData = s.pullData := rfl
@[simp] theorem State.withPacker_qCoef (p : Packer) : (s.withPacker p).qCoef = s.qCoef := rfl
@[simp] theorem State.withPacker_qIndex (p : Packer) : (s.withPacker p).qIndex = s.qIndex := rfl
@[simp] theorem State.withPacker_pend (p : Packer) : (s.withPacker p).pend = s.pend := rfl
@[simp] theorem State.withPacker_image (p : Packer) : (s.withPacker p).image = s.image := rfl
@[simp] theorem State.withPacker_plane (p : Packer) : (s.withPacker p).plane = s.plane := rfl
@[simp] theorem State.withPacker_stream (p : Packer) : (s.withPacker p).stream = p.out := rfl
@[simp] theorem State.withPacker_env (p : Packer) : (s.withPacker p).env = s.env := rfl
@[simp] theorem State.withPacker_replies (p : Packer) : (s.withPacker p).replies = s.replies := rfl

/-! R240: another unpacker. -/

@[simp] theorem State.withUnpacker_params (u : Unpacker) : (s.withUnpacker u).params = s.params := rfl
@[simp] theorem State.withUnpacker_ieDone (u : Unpacker) : (s.withUnpacker u).ieDone = s.ieDone := rfl
@[simp] theorem State.withUnpacker_ieErr (u : Unpacker) : (s.withUnpacker u).ieErr = s.ieErr := rfl
@[simp] theorem State.withUnpacker_cmd (u : Unpacker) : (s.withUnpacker u).cmd = s.cmd := rfl
@[simp] theorem State.withUnpacker_busy (u : Unpacker) : (s.withUnpacker u).busy = s.busy := rfl
@[simp] theorem State.withUnpacker_done (u : Unpacker) : (s.withUnpacker u).done = s.done := rfl
@[simp] theorem State.withUnpacker_errv (u : Unpacker) : (s.withUnpacker u).errv = s.errv := rfl
@[simp] theorem State.withUnpacker_qclamp (u : Unpacker) : (s.withUnpacker u).qclamp = s.qclamp := rfl
@[simp] theorem State.withUnpacker_oclamp (u : Unpacker) : (s.withUnpacker u).oclamp = s.oclamp := rfl
@[simp] theorem State.withUnpacker_vtrunc (u : Unpacker) : (s.withUnpacker u).vtrunc = s.vtrunc := rfl
@[simp] theorem State.withUnpacker_errcode (u : Unpacker) : (s.withUnpacker u).errcode = s.errcode := rfl
@[simp] theorem State.withUnpacker_width (u : Unpacker) : (s.withUnpacker u).width = s.width := rfl
@[simp] theorem State.withUnpacker_height (u : Unpacker) : (s.withUnpacker u).height = s.height := rfl
@[simp] theorem State.withUnpacker_levels (u : Unpacker) : (s.withUnpacker u).levels = s.levels := rfl
@[simp] theorem State.withUnpacker_curLevel (u : Unpacker) : (s.withUnpacker u).curLevel = s.curLevel := rfl
@[simp] theorem State.withUnpacker_streamLen (u : Unpacker) : (s.withUnpacker u).streamLen = s.streamLen := rfl
@[simp] theorem State.withUnpacker_wptr (u : Unpacker) : (s.withUnpacker u).wptr = s.wptr := rfl
@[simp] theorem State.withUnpacker_wbuf (u : Unpacker) : (s.withUnpacker u).wbuf = s.wbuf := rfl
@[simp] theorem State.withUnpacker_wfree (u : Unpacker) : (s.withUnpacker u).wfree = s.wfree := rfl
@[simp] theorem State.withUnpacker_rptr (u : Unpacker) : (s.withUnpacker u).rptr = u.ptr := rfl
@[simp] theorem State.withUnpacker_rbuf (u : Unpacker) : (s.withUnpacker u).rbuf = u.buf := rfl
@[simp] theorem State.withUnpacker_ravail (u : Unpacker) : (s.withUnpacker u).ravail = u.avail := rfl
@[simp] theorem State.withUnpacker_pullData (u : Unpacker) : (s.withUnpacker u).pullData = s.pullData := rfl
@[simp] theorem State.withUnpacker_qCoef (u : Unpacker) : (s.withUnpacker u).qCoef = s.qCoef := rfl
@[simp] theorem State.withUnpacker_qIndex (u : Unpacker) : (s.withUnpacker u).qIndex = s.qIndex := rfl
@[simp] theorem State.withUnpacker_pend (u : Unpacker) : (s.withUnpacker u).pend = s.pend := rfl
@[simp] theorem State.withUnpacker_image (u : Unpacker) : (s.withUnpacker u).image = s.image := rfl
@[simp] theorem State.withUnpacker_plane (u : Unpacker) : (s.withUnpacker u).plane = s.plane := rfl
@[simp] theorem State.withUnpacker_stream (u : Unpacker) : (s.withUnpacker u).stream = s.stream := rfl
@[simp] theorem State.withUnpacker_env (u : Unpacker) : (s.withUnpacker u).env = s.env := rfl
@[simp] theorem State.withUnpacker_replies (u : Unpacker) : (s.withUnpacker u).replies = s.replies := rfl

/-! R258: STREAM_LEN <- WPTR. -/

@[simp] theorem State.setStreamLen_params : (s.setStreamLen).params = s.params := rfl
@[simp] theorem State.setStreamLen_ieDone : (s.setStreamLen).ieDone = s.ieDone := rfl
@[simp] theorem State.setStreamLen_ieErr : (s.setStreamLen).ieErr = s.ieErr := rfl
@[simp] theorem State.setStreamLen_cmd : (s.setStreamLen).cmd = s.cmd := rfl
@[simp] theorem State.setStreamLen_busy : (s.setStreamLen).busy = s.busy := rfl
@[simp] theorem State.setStreamLen_done : (s.setStreamLen).done = s.done := rfl
@[simp] theorem State.setStreamLen_errv : (s.setStreamLen).errv = s.errv := rfl
@[simp] theorem State.setStreamLen_qclamp : (s.setStreamLen).qclamp = s.qclamp := rfl
@[simp] theorem State.setStreamLen_oclamp : (s.setStreamLen).oclamp = s.oclamp := rfl
@[simp] theorem State.setStreamLen_vtrunc : (s.setStreamLen).vtrunc = s.vtrunc := rfl
@[simp] theorem State.setStreamLen_errcode : (s.setStreamLen).errcode = s.errcode := rfl
@[simp] theorem State.setStreamLen_width : (s.setStreamLen).width = s.width := rfl
@[simp] theorem State.setStreamLen_height : (s.setStreamLen).height = s.height := rfl
@[simp] theorem State.setStreamLen_levels : (s.setStreamLen).levels = s.levels := rfl
@[simp] theorem State.setStreamLen_curLevel : (s.setStreamLen).curLevel = s.curLevel := rfl
@[simp] theorem State.setStreamLen_streamLen : (s.setStreamLen).streamLen = s.wptr := rfl
@[simp] theorem State.setStreamLen_wptr : (s.setStreamLen).wptr = s.wptr := rfl
@[simp] theorem State.setStreamLen_wbuf : (s.setStreamLen).wbuf = s.wbuf := rfl
@[simp] theorem State.setStreamLen_wfree : (s.setStreamLen).wfree = s.wfree := rfl
@[simp] theorem State.setStreamLen_rptr : (s.setStreamLen).rptr = s.rptr := rfl
@[simp] theorem State.setStreamLen_rbuf : (s.setStreamLen).rbuf = s.rbuf := rfl
@[simp] theorem State.setStreamLen_ravail : (s.setStreamLen).ravail = s.ravail := rfl
@[simp] theorem State.setStreamLen_pullData : (s.setStreamLen).pullData = s.pullData := rfl
@[simp] theorem State.setStreamLen_qCoef : (s.setStreamLen).qCoef = s.qCoef := rfl
@[simp] theorem State.setStreamLen_qIndex : (s.setStreamLen).qIndex = s.qIndex := rfl
@[simp] theorem State.setStreamLen_pend : (s.setStreamLen).pend = s.pend := rfl
@[simp] theorem State.setStreamLen_image : (s.setStreamLen).image = s.image := rfl
@[simp] theorem State.setStreamLen_plane : (s.setStreamLen).plane = s.plane := rfl
@[simp] theorem State.setStreamLen_stream : (s.setStreamLen).stream = s.stream := rfl
@[simp] theorem State.setStreamLen_env : (s.setStreamLen).env = s.env := rfl
@[simp] theorem State.setStreamLen_replies : (s.setStreamLen).replies = s.replies := rfl

/-! A bus reply is recorded (log 2). -/

@[simp] theorem State.record_params (r : Reply) : (s.record r).params = s.params := rfl
@[simp] theorem State.record_ieDone (r : Reply) : (s.record r).ieDone = s.ieDone := rfl
@[simp] theorem State.record_ieErr (r : Reply) : (s.record r).ieErr = s.ieErr := rfl
@[simp] theorem State.record_cmd (r : Reply) : (s.record r).cmd = s.cmd := rfl
@[simp] theorem State.record_busy (r : Reply) : (s.record r).busy = s.busy := rfl
@[simp] theorem State.record_done (r : Reply) : (s.record r).done = s.done := rfl
@[simp] theorem State.record_errv (r : Reply) : (s.record r).errv = s.errv := rfl
@[simp] theorem State.record_qclamp (r : Reply) : (s.record r).qclamp = s.qclamp := rfl
@[simp] theorem State.record_oclamp (r : Reply) : (s.record r).oclamp = s.oclamp := rfl
@[simp] theorem State.record_vtrunc (r : Reply) : (s.record r).vtrunc = s.vtrunc := rfl
@[simp] theorem State.record_errcode (r : Reply) : (s.record r).errcode = s.errcode := rfl
@[simp] theorem State.record_width (r : Reply) : (s.record r).width = s.width := rfl
@[simp] theorem State.record_height (r : Reply) : (s.record r).height = s.height := rfl
@[simp] theorem State.record_levels (r : Reply) : (s.record r).levels = s.levels := rfl
@[simp] theorem State.record_curLevel (r : Reply) : (s.record r).curLevel = s.curLevel := rfl
@[simp] theorem State.record_streamLen (r : Reply) : (s.record r).streamLen = s.streamLen := rfl
@[simp] theorem State.record_wptr (r : Reply) : (s.record r).wptr = s.wptr := rfl
@[simp] theorem State.record_wbuf (r : Reply) : (s.record r).wbuf = s.wbuf := rfl
@[simp] theorem State.record_wfree (r : Reply) : (s.record r).wfree = s.wfree := rfl
@[simp] theorem State.record_rptr (r : Reply) : (s.record r).rptr = s.rptr := rfl
@[simp] theorem State.record_rbuf (r : Reply) : (s.record r).rbuf = s.rbuf := rfl
@[simp] theorem State.record_ravail (r : Reply) : (s.record r).ravail = s.ravail := rfl
@[simp] theorem State.record_pullData (r : Reply) : (s.record r).pullData = s.pullData := rfl
@[simp] theorem State.record_qCoef (r : Reply) : (s.record r).qCoef = s.qCoef := rfl
@[simp] theorem State.record_qIndex (r : Reply) : (s.record r).qIndex = s.qIndex := rfl
@[simp] theorem State.record_pend (r : Reply) : (s.record r).pend = s.pend := rfl
@[simp] theorem State.record_image (r : Reply) : (s.record r).image = s.image := rfl
@[simp] theorem State.record_plane (r : Reply) : (s.record r).plane = s.plane := rfl
@[simp] theorem State.record_stream (r : Reply) : (s.record r).stream = s.stream := rfl
@[simp] theorem State.record_env (r : Reply) : (s.record r).env = s.env := rfl
@[simp] theorem State.record_replies (r : Reply) : (s.record r).replies = s.replies ++ [r] := rfl

end Sys2Proof.Machine
end

