-- ==== Sys2Proof/Laws/Ops.lean ====
section
/-! SUPPORT. What a command can do, said once: the outcome of `runCommand`, the first failing check, and
what the body of each command changes when it answers a state. -/

namespace Sys2Proof.Machine

/-- R54, R332, R65: a command ends in its error outcome, in its completed body, or in a model fault. -/
theorem runCommand_cases (check : Option CmdError) (body : State → Except Fault State) (s : State) :
    (∃ e, check = some e ∧ runCommand check body s = .next (s.raiseError e)) ∨
    (check = none ∧ ∃ t, body s = .ok t ∧ runCommand check body s = .next t.complete) ∨
    (check = none ∧ ∃ f, body s = .error f ∧ runCommand check body s = .fault f) := by
  unfold runCommand
  cases check with
  | some e => exact .inl ⟨e, rfl, rfl⟩
  | none =>
    cases h : body s with
    | ok t => exact .inr (.inl ⟨rfl, t, rfl, rfl⟩)
    | error f => exact .inr (.inr ⟨rfl, f, rfl, rfl⟩)

@[simp] theorem runCommand_some (e : CmdError) (body : State → Except Fault State) (s : State) :
    runCommand (some e) body s = .next (s.raiseError e) := rfl

theorem runCommand_ok {body : State → Except Fault State} {s t : State} (h : body s = .ok t) :
    runCommand none body s = .next t.complete := by simp [runCommand, h]

theorem runCommand_error {body : State → Except Fault State} {s : State} {f : Fault}
    (h : body s = .error f) : runCommand none body s = .fault f := by simp [runCommand, h]

/-- A next state of a command is its error outcome or its completed body. -/
theorem runCommand_eq_next {check : Option CmdError} {body : State → Except Fault State} {s u : State}
    (h : runCommand check body s = .next u) :
    (∃ e, check = some e ∧ u = s.raiseError e) ∨
      (check = none ∧ ∃ t, body s = .ok t ∧ u = t.complete) := by
  rcases runCommand_cases check body s with ⟨e, he, hr⟩ | ⟨hn, t, ht, hr⟩ | ⟨hn, f, hf, hr⟩
  · rw [hr] at h; exact .inl ⟨e, he, (Host.Outcome.next.inj h).symm⟩
  · rw [hr] at h; exact .inr ⟨hn, t, ht, (Host.Outcome.next.inj h).symm⟩
  · rw [hr] at h; cases h

/-- No command is refused. -/
theorem runCommand_ne_refused (check : Option CmdError) (body : State → Except Fault State) (s : State)
    (r : Refusal) : runCommand check body s ≠ .refused r := by
  rcases runCommand_cases check body s with ⟨_, _, h⟩ | ⟨_, _, _, h⟩ | ⟨_, _, _, h⟩ <;> simp [h]

/-- R333: the first failing check is reported. -/
@[simp] theorem firstError_nil : firstError [] = none := rfl

@[simp] theorem firstError_cons (b : Bool) (e : CmdError) (cs : List (Bool × CmdError)) :
    firstError ((b, e) :: cs) = if b then some e else firstError cs := rfl

/-! What the bodies change. -/

theorem bodyFwdLevel_eq_ok {s t : State} : bodyFwdLevel s = .ok t ↔
    ∃ plane, fwdLevel s.width.toNat s.height.toNat s.curLevel.toNat s.plane = .ok plane ∧
      t = { s with plane := plane, curLevel := s.curLevel + 1 } := by
  unfold bodyFwdLevel
  cases fwdLevel s.width.toNat s.height.toNat s.curLevel.toNat s.plane <;> simp [eq_comm]

theorem bodyInvLevel_eq_ok {s t : State} : bodyInvLevel s = .ok t ↔
    ∃ plane, invLevel s.width.toNat s.height.toNat s.curLevel.toNat s.plane = .ok plane ∧
      t = { s with plane := plane, curLevel := s.curLevel - 1 } := by
  unfold bodyInvLevel
  cases invLevel s.width.toNat s.height.toNat s.curLevel.toNat s.plane <;> simp [eq_comm]

theorem bodyFwdAll_eq_ok {s t : State} : bodyFwdAll s = .ok t ↔
    ∃ plane, fwdLevels s.width.toNat s.height.toNat s.curLevel.toNat
        (s.levels.toNat - s.curLevel.toNat) s.plane = .ok plane ∧
      t = { s with plane := plane, curLevel := s.levels } := by
  unfold bodyFwdAll
  cases fwdLevels s.width.toNat s.height.toNat s.curLevel.toNat
      (s.levels.toNat - s.curLevel.toNat) s.plane <;> simp [eq_comm]

theorem bodyInvAll_eq_ok {s t : State} : bodyInvAll s = .ok t ↔
    ∃ plane, invLevels s.width.toNat s.height.toNat s.curLevel.toNat s.plane = .ok plane ∧
      t = { s with plane := plane, curLevel := 0 } := by
  unfold bodyInvAll
  cases invLevels s.width.toNat s.height.toNat s.curLevel.toNat s.plane <;> simp [eq_comm]

theorem bodyPull_eq_ok {w : Nat} {s t : State} : bodyPull w s = .ok t ↔
    ∃ r u, upkPull s.stream w s.unpacker = .ok (r, u) ∧
      t = { s.withUnpacker u with pullData := BitVec.ofNat 8 r } := by
  unfold bodyPull
  cases upkPull s.stream w s.unpacker with
  | error f => simp
  | ok ru => obtain ⟨r, u⟩ := ru; simp [Prod.ext_iff, eq_comm]

end Sys2Proof.Machine
end

