-- ==== Sys2Proof/Laws/Exec.lean ====
section
/-! SUPPORT. Every command in one form: its checks and its body (R54, R334), what a next state of `exec`
can be, and what no body ever changes. -/

namespace Sys2Proof.Machine

/-- The checks of a command (R333). -/
def checksOf : Instr → State → Option CmdError
  | .nop, _ => none
  | .loadImage, s => checkConfig s
  | .storeImage, s => checkConfig s
  | .fwdLevel, s => checkFwdLevel s
  | .invLevel, s => checkInvLevel s
  | .fwdAll, s => checkAllLevels s
  | .invAll, s => checkAllLevels s
  | .qpack, s => checkQpack s
  | .unpackDq, s => checkDecode s
  | .encode, s => checkEncode s
  | .decode, s => checkDecode s
  | .bpInit, _ => none
  | .push _ w, s => checkPush w s
  | .flush, s => checkFlush s
  | .pull w, s => checkPull w s
  | .quant _, _ => none
  | .dequant _, _ => none

/-- The body of a command: its effects once its checks have passed. -/
def bodyOf : Instr → State → Except Fault State
  | .nop, s => .ok s
  | .loadImage, s => bodyLoadImage s
  | .storeImage, s => bodyStoreImage s
  | .fwdLevel, s => bodyFwdLevel s
  | .invLevel, s => bodyInvLevel s
  | .fwdAll, s => bodyFwdAll s
  | .invAll, s => bodyInvAll s
  | .qpack, s => bodyQpack s
  | .unpackDq, s => bodyUnpackDq s
  | .encode, s => bodyEncode s
  | .decode, s => bodyDecode s
  | .bpInit, s => bodyBpInit s
  | .push v w, s => bodyPush v w s
  | .flush, s => bodyFlush s
  | .pull w, s => bodyPull w s
  | .quant k, s => bodyQuant k s
  | .dequant k, s => bodyDequant k s

/-- R54: every command is its checks and its body. -/
theorem exec_eq (i : Instr) (s : State) : exec i s = runCommand (checksOf i s) (bodyOf i) s := by
  cases i <;> rfl

/-- R54, R332: a next state of a command is its error outcome or its completed body. -/
theorem exec_eq_next {i : Instr} {s u : State} (h : exec i s = .next u) :
    (∃ e, checksOf i s = some e ∧ u = s.raiseError e) ∨
      (checksOf i s = none ∧ ∃ t, bodyOf i s = .ok t ∧ u = t.complete) := by
  rw [exec_eq] at h; exact runCommand_eq_next h

theorem exec_of_ok {i : Instr} {s t : State} (hc : checksOf i s = none) (hb : bodyOf i s = .ok t) :
    exec i s = .next t.complete := by
  rw [exec_eq, hc]; exact runCommand_ok hb

theorem exec_of_check {i : Instr} {s : State} {e : CmdError} (hc : checksOf i s = some e) :
    exec i s = .next (s.raiseError e) := by
  rw [exec_eq, hc]; rfl

theorem exec_eq_fault {i : Instr} {s : State} {f : Fault} (h : exec i s = .fault f) :
    checksOf i s = none ∧ bodyOf i s = .error f := by
  rw [exec_eq] at h
  rcases runCommand_cases (checksOf i s) (bodyOf i) s with ⟨_, _, hr⟩ | ⟨_, _, _, hr⟩ | ⟨hn, f', hf, hr⟩
  · rw [hr] at h; cases h
  · rw [hr] at h; cases h
  · rw [hr] at h; cases h; exact ⟨hn, hf⟩

/-! What the bodies of the orchestration commands change. -/

theorem bodyLoadImage_eq_ok {s t : State} : bodyLoadImage s = .ok t ↔
    (∀ i < s.samples, ∃ b, s.image.read i = some b) ∧
      t = { s with
        plane := s.plane.writeAll
          ((List.range s.samples).map fun i => (i, cvt32 ((s.image.read i).getD 0).toNat))
        curLevel := 0 } := by
  have h := requireAll_eq_ok (id := .image) (m := s.image) (is := List.range s.samples)
  simp only [List.mem_range] at h
  unfold bodyLoadImage
  cases hr : requireAll .image s.image (List.range s.samples) with
  | ok u =>
    rw [hr] at h
    exact ⟨fun ht => ⟨h.1 rfl, (Except.ok.inj ht).symm⟩, fun ht => by rw [ht.2]⟩
  | error f => rw [hr] at h; simp only [reduceCtorEq, false_iff] at h ⊢; exact fun hc => h hc.1

theorem bodyStoreImage_eq_ok {s t : State} : bodyStoreImage s = .ok t ↔
    (∀ i < s.samples, ∃ v, s.plane.read i = some v) ∧
      t = { s with
        image := s.image.writeAll
          ((List.range s.samples).map fun i => (i, BitVec.ofNat 8 (storedSample s.plane i).1))
        oclamp := s.oclamp || (List.range s.samples).any fun i => (storedSample s.plane i).2 } := by
  have h := requireAll_eq_ok (id := .plane) (m := s.plane) (is := List.range s.samples)
  simp only [List.mem_range] at h
  unfold bodyStoreImage
  cases hr : requireAll .plane s.plane (List.range s.samples) with
  | ok u =>
    rw [hr] at h
    exact ⟨fun ht => ⟨h.1 rfl, (Except.ok.inj ht).symm⟩, fun ht => by rw [ht.2]; rfl⟩
  | error f => rw [hr] at h; simp only [reduceCtorEq, false_iff] at h ⊢; exact fun hc => h hc.1

theorem bodyQpack_eq_ok {s t : State} : bodyQpack s = .ok t ↔
    ∃ p cl, packSched s.width.toNat s.plane (sched s.width.toNat s.height.toNat s.levels.toNat)
        (Packer.start s.stream) false = .ok (p, cl) ∧
      t = { s with
        wbuf := 0, wfree := 8, wptr := p.ptr + 1, stream := p.out.write p.ptr.toNat p.buf
        streamLen := p.ptr + 1, qclamp := s.qclamp || cl } := by
  unfold bodyQpack
  cases packSched s.width.toNat s.plane (sched s.width.toNat s.height.toNat s.levels.toNat)
      (Packer.start s.stream) false with
  | error f => simp
  | ok r =>
    obtain ⟨p, cl⟩ := r
    simp only [Except.ok.injEq, Prod.mk.injEq]
    constructor
    · rintro rfl; exact ⟨p, cl, ⟨rfl, rfl⟩, rfl⟩
    · rintro ⟨_, _, ⟨rfl, rfl⟩, rfl⟩; rfl

theorem bodyUnpackDq_eq_ok {s t : State} : bodyUnpackDq s = .ok t ↔
    ∃ u plane, unpackSched s.width.toNat s.stream
        (sched s.width.toNat s.height.toNat s.levels.toNat) Unpacker.start s.plane = .ok (u, plane) ∧
      t = { s with
        rbuf := u.buf, ravail := u.avail, rptr := u.ptr, plane := plane, curLevel := s.levels } := by
  unfold bodyUnpackDq
  cases unpackSched s.width.toNat s.stream (sched s.width.toNat s.height.toNat s.levels.toNat)
      Unpacker.start s.plane with
  | error f => simp
  | ok r =>
    obtain ⟨u, plane⟩ := r
    simp only [Except.ok.injEq, Prod.mk.injEq]
    constructor
    · rintro rfl; exact ⟨u, plane, ⟨rfl, rfl⟩, rfl⟩
    · rintro ⟨_, _, ⟨rfl, rfl⟩, rfl⟩; rfl

theorem andThen_eq_ok {f g : State → Except Fault State} {s t : State} :
    andThen f g s = .ok t ↔ ∃ u, f s = .ok u ∧ g u = .ok t := by
  unfold andThen; cases f s <;> simp

theorem andThen_eq_error {f g : State → Except Fault State} {s : State} {e : Fault} :
    andThen f g s = .error e ↔ f s = .error e ∨ ∃ u, f s = .ok u ∧ g u = .error e := by
  unfold andThen; cases f s <;> simp

theorem bodyEncode_eq_ok {s t : State} : bodyEncode s = .ok t ↔
    ∃ u v, bodyLoadImage s = .ok u ∧ bodyFwdAll u = .ok v ∧ bodyQpack v = .ok t := by
  unfold bodyEncode
  simp only [andThen_eq_ok]
  exact ⟨fun ⟨v, ⟨u, h1, h2⟩, h3⟩ => ⟨u, v, h1, h2, h3⟩, fun ⟨u, v, h1, h2, h3⟩ => ⟨v, ⟨u, h1, h2⟩, h3⟩⟩

theorem bodyDecode_eq_ok {s t : State} : bodyDecode s = .ok t ↔
    ∃ u v, bodyUnpackDq s = .ok u ∧ bodyInvAll u = .ok v ∧ bodyStoreImage v = .ok t := by
  unfold bodyDecode
  simp only [andThen_eq_ok]
  exact ⟨fun ⟨v, ⟨u, h1, h2⟩, h3⟩ => ⟨u, v, h1, h2, h3⟩, fun ⟨u, v, h1, h2, h3⟩ => ⟨v, ⟨u, h1, h2⟩, h3⟩⟩

/-! What no body changes. -/

/-- The parameters, the enables, CMD, PEND, the configuration, the error part of STATUS, BUSY, DONE and the
model's own schedule and record are the same in both states. -/
structure SameFrame (s t : State) : Prop where
  params : t.params = s.params
  ieDone : t.ieDone = s.ieDone
  ieErr : t.ieErr = s.ieErr
  cmd : t.cmd = s.cmd
  pend : t.pend = s.pend
  busy : t.busy = s.busy
  done : t.done = s.done
  errv : t.errv = s.errv
  errcode : t.errcode = s.errcode
  width : t.width = s.width
  height : t.height = s.height
  levels : t.levels = s.levels
  env : t.env = s.env
  replies : t.replies = s.replies

theorem SameFrame.trans {s t u : State} (h : SameFrame s t) (h' : SameFrame t u) : SameFrame s u := by
  constructor <;>
    simp [h.params, h'.params, h.ieDone, h'.ieDone, h.ieErr, h'.ieErr, h.cmd, h'.cmd, h.pend, h'.pend,
      h.busy, h'.busy, h.done, h'.done, h.errv, h'.errv, h.errcode, h'.errcode, h.width, h'.width,
      h.height, h'.height, h.levels, h'.levels, h.env, h'.env, h.replies, h'.replies]

theorem frame_load {s t : State} (h : bodyLoadImage s = .ok t) : SameFrame s t := by
  obtain ⟨_, rfl⟩ := bodyLoadImage_eq_ok.1 h; constructor <;> rfl

theorem frame_store {s t : State} (h : bodyStoreImage s = .ok t) : SameFrame s t := by
  obtain ⟨_, rfl⟩ := bodyStoreImage_eq_ok.1 h; constructor <;> rfl

theorem frame_fwdAll {s t : State} (h : bodyFwdAll s = .ok t) : SameFrame s t := by
  obtain ⟨_, _, rfl⟩ := bodyFwdAll_eq_ok.1 h; constructor <;> rfl

theorem frame_invAll {s t : State} (h : bodyInvAll s = .ok t) : SameFrame s t := by
  obtain ⟨_, _, rfl⟩ := bodyInvAll_eq_ok.1 h; constructor <;> rfl

theorem frame_qpack {s t : State} (h : bodyQpack s = .ok t) : SameFrame s t := by
  obtain ⟨_, _, _, rfl⟩ := bodyQpack_eq_ok.1 h; constructor <;> rfl

theorem frame_unpackDq {s t : State} (h : bodyUnpackDq s = .ok t) : SameFrame s t := by
  obtain ⟨_, _, _, rfl⟩ := bodyUnpackDq_eq_ok.1 h; constructor <;> rfl

/-- No body changes the frame. -/
theorem frame_body {i : Instr} {s t : State} (h : bodyOf i s = .ok t) : SameFrame s t := by
  cases i with
  | nop => cases h; constructor <;> rfl
  | loadImage => exact frame_load h
  | storeImage => exact frame_store h
  | fwdLevel => obtain ⟨_, _, rfl⟩ := bodyFwdLevel_eq_ok.1 h; constructor <;> rfl
  | invLevel => obtain ⟨_, _, rfl⟩ := bodyInvLevel_eq_ok.1 h; constructor <;> rfl
  | fwdAll => exact frame_fwdAll h
  | invAll => exact frame_invAll h
  | qpack => exact frame_qpack h
  | unpackDq => exact frame_unpackDq h
  | encode =>
    obtain ⟨u, v, h1, h2, h3⟩ := bodyEncode_eq_ok.1 h
    exact ((frame_load h1).trans (frame_fwdAll h2)).trans (frame_qpack h3)
  | decode =>
    obtain ⟨u, v, h1, h2, h3⟩ := bodyDecode_eq_ok.1 h
    exact ((frame_unpackDq h1).trans (frame_invAll h2)).trans (frame_store h3)
  | bpInit => cases h; constructor <;> rfl
  | push v w => cases h; constructor <;> rfl
  | flush => cases h; constructor <;> rfl
  | pull w => obtain ⟨_, _, _, rfl⟩ := bodyPull_eq_ok.1 h; constructor <;> rfl
  | quant k => cases h; constructor <;> rfl
  | dequant k => cases h; constructor <;> rfl

/-! The checks. -/

theorem cfgOk_iff (s : State) : s.cfgOk = true ↔ s.CfgOk := by
  simp only [State.cfgOk, State.CfgOk, Bool.and_eq_true, decide_eq_true_eq]
  tauto

theorem not_cfgOk_iff (s : State) : s.cfgOk = false ↔ ¬ s.CfgOk := by
  rw [← cfgOk_iff]; cases s.cfgOk <;> simp

/-- R333: no error is reported exactly when no condition of the list holds. -/
theorem firstError_cons_eq_none {b : Bool} {e : CmdError} {cs : List (Bool × CmdError)} :
    firstError ((b, e) :: cs) = none ↔ b = false ∧ firstError cs = none := by
  cases b <;> simp

theorem checkConfig_eq_none {s : State} : checkConfig s = none ↔ s.CfgOk := by
  rw [← cfgOk_iff]; simp [checkConfig, firstError_cons_eq_none, -firstError_cons]

theorem checkFwdLevel_eq_none {s : State} :
    checkFwdLevel s = none ↔ s.CfgOk ∧ s.curLevel.toNat < s.levels.toNat := by
  rw [← cfgOk_iff]; simp [checkFwdLevel, firstError_cons_eq_none, -firstError_cons]

theorem checkInvLevel_eq_none {s : State} :
    checkInvLevel s = none ↔ s.CfgOk ∧ 1 ≤ s.curLevel.toNat ∧ s.curLevel.toNat ≤ s.levels.toNat := by
  rw [← cfgOk_iff]
  simp only [checkInvLevel, firstError_cons_eq_none, firstError_nil, Bool.not_eq_false',
    decide_eq_false_iff_not, and_true]
  constructor <;> rintro ⟨h, h'⟩ <;> exact ⟨h, by omega⟩

theorem checkAllLevels_eq_none {s : State} :
    checkAllLevels s = none ↔ s.CfgOk ∧ s.curLevel.toNat ≤ s.levels.toNat := by
  rw [← cfgOk_iff]; simp [checkAllLevels, firstError_cons_eq_none, -firstError_cons]

theorem checkQpack_eq_none {s : State} :
    checkQpack s = none ↔ s.CfgOk ∧ s.curLevel = s.levels ∧ s.encLen ≤ s.params.bsCap := by
  rw [← cfgOk_iff]; simp [checkQpack, firstError_cons_eq_none, -firstError_cons]

theorem checkEncode_eq_none {s : State} :
    checkEncode s = none ↔ s.CfgOk ∧ s.encLen ≤ s.params.bsCap := by
  rw [← cfgOk_iff]; simp [checkEncode, firstError_cons_eq_none, -firstError_cons]

theorem checkDecode_eq_none {s : State} :
    checkDecode s = none ↔ s.CfgOk ∧ s.decLen ≤ s.streamBound := by
  rw [← cfgOk_iff]; simp [checkDecode, firstError_cons_eq_none, -firstError_cons]

theorem widthOk_iff {w : Nat} : widthOk w = true ↔ 1 ≤ w ∧ w ≤ 8 := by simp [widthOk]

theorem checkPush_eq_none {w : Nat} {s : State} :
    checkPush w s = none ↔ (1 ≤ w ∧ w ≤ 8) ∧ s.wptr.toNat + pushEmits w s ≤ s.params.bsCap := by
  rw [← widthOk_iff]; simp [checkPush, firstError_cons_eq_none, -firstError_cons]

theorem checkFlush_eq_none {s : State} : checkFlush s = none ↔ s.wptr.toNat + 1 ≤ s.params.bsCap := by
  simp [checkFlush, firstError_cons_eq_none, -firstError_cons]

theorem checkPull_eq_none {w : Nat} {s : State} :
    checkPull w s = none ↔ (1 ≤ w ∧ w ≤ 8) ∧ s.rptr.toNat + pullFetches w s ≤ s.streamBound := by
  rw [← widthOk_iff]; simp [checkPull, firstError_cons_eq_none, -firstError_cons]

end Sys2Proof.Machine
end

