-- ==== Sys2Proof/Laws/Packer.lean ====
section
/-! SUPPORT. What a push, a flush and a pull do (R243, R245), in arithmetic and as bit sequences (R242). -/

namespace Sys2Proof.Machine

/-- R43: the packer's invariant. -/
abbrev Packer.Inv (p : Packer) : Prop :=
  1 ≤ p.free.toNat ∧ p.free.toNat ≤ 8 ∧ p.buf.toNat % 2 ^ p.free.toNat = 0

/-- The pending bits of a packer: the top 8 − WFREE bits of WBUF (R43). -/
def Packer.pending (p : Packer) : List Bool := bitsOf (p.buf.toNat / 2 ^ p.free.toNat) (8 - p.free.toNat)

/-- R243 in arithmetic: the packer after a push of `x` with width `w`. The pending value and `x` make one
value of 8 − WFREE + w bits; 8 of them are emitted if there are so many. -/
def Packer.pushed (x w : Nat) (p : Packer) : Packer :=
  let used := 8 - p.free.toNat
  let total := p.buf.toNat / 2 ^ p.free.toNat * 2 ^ w + x
  if used + w < 8 then
    { p with buf := BitVec.ofNat 8 (total * 2 ^ (8 - used - w)), free := BitVec.ofNat 4 (8 - used - w) }
  else
    { buf := BitVec.ofNat 8 (total % 2 ^ (used + w - 8) * 2 ^ (16 - used - w))
      free := BitVec.ofNat 4 (16 - used - w)
      ptr := p.ptr + 1
      out := p.out.write p.ptr.toNat (BitVec.ofNat 8 (total / 2 ^ (used + w - 8))) }

theorem pkLoop_zero_need (fuel x : Nat) (p : Packer) : pkLoop fuel x 0 p = p := by
  cases fuel <;> simp [pkLoop]

theorem pkLoop_succ {fuel x need : Nat} {p : Packer} (h : need ≠ 0) :
    pkLoop (fuel + 1) x need p = pkLoop fuel x (need - min need p.free.toNat) (pkTurn x need p) := by
  simp [pkLoop, h]

/-- A turn that leaves free bits. -/
theorem pkTurn_keep {x need : Nat} {p : Packer} (h : need < p.free.toNat) (h8 : p.free.toNat ≤ 8) :
    pkTurn x need p =
      { p with
        buf := p.buf ||| BitVec.ofNat 8 ((x % 2 ^ need) <<< (p.free.toNat - need))
        free := BitVec.ofNat 4 (p.free.toNat - need) } := by
  have hm : min need p.free.toNat = need := by omega
  have hf : p.free - BitVec.ofNat 4 need = BitVec.ofNat 4 (p.free.toNat - need) := by
    apply BitVec.eq_of_toNat_eq
    simp only [BitVec.toNat_sub, BitVec.toNat_ofNat]
    omega
  have hz : BitVec.ofNat 4 (p.free.toNat - need) ≠ 0 := by
    intro e
    have := congrArg BitVec.toNat e
    simp only [BitVec.toNat_ofNat, BitVec.ofNat_eq_ofNat] at this
    omega
  unfold pkTurn
  simp only [hm, Nat.sub_self, Nat.shiftRight_zero, hf, if_neg hz]

/-- A turn that fills the buffer. -/
theorem pkTurn_emit {x need : Nat} {p : Packer} (h : p.free.toNat ≤ need) :
    pkTurn x need p = pkEmit
      { p with
        buf := p.buf ||| BitVec.ofNat 8 ((x >>> (need - p.free.toNat)) % 2 ^ p.free.toNat)
        free := 0 } := by
  have hm : min need p.free.toNat = p.free.toNat := by omega
  have hf : p.free - BitVec.ofNat 4 p.free.toNat = 0 := by simp
  unfold pkTurn
  simp only [hm, Nat.sub_self, Nat.shiftLeft_zero, hf, if_true]

/-- Free bits of a buffer are filled by addition. -/
theorem toNat_or_free {b : Byte} {f y : Nat} (hb : b.toNat % 2 ^ f = 0) (hy : y < 2 ^ f) (hf : f ≤ 8) :
    (b ||| BitVec.ofNat 8 y).toNat = b.toNat + y := by
  have h8 : (2 : Nat) ^ f ≤ 2 ^ 8 := Nat.pow_le_pow_right (by omega) hf
  rw [BitVec.toNat_or, BitVec.toNat_ofNat, Nat.mod_eq_of_lt (by omega : y < 2 ^ 8)]
  have hd : b.toNat = 2 ^ f * (b.toNat / 2 ^ f) := by
    have := Nat.div_add_mod b.toNat (2 ^ f); omega
  rw [hd, ← Nat.two_pow_add_eq_or_of_lt hy]

/-- R243: the bits that overflow go left-justified into a fresh buffer. -/
theorem pkLoop_fresh (fuel x : Nat) {need : Nat} (hneed : need ≤ 7) (ptr : Word) (out : Memory Byte) :
    pkLoop (fuel + 1) x need { buf := 0, free := 8, ptr := ptr, out := out } =
      { buf := BitVec.ofNat 8 (x % 2 ^ need * 2 ^ (8 - need)), free := BitVec.ofNat 4 (8 - need),
        ptr := ptr, out := out } := by
  have h8 : ({ buf := 0, free := 8, ptr := ptr, out := out } : Packer).free.toNat = 8 := rfl
  by_cases h0 : need = 0
  · subst h0
    rw [pkLoop_zero_need]
    simp [Nat.mod_one]
  · rw [pkLoop_succ h0, pkTurn_keep (by rw [h8]; omega) (by rw [h8]), h8,
      show min need 8 = need by omega, Nat.sub_self, pkLoop_zero_need]
    simp only [Nat.shiftLeft_eq, BitVec.ofNat_eq_ofNat, BitVec.zero_or]

/-- R243: a push, in arithmetic. -/
theorem pkPush_eq {x w : Nat} {p : Packer} (hp : p.Inv) (hw : 1 ≤ w ∧ w ≤ 8) (hx : x < 2 ^ w) :
    pkPush x w p = p.pushed x w := by
  obtain ⟨h1, h8, hz⟩ := hp
  have hbuf : p.buf.toNat = p.buf.toNat / 2 ^ p.free.toNat * 2 ^ p.free.toNat := by
    have := Nat.div_add_mod p.buf.toNat (2 ^ p.free.toNat)
    rw [hz, Nat.mul_comm] at this; omega
  unfold pkPush Packer.pushed
  rw [pkLoop_succ (by omega)]
  by_cases hlt : w < p.free.toNat
  · -- the bits fit and the buffer is not full
    rw [show min w p.free.toNat = w by omega, Nat.sub_self, pkLoop_zero_need, pkTurn_keep hlt h8]
    rw [if_pos (by omega)]
    have hy : x % 2 ^ w * 2 ^ (p.free.toNat - w) < 2 ^ p.free.toNat := by
      calc x % 2 ^ w * 2 ^ (p.free.toNat - w) < 2 ^ w * 2 ^ (p.free.toNat - w) :=
            Nat.mul_lt_mul_of_pos_right (Nat.mod_lt _ (by positivity)) (by positivity)
        _ = 2 ^ p.free.toNat := by rw [← pow_add]; congr 1; omega
    have e1 : 8 - (8 - p.free.toNat) - w = p.free.toNat - w := by omega
    rw [e1]
    congr 1
    apply BitVec.eq_of_toNat_eq
    rw [Nat.shiftLeft_eq, toNat_or_free hz hy h8, Nat.mod_eq_of_lt hx, BitVec.toNat_ofNat, Nat.add_mul,
      Nat.mul_assoc, ← pow_add, show w + (p.free.toNat - w) = p.free.toNat by omega, ← hbuf,
      Nat.mod_eq_of_lt]
    have := p.buf.isLt
    have hle : (2 : Nat) ^ p.free.toNat ≤ 2 ^ 8 := Nat.pow_le_pow_right (by omega) h8
    rw [Nat.mod_eq_of_lt hx] at hy
    -- the buffer is a multiple of 2^free below 2^8, so it leaves room for the new bits
    have : p.buf.toNat / 2 ^ p.free.toNat < 2 ^ (8 - p.free.toNat) := by
      rw [Nat.div_lt_iff_lt_mul (by positivity), ← pow_add, show 8 - p.free.toNat + p.free.toNat = 8 by omega]
      exact p.buf.isLt
    calc p.buf.toNat + x * 2 ^ (p.free.toNat - w)
        < p.buf.toNat / 2 ^ p.free.toNat * 2 ^ p.free.toNat + 2 ^ p.free.toNat := by omega
      _ = (p.buf.toNat / 2 ^ p.free.toNat + 1) * 2 ^ p.free.toNat := by ring
      _ ≤ 2 ^ (8 - p.free.toNat) * 2 ^ p.free.toNat := Nat.mul_le_mul_right _ this
      _ = 2 ^ 8 := by rw [← pow_add]; congr 1; omega
  · -- the buffer fills and is emitted
    have hfw : p.free.toNat ≤ w := by omega
    rw [show min w p.free.toNat = p.free.toNat by omega, pkTurn_emit hfw, if_neg (by omega)]
    have hxs : (x >>> (w - p.free.toNat)) % 2 ^ p.free.toNat = x / 2 ^ (w - p.free.toNat) := by
      rw [Nat.shiftRight_eq_div_pow, Nat.mod_eq_of_lt]
      rw [Nat.div_lt_iff_lt_mul (by positivity), ← pow_add, show p.free.toNat + (w - p.free.toNat) = w by omega]
      exact hx
    have hxlt : x / 2 ^ (w - p.free.toNat) < 2 ^ p.free.toNat := by
      rw [← hxs]; exact Nat.mod_lt _ (by positivity)
    have e1 : 8 - p.free.toNat + w - 8 = w - p.free.toNat := by omega
    have e2 : 16 - (8 - p.free.toNat) - w = 8 - (w - p.free.toNat) := by omega
    rw [e1, e2]
    have hbyte : (p.buf ||| BitVec.ofNat 8 (x / 2 ^ (w - p.free.toNat))) =
        BitVec.ofNat 8 ((p.buf.toNat / 2 ^ p.free.toNat * 2 ^ w + x) / 2 ^ (w - p.free.toNat)) := by
      have hsum : (p.buf.toNat / 2 ^ p.free.toNat * 2 ^ w + x) / 2 ^ (w - p.free.toNat) =
          p.buf.toNat + x / 2 ^ (w - p.free.toNat) := by
        rw [show p.buf.toNat / 2 ^ p.free.toNat * 2 ^ w =
            p.buf.toNat * 2 ^ (w - p.free.toNat) by
          conv_rhs => rw [hbuf, Nat.mul_assoc, ← pow_add, show p.free.toNat + (w - p.free.toNat) = w by omega]]
        rw [Nat.add_comm, Nat.add_mul_div_right _ _ (by positivity), Nat.add_comm]
      apply BitVec.eq_of_toNat_eq
      rw [toNat_or_free hz hxlt h8, hsum, BitVec.toNat_ofNat, Nat.mod_eq_of_lt]
      rw [← toNat_or_free hz hxlt h8]
      exact BitVec.isLt _
    have hmod : (p.buf.toNat / 2 ^ p.free.toNat * 2 ^ w + x) % 2 ^ (w - p.free.toNat) =
        x % 2 ^ (w - p.free.toNat) := by
      rw [show (2 : Nat) ^ w = 2 ^ p.free.toNat * 2 ^ (w - p.free.toNat) by
        rw [← pow_add]; congr 1; omega, ← Nat.mul_assoc, Nat.add_comm, Nat.add_mul_mod_self_right]
    rw [hxs, hbyte, hmod]
    unfold pkEmit
    simp only
    obtain ⟨w', rfl⟩ : ∃ w', w = w' + 1 := ⟨w - 1, by omega⟩
    exact pkLoop_fresh w' x (by omega) _ _

/-- The pending bits and the new ones are the bits of one value. -/
theorem pending_append {x w : Nat} {p : Packer} (hx : x < 2 ^ w) :
    p.pending ++ bitsOf x w =
      bitsOf (p.buf.toNat / 2 ^ p.free.toNat * 2 ^ w + x) (8 - p.free.toNat + w) :=
  bitsOf_append hx

theorem div_free_lt {b : Byte} {f : Nat} (h8 : f ≤ 8) : b.toNat / 2 ^ f < 2 ^ (8 - f) := by
  rw [Nat.div_lt_iff_lt_mul (by positivity), ← pow_add, show 8 - f + f = 8 by omega]
  exact b.isLt

/-- The value of pending and new bits has as many bits as both together. -/
theorem total_lt {x w : Nat} {p : Packer} (h8 : p.free.toNat ≤ 8) (hx : x < 2 ^ w) :
    p.buf.toNat / 2 ^ p.free.toNat * 2 ^ w + x < 2 ^ (8 - p.free.toNat + w) := by
  have h := div_free_lt (b := p.buf) h8
  calc p.buf.toNat / 2 ^ p.free.toNat * 2 ^ w + x
      < p.buf.toNat / 2 ^ p.free.toNat * 2 ^ w + 2 ^ w := by omega
    _ = (p.buf.toNat / 2 ^ p.free.toNat + 1) * 2 ^ w := by ring
    _ ≤ 2 ^ (8 - p.free.toNat) * 2 ^ w := Nat.mul_le_mul_right _ h
    _ = 2 ^ (8 - p.free.toNat + w) := by rw [pow_add]

/-- A buffer made of a value of `u` < 8 bits, left-justified. -/
theorem leftJustified {v u : Nat} (hv : v < 2 ^ u) (hu : u < 8) (ptr : Word) (out : Memory Byte) :
    ({ buf := BitVec.ofNat 8 (v * 2 ^ (8 - u)), free := BitVec.ofNat 4 (8 - u), ptr := ptr, out := out } :
        Packer).Inv ∧
    ({ buf := BitVec.ofNat 8 (v * 2 ^ (8 - u)), free := BitVec.ofNat 4 (8 - u), ptr := ptr, out := out } :
        Packer).pending = bitsOf v u := by
  have hf : (BitVec.ofNat 4 (8 - u)).toNat = 8 - u := by
    rw [BitVec.toNat_ofNat, Nat.mod_eq_of_lt (by omega)]
  have hb : (BitVec.ofNat 8 (v * 2 ^ (8 - u))).toNat = v * 2 ^ (8 - u) := by
    rw [BitVec.toNat_ofNat, Nat.mod_eq_of_lt]
    calc v * 2 ^ (8 - u) < 2 ^ u * 2 ^ (8 - u) := Nat.mul_lt_mul_of_pos_right hv (by positivity)
      _ = 2 ^ 8 := by rw [← pow_add]; congr 1; omega
  refine ⟨⟨?_, ?_, ?_⟩, ?_⟩
  · show 1 ≤ (BitVec.ofNat 4 (8 - u)).toNat; omega
  · show (BitVec.ofNat 4 (8 - u)).toNat ≤ 8; omega
  · show (BitVec.ofNat 8 (v * 2 ^ (8 - u))).toNat % 2 ^ (BitVec.ofNat 4 (8 - u)).toNat = 0
    rw [hf, hb, Nat.mul_mod_left]
  · unfold Packer.pending
    show bitsOf ((BitVec.ofNat 8 (v * 2 ^ (8 - u))).toNat / 2 ^ (BitVec.ofNat 4 (8 - u)).toNat)
      (8 - (BitVec.ofNat 4 (8 - u)).toNat) = bitsOf v u
    rw [hf, hb, Nat.mul_div_cancel _ (by positivity), show 8 - (8 - u) = u by omega]

/-- R242, R243: a push of `x` with width `w` appends `bits(x, w)`: it keeps them pending, or emits one
byte whose bits and the bits still pending are the old pending bits and the new ones. -/
theorem pkPush_bits {x w : Nat} {p : Packer} (hp : p.Inv) (hw : 1 ≤ w ∧ w ≤ 8) (hx : x < 2 ^ w) :
    (pkPush x w p).Inv ∧
    ((8 - p.free.toNat + w < 8 ∧ (pkPush x w p).ptr = p.ptr ∧ (pkPush x w p).out = p.out ∧
        (pkPush x w p).pending = p.pending ++ bitsOf x w) ∨
     (8 ≤ 8 - p.free.toNat + w ∧ (pkPush x w p).ptr = p.ptr + 1 ∧
        ∃ b : Byte, (pkPush x w p).out = p.out.write p.ptr.toNat b ∧
          bitsOf b.toNat 8 ++ (pkPush x w p).pending = p.pending ++ bitsOf x w)) := by
  have h8 := hp.2.1
  rw [pkPush_eq hp hw hx, pending_append hx]
  have htot := total_lt h8 hx (w := w)
  unfold Packer.pushed
  simp only
  generalize hT : p.buf.toNat / 2 ^ p.free.toNat * 2 ^ w + x = total at *
  generalize hU : 8 - p.free.toNat = used at *
  split
  · rename_i hlt
    have hj := leftJustified htot hlt p.ptr p.out
    rw [show 8 - (used + w) = 8 - used - w by omega] at hj
    exact ⟨hj.1, .inl ⟨hlt, rfl, rfl, hj.2⟩⟩
  · rename_i hge
    have hlt : used + w - 8 < 8 := by omega
    have hj := leftJustified (Nat.mod_lt total (by positivity : 2 ^ (used + w - 8) > 0)) hlt (p.ptr + 1)
      (p.out.write p.ptr.toNat (BitVec.ofNat 8 (total / 2 ^ (used + w - 8))))
    rw [show 8 - (used + w - 8) = 16 - used - w by omega] at hj
    refine ⟨hj.1, .inr ⟨by omega, rfl, _, rfl, ?_⟩⟩
    rw [hj.2, bitsOf_mod]
    have hb : (BitVec.ofNat 8 (total / 2 ^ (used + w - 8))).toNat = total >>> (used + w - 8) := by
      rw [BitVec.toNat_ofNat, Nat.shiftRight_eq_div_pow, Nat.mod_eq_of_lt]
      rw [Nat.div_lt_iff_lt_mul (by positivity), ← pow_add, show 8 + (used + w - 8) = used + w by omega]
      exact htot
    rw [hb, ← bitsOf_add, show 8 + (used + w - 8) = used + w by omega]

/-- A fresh buffer (R243). -/
theorem fresh_inv (ptr : Word) (out : Memory Byte) :
    ({ buf := 0, free := 8, ptr := ptr, out := out } : Packer).Inv :=
  ⟨by show 1 ≤ 8; omega, by show 8 ≤ 8; omega, by show 0 % 2 ^ 8 = 0; rfl⟩

/-- R243: a flush emits one byte, the pending bits and then zeros, and leaves no bit pending. -/
theorem pkFlush_bits {p : Packer} (hp : p.Inv) :
    (pkFlush p).Inv ∧ (pkFlush p).ptr = p.ptr + 1 ∧ (pkFlush p).out = p.out.write p.ptr.toNat p.buf ∧
      (pkFlush p).pending = [] ∧
      bitsOf p.buf.toNat 8 = p.pending ++ List.replicate p.free.toNat false := by
  obtain ⟨h1, h8, hz⟩ := hp
  refine ⟨fresh_inv _ _, rfl, rfl, rfl, ?_⟩
  have hbuf : p.buf.toNat = p.buf.toNat / 2 ^ p.free.toNat * 2 ^ p.free.toNat := by
    have := Nat.div_add_mod p.buf.toNat (2 ^ p.free.toNat)
    rw [hz, Nat.mul_comm] at this; omega
  unfold Packer.pending
  rw [← bitsOf_pad, ← hbuf, show 8 - p.free.toNat + p.free.toNat = 8 by omega]

/-! The whole written sequence. -/

/-- What a packer that started at `start` with nothing pending has written after `n` bytes: the stream's
bits and the pending ones are the sequence pushed so far, and the rest of STREAM is as it was. -/
structure Packer.Wrote (p : Packer) (out₀ : Memory Byte) (start n : Nat) (seq : List Bool) : Prop where
  inv : p.Inv
  ptr : p.ptr.toNat = start + n
  bits : streamBits p.out start n ++ p.pending = seq
  other : ∀ i, i < start ∨ start + n ≤ i → p.out.read i = out₀.read i
  present : ∀ j < n, ∃ b, p.out.read (start + j) = some b
  wf : Memory.wf out₀ = true → Memory.wf p.out = true

theorem Packer.wrote_start (out : Memory Byte) : (Packer.start out).Wrote out 0 0 [] where
  inv := fresh_inv _ _
  ptr := rfl
  bits := rfl
  other := fun _ _ => rfl
  present := by simp
  wf := id

theorem length_pending {p : Packer} : p.pending.length = 8 - p.free.toNat := by simp [Packer.pending]

/-- The number of bytes written is the number of whole bytes in the sequence. -/
theorem Packer.Wrote.count {p : Packer} {out₀ : Memory Byte} {start n : Nat} {seq : List Bool}
    (h : p.Wrote out₀ start n seq) : n = seq.length / 8 ∧ 8 - p.free.toNat = seq.length % 8 := by
  have hl := congrArg List.length h.bits
  rw [List.length_append, length_streamBits, length_pending] at hl
  have := h.inv.1
  omega

/-- An emitted byte extends what was written. -/
theorem Packer.Wrote.emit {p q : Packer} {out₀ : Memory Byte} {start n : Nat} {seq new : List Bool}
    {b : Byte} (h : p.Wrote out₀ start n seq) (hroom : start + n + 1 < 2 ^ 32) (hq : q.Inv)
    (hptr : q.ptr = p.ptr + 1) (hout : q.out = p.out.write p.ptr.toNat b)
    (hbits : bitsOf b.toNat 8 ++ q.pending = p.pending ++ new) :
    q.Wrote out₀ start (n + 1) (seq ++ new) where
  inv := hq
  ptr := by
    rw [hptr, BitVec.toNat_add, h.ptr, show (1 : Word).toNat = 1 from rfl]; omega
  bits := by
    rw [streamBits_succ, hout, h.ptr, Memory.read_write_same, List.append_assoc]
    rw [Option.getD_some, hbits, ← h.bits, List.append_assoc]
    congr 1
    exact streamBits_congr fun j hj => Memory.read_write_ne _ _ (by omega)
  other := by
    intro i hi
    rw [hout, h.ptr, Memory.read_write_ne _ _ (by omega)]
    exact h.other i (by omega)
  present := by
    intro j hj
    rw [hout, h.ptr, Memory.read_write]
    split
    · exact ⟨_, rfl⟩
    · exact h.present j (by omega)
  wf := fun hw => hout ▸ Memory.wf_write _ _ _ (h.wf hw)

/-- R242, R252: a push extends what was written by its bits. -/
theorem Packer.Wrote.push {p : Packer} {out₀ : Memory Byte} {start n x w : Nat} {seq : List Bool}
    (h : p.Wrote out₀ start n seq) (hroom : start + n + 1 < 2 ^ 32) (hw : 1 ≤ w ∧ w ≤ 8)
    (hx : x < 2 ^ w) :
    ∃ n', n ≤ n' ∧ (pkPush x w p).Wrote out₀ start n' (seq ++ bitsOf x w) := by
  obtain ⟨hinv, ⟨_, hptr, hout, hpend⟩ | ⟨_, hptr, b, hout, hbits⟩⟩ := pkPush_bits h.inv hw hx
  · refine ⟨n, le_rfl, ⟨hinv, by rw [hptr, h.ptr], ?_, ?_, ?_, ?_⟩⟩
    · rw [hout, hpend, ← List.append_assoc, h.bits]
    · rw [hout]; exact h.other
    · rw [hout]; exact h.present
    · rw [hout]; exact h.wf
  · exact ⟨n + 1, by omega, h.emit hroom hinv hptr hout hbits⟩

/-- R252: a flush ends the sequence with zeros up to the end of its byte. -/
theorem Packer.Wrote.flush {p : Packer} {out₀ : Memory Byte} {start n : Nat} {seq : List Bool}
    (h : p.Wrote out₀ start n seq) (hroom : start + n + 1 < 2 ^ 32) :
    (pkFlush p).Wrote out₀ start (n + 1) (seq ++ List.replicate p.free.toNat false) := by
  obtain ⟨hinv, hptr, hout, hpend, hbits⟩ := pkFlush_bits h.inv
  exact h.emit hroom hinv hptr hout (by rw [hpend, List.append_nil, hbits])

/-! The unpacker. -/

/-- R45: the unpacker's invariant. -/
abbrev Unpacker.Inv (u : Unpacker) : Prop := u.avail.toNat ≤ 7

/-- The bits an unpacker still has before it: the unread bits of RBUF, then `n` bytes of STREAM. -/
def Unpacker.ahead (u : Unpacker) (stream : Memory Byte) (n : Nat) : List Bool :=
  bitsOf u.buf.toNat u.avail.toNat ++ streamBits stream u.ptr.toNat n

/-- R245 in arithmetic: a pull from the bits RBUF still holds. -/
def Unpacker.pulledHeld (w : Nat) (u : Unpacker) : Nat × Unpacker :=
  (u.buf.toNat / 2 ^ (u.avail.toNat - w) % 2 ^ w, { u with avail := BitVec.ofNat 4 (u.avail.toNat - w) })

/-- R245 in arithmetic: a pull that fetches the byte `b`. -/
def Unpacker.pulledFetched (w : Nat) (u : Unpacker) (b : Byte) : Nat × Unpacker :=
  (u.buf.toNat % 2 ^ u.avail.toNat * 2 ^ (w - u.avail.toNat) +
      b.toNat / 2 ^ (8 - (w - u.avail.toNat)),
    { buf := b, avail := BitVec.ofNat 4 (8 - (w - u.avail.toNat)), ptr := u.ptr + 1 })

theorem upkLoop_zero_need (stream : Memory Byte) (fuel r : Nat) (u : Unpacker) :
    upkLoop stream fuel 0 r u = .ok (r, u) := by
  cases fuel <;> simp [upkLoop]

theorem sub_ofNat4 {a : BitVec 4} {n : Nat} (h : n ≤ a.toNat) :
    a - BitVec.ofNat 4 n = BitVec.ofNat 4 (a.toNat - n) := by
  have := a.isLt
  apply BitVec.eq_of_toNat_eq
  simp only [BitVec.toNat_sub, BitVec.toNat_ofNat]
  omega

/-- A turn that reads from a fresh byte all bits still needed. -/
theorem upkLoop_fetch {stream : Memory Byte} {fuel need r : Nat} {u : Unpacker} (hn : 1 ≤ need ∧ need ≤ 8)
    (h0 : u.avail = 0) :
    upkLoop stream (fuel + 1) need r u =
      match stream.read u.ptr.toNat with
      | none => .error (.uninitRead .stream u.ptr.toNat)
      | some b => .ok (r * 2 ^ need + b.toNat / 2 ^ (8 - need),
          { buf := b, avail := BitVec.ofNat 4 (8 - need), ptr := u.ptr + 1 }) := by
  unfold upkLoop
  rw [if_neg (by omega : need ≠ 0)]
  unfold upkFetch
  rw [if_pos h0]
  cases hr : stream.read u.ptr.toNat with
  | none => simp [fetchElem, hr]
  | some b =>
    have h8 : (8 : BitVec 4).toNat = 8 := rfl
    have hlt : b.toNat / 2 ^ (8 - need) < 2 ^ need := by
      rw [Nat.div_lt_iff_lt_mul (by positivity), ← pow_add, show need + (8 - need) = 8 by omega]
      exact b.isLt
    simp only [fetchElem, hr, h8, show min need 8 = need by omega, Nat.sub_self, upkLoop_zero_need]
    rw [sub_ofNat4 (by rw [h8]; omega), h8, Nat.shiftRight_eq_div_pow, Nat.mod_eq_of_lt hlt,
      Nat.shiftLeft_eq, Nat.mul_comm r, ← Nat.two_pow_add_eq_or_of_lt hlt]

/-- R245: a pull, in arithmetic. It fetches a byte exactly when w > RAVAIL, and then exactly one. -/
theorem upkPull_eq {stream : Memory Byte} {w : Nat} {u : Unpacker} (hu : u.Inv) (hw : 1 ≤ w ∧ w ≤ 8) :
    upkPull stream w u =
      if w ≤ u.avail.toNat then .ok (u.pulledHeld w)
      else
        match stream.read u.ptr.toNat with
        | none => .error (.uninitRead .stream u.ptr.toNat)
        | some b => .ok (u.pulledFetched w b) := by
  obtain ⟨w, rfl⟩ : ∃ w', w = w' + 1 := ⟨w - 1, by omega⟩
  unfold upkPull
  by_cases h0 : u.avail = 0
  · have hz : u.avail.toNat = 0 := by rw [h0]; rfl
    rw [upkLoop_fetch ⟨by omega, by omega⟩ h0, if_neg (by omega)]
    cases stream.read u.ptr.toNat with
    | none => rfl
    | some b => simp [Unpacker.pulledFetched, hz, Nat.mod_one]
  · have hpos : 1 ≤ u.avail.toNat := by
      rcases Nat.eq_zero_or_pos u.avail.toNat with h | h
      · exact absurd (BitVec.eq_of_toNat_eq h) h0
      · exact h
    unfold upkLoop
    rw [if_neg (by omega : w + 1 ≠ 0)]
    unfold upkFetch
    rw [if_neg h0]
    simp only
    by_cases hle : w + 1 ≤ u.avail.toNat
    · rw [if_pos hle]
      simp only [show min (w + 1) u.avail.toNat = w + 1 by omega, Nat.sub_self, upkLoop_zero_need]
      simp [Unpacker.pulledHeld, sub_ofNat4 hle, Nat.shiftRight_eq_div_pow]
    · rw [if_neg hle]
      simp only [show min (w + 1) u.avail.toNat = u.avail.toNat by omega, Nat.sub_self,
        Nat.shiftRight_zero, Nat.zero_shiftLeft, Nat.zero_or]
      obtain ⟨f, rfl⟩ : ∃ f, w = f + 1 := ⟨w - 1, by omega⟩
      rw [upkLoop_fetch ⟨by omega, by omega⟩ (by simp)]
      cases stream.read u.ptr.toNat <;> simp [Unpacker.pulledFetched]

/-- R242, R245: a pull of `w` bits returns the next `w` bits ahead and leaves the rest. -/
theorem upkPull_ahead {stream : Memory Byte} {w n : Nat} {u : Unpacker} (hu : u.Inv)
    (hw : 1 ≤ w ∧ w ≤ 8) (hn : w ≤ u.avail.toNat + 8 * n)
    (hp : ∀ j < n, ∃ b, stream.read (u.ptr.toNat + j) = some b) (hroom : u.ptr.toNat + n < 2 ^ 32) :
    ∃ r u' n', upkPull stream w u = .ok (r, u') ∧ u'.Inv ∧ r < 2 ^ w ∧ n' ≤ n ∧
      u'.ptr.toNat + n' = u.ptr.toNat + n ∧ bitsOf r w ++ u'.ahead stream n' = u.ahead stream n := by
  rw [upkPull_eq hu hw]
  have hu7 : u.avail.toNat ≤ 7 := hu
  split
  · rename_i hle
    have ha : (BitVec.ofNat 4 (u.avail.toNat - w)).toNat = u.avail.toNat - w := by
      rw [BitVec.toNat_ofNat, Nat.mod_eq_of_lt (by omega)]
    refine ⟨_, _, n, rfl, ?_, Nat.mod_lt _ (by positivity), le_rfl, rfl, ?_⟩
    · show (BitVec.ofNat 4 (u.avail.toNat - w)).toNat ≤ 7; omega
    · unfold Unpacker.ahead
      simp only [ha]
      rw [bitsOf_mod, ← List.append_assoc]
      congr 1
      conv_rhs => rw [show u.avail.toNat = w + (u.avail.toNat - w) by omega, bitsOf_add]
      rw [Nat.shiftRight_eq_div_pow]
  · rename_i hgt
    obtain ⟨n, rfl⟩ : ∃ n', n = n' + 1 := ⟨n - 1, by omega⟩
    obtain ⟨b, hb⟩ := hp 0 (by omega)
    rw [Nat.add_zero] at hb
    simp only [hb]
    have ha : (BitVec.ofNat 4 (8 - (w - u.avail.toNat))).toNat = 8 - (w - u.avail.toNat) := by
      rw [BitVec.toNat_ofNat, Nat.mod_eq_of_lt (by omega)]
    have hptr : (u.ptr + 1).toNat = u.ptr.toNat + 1 := by
      rw [BitVec.toNat_add, show (1 : Word).toNat = 1 from rfl]; omega
    have hlt : b.toNat / 2 ^ (8 - (w - u.avail.toNat)) < 2 ^ (w - u.avail.toNat) := by
      rw [Nat.div_lt_iff_lt_mul (by positivity), ← pow_add,
        show w - u.avail.toNat + (8 - (w - u.avail.toNat)) = 8 by omega]
      exact b.isLt
    have hm : u.buf.toNat % 2 ^ u.avail.toNat < 2 ^ u.avail.toNat := Nat.mod_lt _ (by positivity)
    refine ⟨_, _, n, rfl, ?_, ?_, by omega, ?_, ?_⟩
    · show (BitVec.ofNat 4 (8 - (w - u.avail.toNat))).toNat ≤ 7; omega
    · calc u.buf.toNat % 2 ^ u.avail.toNat * 2 ^ (w - u.avail.toNat) +
            b.toNat / 2 ^ (8 - (w - u.avail.toNat))
          < u.buf.toNat % 2 ^ u.avail.toNat * 2 ^ (w - u.avail.toNat) + 2 ^ (w - u.avail.toNat) := by omega
        _ = (u.buf.toNat % 2 ^ u.avail.toNat + 1) * 2 ^ (w - u.avail.toNat) := by ring
        _ ≤ 2 ^ u.avail.toNat * 2 ^ (w - u.avail.toNat) := Nat.mul_le_mul_right _ hm
        _ = 2 ^ w := by rw [← pow_add]; congr 1; omega
    · show (u.ptr + 1).toNat + n = u.ptr.toNat + (n + 1); omega
    · unfold Unpacker.ahead
      simp only [ha, hptr, streamBits_cons, hb, Option.getD_some]
      conv_lhs => rw [show bitsOf _ w = bitsOf _ (u.avail.toNat + (w - u.avail.toNat)) by
        rw [show u.avail.toNat + (w - u.avail.toNat) = w by omega]]
      rw [← bitsOf_append hlt, bitsOf_mod]
      have h8 : bitsOf b.toNat 8 = bitsOf (b.toNat / 2 ^ (8 - (w - u.avail.toNat))) (w - u.avail.toNat) ++
          bitsOf b.toNat (8 - (w - u.avail.toNat)) := by
        rw [← Nat.shiftRight_eq_div_pow, ← bitsOf_add]
        congr 1; omega
      rw [h8]
      simp only [List.append_assoc]

/-- R245, R65: a pull that does not run names the STREAM element at RPTR, which holds ⊥. -/
theorem upkPull_eq_error {stream : Memory Byte} {w : Nat} {u : Unpacker} {f : Fault} (hu : u.Inv)
    (hw : 1 ≤ w ∧ w ≤ 8) (h : upkPull stream w u = .error f) :
    stream.read u.ptr.toNat = none ∧ f = .uninitRead .stream u.ptr.toNat := by
  rw [upkPull_eq hu hw] at h
  split at h
  · cases h
  · cases hr : stream.read u.ptr.toNat with
    | none => rw [hr] at h; exact ⟨rfl, by simpa using h.symm⟩
    | some b => rw [hr] at h; cases h

end Sys2Proof.Machine
end

