-- ==== Sys2Proof/Laws/Sched.lean ====
section
/-! SUPPORT. The derived sizes (R16, R17) and the scan order (R288): SCHED is a rearrangement of all plane
positions, and its widths add up to the stream's bits. -/

namespace Sys2Proof.Machine

theorem dimAt_eq (d k : Nat) : dimAt d k = d / 2 ^ k := Nat.shiftRight_eq_div_pow d k

theorem dimAt_succ (d k : Nat) : dimAt d (k + 1) = dimAt d k / 2 := by
  rw [dimAt_eq, dimAt_eq, pow_succ, Nat.div_div_eq_div_mul]

/-- A dimension divisible by 2^l halves exactly l times. -/
theorem dimAt_double {d l k : Nat} (h : d % 2 ^ l = 0) (hk : k < l) : dimAt d k = 2 * dimAt d (k + 1) := by
  have hd : 2 ^ (k + 1) ∣ d := (pow_dvd_pow 2 hk).trans (Nat.dvd_of_mod_eq_zero h)
  obtain ⟨m, rfl⟩ := hd
  rw [dimAt_eq, dimAt_eq, Nat.mul_div_cancel_left _ (by positivity), pow_succ, Nat.mul_assoc,
    Nat.mul_div_cancel_left _ (by positivity)]

theorem dimAt_zero (d : Nat) : dimAt d 0 = d := by simp [dimAt_eq]

theorem dimAt_le (d k : Nat) : dimAt d k ≤ d := by rw [dimAt_eq]; exact Nat.div_le_self _ _

theorem dimAt_anti (d : Nat) {j k : Nat} (h : j ≤ k) : dimAt d k ≤ dimAt d j := by
  rw [dimAt_eq, dimAt_eq]
  exact Nat.div_le_div_left (Nat.pow_le_pow_right (by omega) h) (by positivity)

theorem dimAt_pos {d l k : Nat} (hd : 1 ≤ d) (h : d % 2 ^ l = 0) (hk : k ≤ l) : 1 ≤ dimAt d k := by
  rw [dimAt_eq]
  apply Nat.div_pos _ (by positivity)
  exact (Nat.pow_le_pow_right (by omega) hk).trans (Nat.le_of_dvd hd (Nat.dvd_of_mod_eq_zero h))

/-- R16: the detail bits as a sum over the levels. -/
theorem detailBits_eq_sum (w h l : Nat) : detailBits w h l =
    ∑ k ∈ Finset.range l, 3 * (w / 2 ^ (k + 1)) * (h / 2 ^ (k + 1)) * (8 - (k + 1)) := by
  induction l with
  | zero => rfl
  | succ l ih => rw [detailBits, ih, Finset.sum_range_succ, dimAt_eq, dimAt_eq]; rfl

/-- R17: a detail value takes at most 7 bits, and there are as many of them as are not LL values. -/
theorem detailBits_le (w h l : Nat) : detailBits w h l + 7 * llBytes w h l ≤ 7 * (w * h) := by
  induction l with
  | zero => simp [detailBits, llBytes, dimAt_zero]
  | succ l ih =>
    have h4 : 4 * llBytes w h (l + 1) ≤ llBytes w h l := by
      unfold llBytes
      rw [dimAt_succ, dimAt_succ]
      calc 4 * (dimAt w l / 2 * (dimAt h l / 2)) = dimAt w l / 2 * 2 * (dimAt h l / 2 * 2) := by ring
        _ ≤ dimAt w l * dimAt h l := Nat.mul_le_mul (Nat.div_mul_le_self _ _) (Nat.div_mul_le_self _ _)
    have h7 : 3 * dimAt w (l + 1) * dimAt h (l + 1) * bitDepth (l + 1) ≤ 21 * llBytes w h (l + 1) := by
      have : bitDepth (l + 1) ≤ 7 := by unfold bitDepth; omega
      calc 3 * dimAt w (l + 1) * dimAt h (l + 1) * bitDepth (l + 1)
          ≤ 3 * dimAt w (l + 1) * dimAt h (l + 1) * 7 := Nat.mul_le_mul_left _ this
        _ = 21 * llBytes w h (l + 1) := by unfold llBytes; ring
    simp only [detailBits]
    omega

theorem llBytes_le (w h l : Nat) : llBytes w h l ≤ w * h := Nat.mul_le_mul (dimAt_le _ _) (dimAt_le _ _)

/-- R17. -/
theorem encLen_le (w h l : Nat) : encLen w h l ≤ w * h + 1 := by
  have h1 := detailBits_le w h l
  have h2 := llBytes_le w h l
  unfold encLen
  omega

theorem decLen_le_encLen (w h l : Nat) : decLen w h l ≤ encLen w h l := by
  unfold decLen encLen; omega

theorem encLen_lt (w h : BitVec 16) (l : Nat) : encLen w.toNat h.toNat l < 2 ^ 32 := by
  have h1 := encLen_le w.toNat h.toNat l
  have h2 : w.toNat * h.toNat ≤ 65535 * 65535 := Nat.mul_le_mul (by omega) (by omega)
  omega

/-! The scan order. -/

theorem mem_schedLevel {w h k : Nat} {e : SchedEntry} :
    e ∈ schedLevel w h k ↔ e.level = k ∧
      ∃ i < dimAt h k, ∃ j < dimAt w k, e.pos = (dimAt h k + i, j) ∨ e.pos = (i, dimAt w k + j) ∨
        e.pos = (dimAt h k + i, dimAt w k + j) := by
  obtain ⟨pos, level⟩ := e
  simp only [schedLevel, List.mem_flatMap, List.map_cons, List.map_nil, List.mem_cons, List.not_mem_nil,
    or_false, subbandPos, SchedEntry.mk.injEq, mem_positions']
  constructor
  · rintro ⟨⟨i, j⟩, ⟨hi, hj⟩, h | h | h⟩ <;> exact ⟨h.2, i, hi, j, hj, by simp [h.1]⟩
  · rintro ⟨rfl, i, hi, j, hj, h | h | h⟩ <;> exact ⟨(i, j), ⟨hi, hj⟩, by simp [h]⟩

theorem nodup_schedLevel (w h k : Nat) : ((schedLevel w h k).map SchedEntry.pos).Nodup := by
  unfold schedLevel
  rw [List.map_flatMap, List.nodup_flatMap]
  constructor
  · rintro ⟨i, j⟩ hij
    have := mem_positions.1 hij
    simp [subbandPos]
    omega
  · refine (nodup_positions _ _).imp_of_mem ?_
    rintro ⟨i, j⟩ ⟨i', j'⟩ h1 h2 hne
    have b1 := mem_positions.1 h1
    have b2 := mem_positions.1 h2
    have hne' : i ≠ i' ∨ j ≠ j' := by
      by_contra hc
      exact hne (by simp only [not_or, not_not] at hc; rw [hc.1, hc.2])
    simp only [Function.onFun, List.disjoint_left, subbandPos, List.map_cons, List.map_nil, List.mem_cons,
      List.not_mem_nil, or_false, Prod.forall]
    rintro a b (h | h | h) <;> simp only [Prod.mk.injEq, not_or] <;> simp only [Prod.mk.injEq] at h <;> omega

/-- R171: a region is the LL block of the next level and that level's details. -/
theorem positions_perm {w h k : Nat} (hw : dimAt w k = 2 * dimAt w (k + 1))
    (hh : dimAt h k = 2 * dimAt h (k + 1)) :
    (positions (dimAt h (k + 1)) (dimAt w (k + 1)) ++ (schedLevel w h (k + 1)).map SchedEntry.pos).Perm
      (positions (dimAt h k) (dimAt w k)) := by
  rw [List.perm_ext_iff_of_nodup]
  · rintro ⟨r, c⟩
    simp only [List.mem_append, mem_positions, List.mem_map, mem_schedLevel, hw, hh]
    constructor
    · rintro (h1 | ⟨e, ⟨_, i, hi, j, hj, h1⟩, h2⟩)
      · omega
      · rw [h2] at h1
        simp only [Prod.mk.injEq] at h1
        omega
    · intro hrc
      by_cases h1 : r < dimAt h (k + 1)
      · by_cases h2 : c < dimAt w (k + 1)
        · exact .inl ⟨h1, h2⟩
        · exact .inr ⟨⟨(r, c), k + 1⟩, ⟨rfl, r, h1, c - dimAt w (k + 1), by omega,
            .inr (.inl (by simp only [Prod.mk.injEq, true_and]; omega))⟩, rfl⟩
      · by_cases h2 : c < dimAt w (k + 1)
        · exact .inr ⟨⟨(r, c), k + 1⟩, ⟨rfl, r - dimAt h (k + 1), by omega, c, h2,
            .inl (by simp only [Prod.mk.injEq, and_true]; omega)⟩, rfl⟩
        · exact .inr ⟨⟨(r, c), k + 1⟩, ⟨rfl, r - dimAt h (k + 1), by omega, c - dimAt w (k + 1), by omega,
            .inr (.inr (by simp only [Prod.mk.injEq]; omega))⟩, rfl⟩
  · rw [List.nodup_append]
    refine ⟨nodup_positions _ _, nodup_schedLevel _ _ _, ?_⟩
    rintro ⟨r, c⟩ h1 ⟨r', c'⟩ h2 heq
    cases heq
    have b1 := mem_positions.1 h1
    obtain ⟨e, he, h3⟩ := List.mem_map.1 h2
    obtain ⟨_, i, hi, j, hj, h4⟩ := mem_schedLevel.1 he
    rw [h3] at h4
    simp only [Prod.mk.injEq] at h4
    omega
  · exact nodup_positions _ _

/-- R288: SCHED visits every plane position exactly once. -/
theorem sched_perm {w h l : Nat} (hw : w % 2 ^ l = 0) (hh : h % 2 ^ l = 0) :
    ((sched w h l).map SchedEntry.pos).Perm (positions h w) := by
  have key : ∀ k ≤ l, ((sched w h k).map SchedEntry.pos).Perm (positions h w) := by
    intro k
    induction k with
    | zero => intro _; simp [sched, dimAt_zero, Function.comp_def]
    | succ k ih =>
      intro hk
      refine List.Perm.trans ?_ (ih (by omega))
      have hp := positions_perm (dimAt_double hw (by omega : k < l)) (dimAt_double hh (by omega : k < l))
      simp only [sched, List.map_append, List.map_map, List.range_succ, List.flatMap_append,
        List.flatMap_singleton, Function.comp_def, List.map_id']
      refine List.Perm.trans ?_ (hp.append_right _)
      rw [List.append_assoc]
      exact (List.perm_append_comm).append_left _
  exact key l le_rfl

theorem nodup_sched {w h l : Nat} (hw : w % 2 ^ l = 0) (hh : h % 2 ^ l = 0) :
    ((sched w h l).map SchedEntry.pos).Nodup :=
  (sched_perm hw hh).nodup_iff.2 (nodup_positions _ _)

theorem mem_sched_pos {w h l r c : Nat} (hw : w % 2 ^ l = 0) (hh : h % 2 ^ l = 0) :
    (r, c) ∈ (sched w h l).map SchedEntry.pos ↔ r < h ∧ c < w := by
  rw [(sched_perm hw hh).mem_iff, mem_positions]

theorem pos_lt_of_mem_sched {w h l : Nat} {e : SchedEntry} (hw : w % 2 ^ l = 0) (hh : h % 2 ^ l = 0)
    (he : e ∈ sched w h l) : e.pos.1 < h ∧ e.pos.2 < w :=
  (mem_sched_pos hw hh).1 (List.mem_map.2 ⟨e, he, rfl⟩)

theorem planeIndex_lt {w h : Nat} {rc : Nat × Nat} (h1 : rc.1 < h) (h2 : rc.2 < w) :
    planeIndex w rc < w * h := by
  unfold planeIndex
  calc rc.1 * w + rc.2 < rc.1 * w + w := by omega
    _ = (rc.1 + 1) * w := by ring
    _ ≤ h * w := Nat.mul_le_mul_right _ h1
    _ = w * h := Nat.mul_comm _ _

/-- The levels of SCHED's entries. -/
theorem level_le_of_mem_sched {w h l : Nat} {e : SchedEntry} (he : e ∈ sched w h l) : e.level ≤ l := by
  simp only [sched, List.mem_append, List.mem_map, List.mem_flatMap, List.mem_range] at he
  rcases he with ⟨_, _, rfl⟩ | ⟨k, hk, he⟩
  · exact Nat.zero_le _
  · have := (mem_schedLevel.1 he).1; omega

theorem bits_range {e : SchedEntry} (h : e.level ≤ 7) : 1 ≤ e.bits ∧ e.bits ≤ 8 := by
  unfold SchedEntry.bits bitDepth; split <;> omega

theorem sum_const_bits {es : List SchedEntry} {b : Nat} (h : ∀ e ∈ es, e.bits = b) :
    (es.map SchedEntry.bits).sum = es.length * b := by
  induction es with
  | nil => simp
  | cons e es ih =>
    rw [List.map_cons, List.sum_cons, h e (by simp), ih fun e he => h e (by simp [he]), List.length_cons]
    ring

theorem schedLevel_bits (w h k : Nat) (hk : 1 ≤ k) :
    ((schedLevel w h k).map SchedEntry.bits).sum = 3 * dimAt w k * dimAt h k * bitDepth k := by
  rw [sum_const_bits (b := bitDepth k)]
  · have : (schedLevel w h k).length = 3 * dimAt w k * dimAt h k := by
      unfold schedLevel
      rw [List.length_flatMap]
      simp only [List.length_map, List.length_cons, List.length_nil, List.map_const', List.sum_replicate,
        length_positions, smul_eq_mul]
      ring
    rw [this]
  · intro e he
    have := (mem_schedLevel.1 he).1
    unfold SchedEntry.bits; rw [this, if_neg (by omega)]

/-- R288: the widths of SCHED add up to the LL bytes and the detail bits. -/
theorem sched_bits (w h l : Nat) :
    ((sched w h l).map SchedEntry.bits).sum = 8 * llBytes w h l + detailBits w h l := by
  have hdet : ∀ l, (((List.range l).flatMap fun k => schedLevel w h (k + 1)).map SchedEntry.bits).sum =
      detailBits w h l := by
    intro l
    induction l with
    | zero => rfl
    | succ l ih =>
      rw [List.range_succ, List.flatMap_append, List.map_append, List.sum_append, ih,
        List.flatMap_singleton, schedLevel_bits _ _ _ (by omega)]
      rfl
  unfold sched
  rw [List.map_append, List.sum_append, hdet, sum_const_bits (b := 8)]
  · rw [List.length_map, length_positions]; unfold llBytes; ring
  · intro e he
    obtain ⟨_, _, rfl⟩ := List.mem_map.1 he
    rfl

end Sys2Proof.Machine
end

