-- ==== Sys2Proof/Laws/Codec.lean ====
section
/-! SUPPORT. The loops of QPACK and UNPACK_DQ over SCHED (R290, R292), for any list of entries: what they
answer, when they fault, and that they undo each other. -/

namespace Sys2Proof.Machine

/-! Quantizing. -/

/-- R210, R212: an index fits the width of its level. -/
theorem quantize_lt {k : Nat} (hk : k ≤ 7) (v : Word) : (quantize k v).1 < 2 ^ (8 - k) := by
  unfold quantize
  split
  · rename_i h0
    subst h0
    unfold satTrunc8
    split_ifs <;> simp <;> split_ifs <;> simp; omega
  · unfold qdet
    have hp : 0 < 2 ^ (8 - k) := by positivity
    have hc : (((2 ^ (8 - k) - 1 : Nat) : Int)) = 2 ^ (8 - k) - 1 := by
      rw [Nat.cast_sub (by omega)]; push_cast; rfl
    split_ifs
    · exact hp
    · exact hp
    · simp
    · generalize (2 * f32Units v + 255 * 2 ^ 149).fdiv (2 ^ (150 + k)) = t
      simp only
      split_ifs
      · exact hp
      · simp
      · rename_i h1 h2
        simp only
        rw [Int.not_lt, hc] at h2
        rw [Int.toNat_lt (by omega)]
        push_cast
        omega

theorem quantize_lt_bits {e : SchedEntry} (h : e.level ≤ 7) (v : Word) :
    (quantize e.level v).1 < 2 ^ e.bits := by
  have hq := quantize_lt h v
  unfold SchedEntry.bits bitDepth
  split
  · rename_i h0; rw [h0] at hq ⊢; exact hq
  · exact hq

/-! Pushes one after another. -/

theorem pushedBits_cons (x w : Nat) (ps : List (Nat × Nat)) :
    pushedBits ((x, w) :: ps) = bitsOf x w ++ pushedBits ps := rfl

theorem length_pushedBits (ps : List (Nat × Nat)) :
    (pushedBits ps).length = (ps.map Prod.snd).sum := by
  induction ps with
  | nil => rfl
  | cons p ps ih => obtain ⟨x, w⟩ := p; rw [pushedBits_cons, List.length_append, length_bitsOf, ih]; rfl

/-- R252: what a packer has written after pushes. -/
theorem Packer.Wrote.foldl {ps : List (Nat × Nat)} (hps : ∀ xw ∈ ps, 1 ≤ xw.2 ∧ xw.2 ≤ 8 ∧ xw.1 < 2 ^ xw.2)
    {p : Packer} {out₀ : Memory Byte} {start n : Nat} {seq : List Bool} (h : p.Wrote out₀ start n seq)
    (hroom : start + (seq.length + (ps.map Prod.snd).sum) / 8 + 1 < 2 ^ 32) :
    ∃ n', n ≤ n' ∧ (ps.foldl (fun p xw => pkPush xw.1 xw.2 p) p).Wrote out₀ start n' (seq ++ pushedBits ps) := by
  induction ps generalizing p n seq with
  | nil => exact ⟨n, le_rfl, by simpa [pushedBits] using h⟩
  | cons xw ps ih =>
    obtain ⟨x, w⟩ := xw
    simp only [List.forall_mem_cons, List.map_cons, List.sum_cons] at hps hroom
    obtain ⟨⟨h1, h8, hx⟩, hps⟩ := hps
    have hcount := h.count.1
    obtain ⟨n', hn, hw⟩ := h.push (by omega) ⟨h1, h8⟩ hx
    obtain ⟨n'', hn', hw'⟩ := ih hps hw (by rw [List.length_append, length_bitsOf]; omega)
    exact ⟨n'', by omega, by rw [pushedBits_cons, ← List.append_assoc]; exact hw'⟩

/-- R252: the stream after pushes and a flush. -/
theorem Packer.Wrote.foldl_flush {ps : List (Nat × Nat)}
    (hps : ∀ xw ∈ ps, 1 ≤ xw.2 ∧ xw.2 ≤ 8 ∧ xw.1 < 2 ^ xw.2) {p : Packer} (hp : p.free = 8) (hb : p.buf = 0)
    {total : Nat} (ht : total = (ps.map Prod.snd).sum) (hroom : p.ptr.toNat + total / 8 + 1 < 2 ^ 32) :
    (pkFlush (ps.foldl (fun p xw => pkPush xw.1 xw.2 p) p)).Wrote p.out p.ptr.toNat (total / 8 + 1)
      (pushedBits ps ++ List.replicate (8 * (total / 8 + 1) - total) false) := by
  have h0 : p.Wrote p.out p.ptr.toNat 0 [] := by
    refine ⟨?_, rfl, ?_, fun _ _ => rfl, by simp, id⟩
    · rw [Packer.Inv, hp, hb]; decide
    · rw [streamBits_zero, Packer.pending, hp]; rfl
  obtain ⟨n, _, hw⟩ := h0.foldl hps (by simpa [ht] using hroom)
  have hc := hw.count
  rw [List.nil_append, length_pushedBits, ← ht] at hc
  have hf := hw.flush (by rw [hc.1]; exact hroom)
  have h8 := hw.inv.2.1
  have h1 := hw.inv.1
  rw [List.nil_append, hc.1, show (ps.foldl (fun p xw => pkPush xw.1 xw.2 p) p).free.toNat =
    8 * (total / 8 + 1) - total by omega] at hf
  exact hf

/-! QPACK's loop. -/

/-- The pushes QPACK's loop makes. -/
def schedPushes (w : Nat) (plane : Memory Word) (es : List SchedEntry) : List (Nat × Nat) :=
  es.map fun e => ((quantize e.level (planeAt w plane e.pos.1 e.pos.2)).1, e.bits)

theorem schedPushes_bits (w : Nat) (plane : Memory Word) (es : List SchedEntry) :
    (schedPushes w plane es).map Prod.snd = es.map SchedEntry.bits := by
  simp [schedPushes, Function.comp_def]

/-- R290: QPACK's loop succeeds exactly when every element holds a value, and pushes the indices. -/
theorem packSched_eq_ok {w : Nat} {plane : Memory Word} {es : List SchedEntry} {p p' : Packer}
    {cl cl' : Bool} : packSched w plane es p cl = .ok (p', cl') ↔
      (∀ e ∈ es, ∃ v, plane.read (planeIndex w e.pos) = some v) ∧
      p' = (schedPushes w plane es).foldl (fun p xw => pkPush xw.1 xw.2 p) p ∧
      cl' = (cl || es.any fun e => (quantize e.level (planeAt w plane e.pos.1 e.pos.2)).2) := by
  induction es generalizing p cl with
  | nil => simp [packSched, schedPushes, eq_comm]
  | cons e es ih =>
    simp only [packSched, fetchElem, List.forall_mem_cons]
    cases hr : plane.read (planeIndex w e.pos) with
    | none => simp
    | some v =>
      have hv : planeAt w plane e.pos.1 e.pos.2 = v := by
        unfold planeAt; rw [show (e.pos.1, e.pos.2) = e.pos from rfl, hr]; rfl
      simp only [ih, schedPushes, List.map_cons, List.foldl_cons, List.any_cons, hv, Bool.or_assoc]
      simp

theorem packSched_eq_error {w : Nat} {plane : Memory Word} {es : List SchedEntry} {p : Packer}
    {cl : Bool} {f : Fault} (h : packSched w plane es p cl = .error f) :
    ∃ e ∈ es, plane.read (planeIndex w e.pos) = none ∧ f = .uninitRead .plane (planeIndex w e.pos) := by
  induction es generalizing p cl with
  | nil => simp [packSched] at h
  | cons e es ih =>
    simp only [packSched] at h
    cases hr : fetchElem .plane plane (planeIndex w e.pos) with
    | error f' =>
      rw [hr] at h; cases h
      exact ⟨e, by simp, (fetchElem_eq_error.1 hr).1, (fetchElem_eq_error.1 hr).2⟩
    | ok v =>
      rw [hr] at h
      obtain ⟨e', he', h'⟩ := ih h
      exact ⟨e', by simp [he'], h'⟩

/-- R290: what QPACK leaves, on any list of entries of levels 0 to 7. -/
theorem qpack_wrote {w : Nat} {plane : Memory Word} {es : List SchedEntry} (hl : ∀ e ∈ es, e.level ≤ 7)
    {out : Memory Byte} {total : Nat} (ht : total = (es.map SchedEntry.bits).sum)
    (hroom : total / 8 + 1 < 2 ^ 32) {p : Packer} {cl : Bool}
    (h : packSched w plane es (Packer.start out) false = .ok (p, cl)) :
    (pkFlush p).Wrote out 0 (total / 8 + 1)
      (pushedBits (schedPushes w plane es) ++ List.replicate (8 * (total / 8 + 1) - total) false) := by
  obtain ⟨_, rfl, _⟩ := packSched_eq_ok.1 h
  refine Packer.Wrote.foldl_flush ?_ (p := Packer.start out) rfl rfl ?_ ?_
  · intro xw hxw
    obtain ⟨e, he, rfl⟩ := List.mem_map.1 hxw
    have := bits_range (hl e he)
    exact ⟨this.1, this.2, quantize_lt_bits (hl e he) _⟩
  · rw [schedPushes_bits]; exact ht
  · simpa [Packer.start] using hroom

/-! UNPACK_DQ's loop. -/

/-- The plane writes of UNPACK_DQ for indices `qs`. -/
def schedWrites (w : Nat) (qs : List Nat) (es : List SchedEntry) : List (Nat × Word) :=
  (qs.zip es).map fun qe => (planeIndex w qe.2.pos, dequantize qe.2.level qe.1)

/-- R292: UNPACK_DQ's loop with enough bytes ahead: it reads an index a entry, bit for bit the stream's,
and writes their reconstructions. -/
theorem unpackSched_ahead {w : Nat} {stream : Memory Byte} {es : List SchedEntry}
    (hl : ∀ e ∈ es, e.level ≤ 7) {u : Unpacker} (hu : u.Inv) {n : Nat}
    (hn : (es.map SchedEntry.bits).sum ≤ u.avail.toNat + 8 * n)
    (hp : ∀ j < n, ∃ b, stream.read (u.ptr.toNat + j) = some b) (hroom : u.ptr.toNat + n < 2 ^ 32)
    (plane : Memory Word) :
    ∃ qs u' n', unpackSched w stream es u plane = .ok (u', plane.writeAll (schedWrites w qs es)) ∧
      qs.length = es.length ∧ (∀ qe ∈ qs.zip es, qe.1 < 2 ^ qe.2.bits) ∧ u'.Inv ∧ n' ≤ n ∧
      u'.ptr.toNat + n' = u.ptr.toNat + n ∧
      pushedBits (qs.zip (es.map SchedEntry.bits)) ++ u'.ahead stream n' = u.ahead stream n := by
  induction es generalizing u n plane with
  | nil => exact ⟨[], u, n, rfl, rfl, by simp, hu, le_rfl, rfl, rfl⟩
  | cons e es ih =>
    simp only [List.forall_mem_cons, List.map_cons, List.sum_cons] at hl hn
    have hb := bits_range hl.1
    obtain ⟨q, u1, n1, h1, hu1, hq, hn1, hptr, hah⟩ := upkPull_ahead hu hb (by omega) hp hroom
    have hlen := congrArg List.length hah
    simp only [List.length_append, length_bitsOf, Unpacker.ahead, length_streamBits] at hlen
    obtain ⟨qs, u', n', h2, hlen2, hq2, hu', hn', hptr', hah'⟩ := ih hl.2 hu1 (n := n1) (by omega)
      (fun j hj => by
        obtain ⟨b, hbj⟩ := hp (n - n1 + j) (by omega)
        exact ⟨b, by rw [← hbj]; congr 1; omega⟩) (by omega)
      (plane.write (planeIndex w e.pos) (dequantize e.level q))
    refine ⟨q :: qs, u', n', ?_, by simp [hlen2], ?_, hu', by omega, by omega, ?_⟩
    · simp only [unpackSched, h1, h2]; rfl
    · simpa using ⟨hq, fun a b hab => hq2 (a, b) hab⟩
    · simp only [List.map_cons, List.zip_cons_cons, pushedBits_cons, List.append_assoc, hah', hah]

/-- R292: UNPACK_DQ's loop reads the stream only where it must. -/
theorem unpackSched_congr {w : Nat} {stream stream' : Memory Byte} {es : List SchedEntry}
    (hl : ∀ e ∈ es, e.level ≤ 7) {u : Unpacker} (hu : u.Inv) {n : Nat}
    (hn : (es.map SchedEntry.bits).sum ≤ u.avail.toNat + 8 * n) (hroom : u.ptr.toNat + n < 2 ^ 32)
    (hs : ∀ j < n, stream.read (u.ptr.toNat + j) = stream'.read (u.ptr.toNat + j)) (plane : Memory Word) :
    unpackSched w stream es u plane = unpackSched w stream' es u plane := by
  induction es generalizing u n plane with
  | nil => rfl
  | cons e es ih =>
    simp only [List.forall_mem_cons, List.map_cons, List.sum_cons] at hl hn
    have hb := bits_range hl.1
    have hu7 : u.avail.toNat ≤ 7 := hu
    simp only [unpackSched, upkPull_eq hu hb]
    by_cases hle : e.bits ≤ u.avail.toNat
    · simp only [hle, if_true, Unpacker.pulledHeld]
      have ha : (BitVec.ofNat 4 (u.avail.toNat - e.bits)).toNat = u.avail.toNat - e.bits := by
        rw [BitVec.toNat_ofNat, Nat.mod_eq_of_lt (by omega)]
      apply ih hl.2 (n := n)
      · show (BitVec.ofNat 4 (u.avail.toNat - e.bits)).toNat ≤ 7; omega
      · simp only [ha]; omega
      · exact hroom
      · exact hs
    · simp only [hle, if_false]
      have h0 := hs 0 (by omega)
      rw [Nat.add_zero] at h0
      rw [← h0]
      cases stream.read u.ptr.toNat with
      | none => rfl
      | some b =>
        simp only [Unpacker.pulledFetched]
        have ha : (BitVec.ofNat 4 (8 - (e.bits - u.avail.toNat))).toNat = 8 - (e.bits - u.avail.toNat) := by
          rw [BitVec.toNat_ofNat, Nat.mod_eq_of_lt (by omega)]
        have hptr : (u.ptr + 1).toNat = u.ptr.toNat + 1 := by
          rw [BitVec.toNat_add, show (1 : Word).toNat = 1 from rfl]; omega
        apply ih hl.2 (n := n - 1)
        · show (BitVec.ofNat 4 (8 - (e.bits - u.avail.toNat))).toNat ≤ 7; omega
        · simp only [ha]; omega
        · simp only [hptr]; omega
        · intro j hj
          simp only [hptr]
          have := hs (j + 1) (by omega)
          rwa [show u.ptr.toNat + 1 + j = u.ptr.toNat + (j + 1) by omega]

/-- R65: a fault of UNPACK_DQ's loop names a stream element that holds ⊥. -/
theorem unpackSched_eq_error {w : Nat} {stream : Memory Byte} {es : List SchedEntry}
    (hl : ∀ e ∈ es, e.level ≤ 7) {u : Unpacker} (hu : u.Inv) {plane : Memory Word} {f : Fault}
    (h : unpackSched w stream es u plane = .error f) :
    ∃ i, stream.read i = none ∧ f = .uninitRead .stream i := by
  induction es generalizing u plane with
  | nil => simp [unpackSched] at h
  | cons e es ih =>
    simp only [List.forall_mem_cons] at hl
    have hb := bits_range hl.1
    have hu7 : u.avail.toNat ≤ 7 := hu
    simp only [unpackSched] at h
    cases hr : upkPull stream e.bits u with
    | error f' =>
      rw [hr] at h; cases h
      exact ⟨_, upkPull_eq_error hu hb hr⟩
    | ok r =>
      obtain ⟨q, u1⟩ := r
      rw [hr] at h
      refine ih hl.2 ?_ h
      rw [upkPull_eq hu hb] at hr
      split at hr
      · cases hr
        show (BitVec.ofNat 4 (u.avail.toNat - e.bits)).toNat ≤ 7
        rw [BitVec.toNat_ofNat, Nat.mod_eq_of_lt (by omega)]; omega
      · split at hr
        · cases hr
        · cases hr
          show (BitVec.ofNat 4 (8 - (e.bits - u.avail.toNat))).toNat ≤ 7
          rw [BitVec.toNat_ofNat, Nat.mod_eq_of_lt (by omega)]; omega

/-- R292: whatever the stream, the loop ends with at most 7 bits left in RBUF and writes one value an
entry. -/
theorem unpackSched_ok {w : Nat} {stream : Memory Byte} {es : List SchedEntry}
    (hl : ∀ e ∈ es, e.level ≤ 7) {u u' : Unpacker} (hu : u.Inv) {plane plane' : Memory Word}
    (h : unpackSched w stream es u plane = .ok (u', plane')) :
    u'.Inv ∧ ∃ qs, qs.length = es.length ∧ plane' = plane.writeAll (schedWrites w qs es) := by
  induction es generalizing u plane with
  | nil => cases h; exact ⟨hu, [], rfl, rfl⟩
  | cons e es ih =>
    simp only [List.forall_mem_cons] at hl
    have hb := bits_range hl.1
    have hu7 : u.avail.toNat ≤ 7 := hu
    simp only [unpackSched] at h
    cases hr : upkPull stream e.bits u with
    | error f' => rw [hr] at h; cases h
    | ok r =>
      obtain ⟨q, u1⟩ := r
      rw [hr] at h
      have hu1 : u1.Inv := by
        rw [upkPull_eq hu hb] at hr
        split at hr
        · cases hr
          show (BitVec.ofNat 4 (u.avail.toNat - e.bits)).toNat ≤ 7
          rw [BitVec.toNat_ofNat, Nat.mod_eq_of_lt (by omega)]; omega
        · split at hr
          · cases hr
          · cases hr
            show (BitVec.ofNat 4 (8 - (e.bits - u.avail.toNat))).toNat ≤ 7
            rw [BitVec.toNat_ofNat, Nat.mod_eq_of_lt (by omega)]; omega
      obtain ⟨h1, qs, h2, h3⟩ := ih hl.2 hu1 h
      exact ⟨h1, q :: qs, by simp [h2], by rw [h3]; rfl⟩

/-- R245, R292: RBUF holds the byte fetched last. -/
theorem upkPull_buf {stream : Memory Byte} {w r : Nat} {u u' : Unpacker} (hu : u.Inv) (hw : 1 ≤ w ∧ w ≤ 8)
    (hb : u.ptr = 0 ∨ stream.read (u.ptr.toNat - 1) = some u.buf) (h : upkPull stream w u = .ok (r, u')) :
    u'.Inv ∧ (u'.ptr = 0 ∨ stream.read (u'.ptr.toNat - 1) = some u'.buf) := by
  have hu7 : u.avail.toNat ≤ 7 := hu
  rw [upkPull_eq hu hw] at h
  split at h
  · cases h
    refine ⟨?_, hb⟩
    show (BitVec.ofNat 4 (u.avail.toNat - w)).toNat ≤ 7
    rw [BitVec.toNat_ofNat, Nat.mod_eq_of_lt (by omega)]; omega
  · split at h
    · cases h
    · rename_i b hr
      cases h
      constructor
      · show (BitVec.ofNat 4 (8 - (w - u.avail.toNat))).toNat ≤ 7
        rw [BitVec.toNat_ofNat, Nat.mod_eq_of_lt (by omega)]; omega
      · show u.ptr + 1 = 0 ∨ stream.read ((u.ptr + 1).toNat - 1) = some b
        by_cases h0 : u.ptr + 1 = 0
        · exact .inl h0
        · right
          have hne : (u.ptr + 1).toNat ≠ 0 := fun h => h0 (BitVec.eq_of_toNat_eq (by simpa using h))
          rw [← hr]
          congr 1
          rw [BitVec.toNat_add, show (1 : Word).toNat = 1 from rfl] at hne ⊢
          have := u.ptr.isLt
          omega

/-- R292: after UNPACK_DQ's loop RBUF holds the byte fetched last. -/
theorem unpackSched_buf {w : Nat} {stream : Memory Byte} {es : List SchedEntry}
    (hl : ∀ e ∈ es, e.level ≤ 7) {u u' : Unpacker} (hu : u.Inv) {plane plane' : Memory Word}
    (hb : u.ptr = 0 ∨ stream.read (u.ptr.toNat - 1) = some u.buf)
    (h : unpackSched w stream es u plane = .ok (u', plane')) :
    u'.ptr = 0 ∨ stream.read (u'.ptr.toNat - 1) = some u'.buf := by
  induction es generalizing u plane with
  | nil => cases h; exact hb
  | cons e es ih =>
    simp only [List.forall_mem_cons] at hl
    simp only [unpackSched] at h
    cases hr : upkPull stream e.bits u with
    | error f' => rw [hr] at h; cases h
    | ok r =>
      obtain ⟨q, u1⟩ := r
      rw [hr] at h
      obtain ⟨h1, h2⟩ := upkPull_buf hu (bits_range hl.1) hb hr
      exact ih hl.2 h1 h2 h

/-- What the plane holds after UNPACK_DQ's writes. -/
theorem read_schedWrites {w : Nat} {qs : List Nat} {es : List SchedEntry} (hlen : qs.length = es.length)
    (hpos : ∀ e ∈ es, e.pos.2 < w) (hnd : (es.map SchedEntry.pos).Nodup) (plane : Memory Word) :
    (∀ qe ∈ qs.zip es, (plane.writeAll (schedWrites w qs es)).read (planeIndex w qe.2.pos) =
      some (dequantize qe.2.level qe.1)) ∧
    ∀ i, (∀ e ∈ es, planeIndex w e.pos ≠ i) →
      (plane.writeAll (schedWrites w qs es)).read i = plane.read i := by
  have hfst : (schedWrites w qs es).map Prod.fst = es.map fun e => planeIndex w e.pos := by
    unfold schedWrites
    rw [List.map_map, show (Prod.fst ∘ fun qe : Nat × SchedEntry =>
      (planeIndex w qe.2.pos, dequantize qe.2.level qe.1)) = (fun e => planeIndex w e.pos) ∘ Prod.snd from rfl,
      ← List.map_map, List.map_snd_zip (by omega)]
  have hnd' : ((schedWrites w qs es).map Prod.fst).Nodup := by
    rw [hfst, show (fun e : SchedEntry => planeIndex w e.pos) = planeIndex w ∘ SchedEntry.pos from rfl,
      ← List.map_map]
    refine List.Nodup.map_on ?_ hnd
    intro a ha b hb hab
    obtain ⟨e, he, rfl⟩ := List.mem_map.1 ha
    obtain ⟨e', he', rfl⟩ := List.mem_map.1 hb
    exact planeIndex_inj (hpos e he) (hpos e' he') hab
  constructor
  · intro qe hqe
    exact Memory.read_writeAll_of_mem _ _ _ _ (List.mem_map.2 ⟨qe, hqe, rfl⟩) hnd'
  · intro i hi
    apply Memory.read_writeAll_of_notMem
    intro p hp
    have : p.1 ∈ (schedWrites w qs es).map Prod.fst := List.mem_map.2 ⟨p, hp, rfl⟩
    rw [hfst] at this
    obtain ⟨e, he, h⟩ := List.mem_map.1 this
    rw [← h]; exact hi e he

/-- Widths and bits determine the values pushed (R262). -/
theorem pushedBits_inj {xs ys ws : List Nat} (hx : xs.length = ws.length) (hy : ys.length = ws.length)
    (hxs : ∀ p ∈ xs.zip ws, p.1 < 2 ^ p.2) (hys : ∀ p ∈ ys.zip ws, p.1 < 2 ^ p.2)
    {r r' : List Bool} (h : pushedBits (xs.zip ws) ++ r = pushedBits (ys.zip ws) ++ r') :
    xs = ys ∧ r = r' := by
  induction ws generalizing xs ys with
  | nil =>
    rw [List.length_eq_zero_iff.1 hx, List.length_eq_zero_iff.1 hy] at *
    exact ⟨rfl, h⟩
  | cons w ws ih =>
    obtain ⟨x, xs, rfl⟩ := List.exists_cons_of_length_eq_add_one hx
    obtain ⟨y, ys, rfl⟩ := List.exists_cons_of_length_eq_add_one hy
    simp only [List.zip_cons_cons, pushedBits_cons, List.append_assoc, List.forall_mem_cons,
      List.length_cons, Nat.add_right_cancel_iff] at *
    obtain ⟨h1, h2⟩ := List.append_inj h (by simp)
    obtain ⟨h3, h4⟩ := ih hx hy hxs.2 hys.2 h2
    exact ⟨by rw [bitsOf_inj hxs.1 hys.1 h1, h3], h4⟩

/-! The commands' use of SCHED. -/

/-- R17: the encoded stream of a valid configuration fits. -/
theorem encLen_le_cap {s : State} (hl : s.params.Legal) (hc : s.CfgOk) : s.encLen ≤ s.params.bsCap := by
  have h1 := encLen_le s.width.toNat s.height.toNat s.levels.toNat
  have h2 : s.width.toNat * s.height.toNat ≤ s.params.wMax * s.params.hMax :=
    Nat.mul_le_mul hc.2.1.2 hc.2.2.1.2
  obtain ⟨_, _, h3, _⟩ := hl
  unfold State.encLen; omega

theorem planeAt_of_read {w : Nat} {plane : Memory Word} {rc : Nat × Nat} {v : Word}
    (h : plane.read (planeIndex w rc) = some v) : planeAt w plane rc.1 rc.2 = v := by
  unfold planeAt; rw [show (rc.1, rc.2) = rc from rfl, h]; rfl

/-- The entries of a state's SCHED. -/
abbrev State.entries (s : State) : List SchedEntry :=
  sched s.width.toNat s.height.toNat s.levels.toNat

theorem entries_level (s : State) : ∀ e ∈ s.entries, e.level ≤ 7 := by
  intro e he
  have := level_le_of_mem_sched he
  omega

theorem entries_pos {s : State} (hc : s.CfgOk) {e : SchedEntry} (he : e ∈ s.entries) :
    e.pos.1 < s.height.toNat ∧ e.pos.2 < s.width.toNat :=
  pos_lt_of_mem_sched hc.2.2.2.1 hc.2.2.2.2 he

theorem entries_present {s : State} (hc : s.CfgOk)
    (hp : s.plane.PresentBelow (s.width.toNat * s.height.toNat)) :
    ∀ e ∈ s.entries, ∃ v, s.plane.read (planeIndex s.width.toNat e.pos) = some v := fun _ he =>
  hp _ (planeIndex_lt (entries_pos hc he).1 (entries_pos hc he).2)

/-- R290: the pushed bits and the final byte make ENC_LEN bytes. -/
theorem entries_encLen (s : State) : (s.entries.map SchedEntry.bits).sum / 8 + 1 = s.encLen := by
  rw [sched_bits]; unfold State.encLen Machine.encLen; omega

/-- R294: the bits of SCHED are in DEC_LEN bytes, all but at most 7 of whose bits are needed. -/
theorem entries_decLen (s : State) :
    (s.entries.map SchedEntry.bits).sum ≤ 8 * s.decLen ∧
      8 * s.decLen ≤ (s.entries.map SchedEntry.bits).sum + 7 := by
  rw [sched_bits]; unfold State.decLen Machine.decLen; omega

/-- R16: a valid configuration has at least one LL byte. -/
theorem decLen_pos {s : State} (hc : s.CfgOk) : 1 ≤ s.decLen := by
  have h1 := dimAt_pos hc.2.1.1 hc.2.2.2.1 le_rfl
  have h2 := dimAt_pos hc.2.2.1.1 hc.2.2.2.2 le_rfl
  have : 1 ≤ llBytes s.width.toNat s.height.toNat s.levels.toNat := Nat.mul_pos h1 h2
  unfold State.decLen Machine.decLen; omega

theorem State.encLen_lt (s : State) : s.encLen < 2 ^ 32 := Machine.encLen_lt _ _ _

theorem State.decLen_lt (s : State) : s.decLen < 2 ^ 32 :=
  lt_of_le_of_lt (decLen_le_encLen _ _ _) (Machine.encLen_lt _ _ _)

end Sys2Proof.Machine
end

