-- ==== Sys2Proof/Laws/Float.lean ====
section
/-! SUPPORT. The laws of the binary32 primitives (R13): the fields of an encoding, what a rounded
magnitude decodes to, exactness of representable results, and dyadic values, on which add32, sub32 and
half32 are exact. -/

namespace Sys2Proof.Machine

/-! Fields. -/

theorem f32Exp_eq (x : Word) : f32Exp x = x.toNat / 2 ^ 23 % 2 ^ 8 := by
  simp [f32Exp, BitVec.extractLsb'_toNat, Nat.shiftRight_eq_div_pow]

theorem f32Frac_eq (x : Word) : f32Frac x = x.toNat % 2 ^ 23 := by
  simp [f32Frac, BitVec.extractLsb'_toNat]

theorem f32Sign_eq (x : Word) : f32Sign x = decide (2 ^ 31 ≤ x.toNat) := by
  have h := BitVec.msb_eq_decide x
  rw [BitVec.msb_eq_getLsbD_last] at h
  exact h

theorem f32Exp_lt (x : Word) : f32Exp x < 256 := by rw [f32Exp_eq]; omega

theorem f32Frac_lt (x : Word) : f32Frac x < 2 ^ 23 := by rw [f32Frac_eq]; omega

/-- An encoding is its three fields. -/
theorem toNat_eq_fields (x : Word) :
    x.toNat = (if f32Sign x then 2 ^ 31 else 0) + f32Exp x * 2 ^ 23 + f32Frac x := by
  have := x.isLt
  rw [f32Exp_eq, f32Frac_eq, f32Sign_eq]
  by_cases h : 2 ^ 31 ≤ x.toNat <;> simp only [h, decide_true, decide_false, if_true] <;> simp <;> omega

/-- The fields of a packed encoding. -/
theorem fields_f32Pack (neg : Bool) {e f : Nat} (he : e < 256) (hf : f < 2 ^ 23) :
    f32Sign (f32Pack neg (e * 2 ^ 23 + f)) = neg ∧ f32Exp (f32Pack neg (e * 2 ^ 23 + f)) = e ∧
      f32Frac (f32Pack neg (e * 2 ^ 23 + f)) = f := by
  have ht : (f32Pack neg (e * 2 ^ 23 + f)).toNat = e * 2 ^ 23 + f + if neg then 2 ^ 31 else 0 := by
    unfold f32Pack
    rw [BitVec.toNat_ofNat, Nat.mod_eq_of_lt]
    cases neg <;> simp <;> omega
  refine ⟨?_, ?_, ?_⟩
  · rw [f32Sign_eq, ht]; cases neg <;> simp <;> omega
  · rw [f32Exp_eq, ht]; cases neg <;> simp <;> omega
  · rw [f32Frac_eq, ht]; cases neg <;> simp <;> omega

theorem f32IsFinite_iff {x : Word} : f32IsFinite x = true ↔ f32Exp x ≠ 255 := by simp [f32IsFinite]

theorem not_nan_of_finite {x : Word} (h : f32IsFinite x = true) : f32IsNaN x = false := by
  simp [f32IsNaN, f32IsFinite_iff.1 h]

theorem not_inf_of_finite {x : Word} (h : f32IsFinite x = true) : f32IsInf x = false := by
  simp [f32IsInf, f32IsFinite_iff.1 h]

/-! What a rounded magnitude decodes to. -/

/-- 31 magnitude bits made of a scale `t` and a significand `q` decode to `q · 2^(t−1)` units. -/
theorem decode_f32Pack (neg : Bool) {t q : Nat} (ht : 1 ≤ t) (ht' : t ≤ 254) (hq : q < 2 ^ 24)
    (hn : t = 1 ∨ 2 ^ 23 ≤ q) :
    f32IsFinite (f32Pack neg ((t - 1) * 2 ^ 23 + q)) = true ∧
      f32Sign (f32Pack neg ((t - 1) * 2 ^ 23 + q)) = neg ∧
      f32Mag (f32Pack neg ((t - 1) * 2 ^ 23 + q)) = q * 2 ^ (t - 1) := by
  by_cases hs : q < 2 ^ 23
  · have h1 : t = 1 := by omega
    subst h1
    obtain ⟨h1, h2, h3⟩ := fields_f32Pack neg (e := 0) (f := q) (by omega) hs
    simp only [Nat.sub_self, Nat.zero_mul, Nat.zero_add] at h1 h2 h3 ⊢
    refine ⟨?_, h1, ?_⟩
    · rw [f32IsFinite_iff, h2]; omega
    · simp [f32Mag, h2, h3]
  · have e : (t - 1) * 2 ^ 23 + q = t * 2 ^ 23 + (q - 2 ^ 23) := by
      obtain ⟨t, rfl⟩ : ∃ t', t = t' + 1 := ⟨t - 1, by omega⟩
      simp only [Nat.add_sub_cancel]; omega
    obtain ⟨h1, h2, h3⟩ := fields_f32Pack neg (e := t) (f := q - 2 ^ 23) (by omega) (by omega)
    rw [e]
    refine ⟨?_, h1, ?_⟩
    · rw [f32IsFinite_iff, h2]; omega
    · unfold f32Mag
      rw [h2, h3, if_neg (by omega), show 2 ^ 23 + (q - 2 ^ 23) = q by omega]

/-- The scale `roundMag` keeps 24 significant bits at. -/
abbrev roundScale (m : Nat) : Nat := max 1 (m.log2 - 23)

theorem roundQuot_of_dvd {m t : Nat} (h : m % 2 ^ t = 0) : roundQuot m t = m / 2 ^ t := by
  have hp : 0 < 2 ^ t := by positivity
  simp only [roundQuot, h]
  rw [if_neg (by omega)]

/-- A magnitude with at most 24 significant bits is not rounded. -/
theorem round_representable (neg : Bool) {m s : Nat} (hm : m < 2 ^ 24) (hbig : m * 2 ^ s < 2 ^ 277) :
    f32IsFinite (f32Pack neg (roundMag (2 * (m * 2 ^ s)))) = true ∧
      f32Sign (f32Pack neg (roundMag (2 * (m * 2 ^ s)))) = neg ∧
      f32Mag (f32Pack neg (roundMag (2 * (m * 2 ^ s)))) = m * 2 ^ s := by
  rcases Nat.eq_zero_or_pos m with rfl | hpos
  · rw [Nat.zero_mul, Nat.mul_zero]
    have h0 : roundMag 0 = (1 - 1) * 2 ^ 23 + 0 := by decide
    rw [h0]
    have := decode_f32Pack neg (t := 1) (q := 0) le_rfl (by omega) (by omega) (.inl rfl)
    simpa using this
  · have hM : 2 * (m * 2 ^ s) ≠ 0 := by positivity
    have hlo : 2 ^ (2 * (m * 2 ^ s)).log2 ≤ 2 * (m * 2 ^ s) := Nat.log2_self_le hM
    have hhi : 2 * (m * 2 ^ s) < 2 ^ ((2 * (m * 2 ^ s)).log2 + 1) := Nat.lt_log2_self
    generalize hL : (2 * (m * 2 ^ s)).log2 = L at hlo hhi
    have hL277 : L ≤ 277 := by
      by_contra hc
      have : 2 ^ 278 ≤ 2 ^ L := Nat.pow_le_pow_right (by omega) (by omega)
      have h278 : (2 : Nat) ^ 278 = 2 * 2 ^ 277 := by rw [pow_succ]; ring
      omega
    have hdvd : (2 * (m * 2 ^ s)) % 2 ^ (max 1 (L - 23)) = 0 := by
      apply Nat.mod_eq_zero_of_dvd
      have hts : max 1 (L - 23) ≤ s + 1 := by
        by_contra hc
        have hs : s + 25 ≤ L := by omega
        have h1 : 2 ^ (s + 25) ≤ 2 ^ L := Nat.pow_le_pow_right (by omega) hs
        have h2 : 2 * (m * 2 ^ s) < 2 ^ (s + 25) := by
          calc 2 * (m * 2 ^ s) = m * 2 ^ (s + 1) := by rw [pow_succ]; ring
            _ < 2 ^ 24 * 2 ^ (s + 1) := Nat.mul_lt_mul_of_pos_right hm (by positivity)
            _ = 2 ^ (s + 25) := by rw [← pow_add]; congr 1; omega
        omega
      have : 2 * (m * 2 ^ s) = m * 2 ^ (s + 1) := by rw [pow_succ]; ring
      rw [this]
      exact Dvd.dvd.mul_left (pow_dvd_pow 2 hts) m
    have hq24 : 2 * (m * 2 ^ s) / 2 ^ (max 1 (L - 23)) < 2 ^ 24 := by
      rw [Nat.div_lt_iff_lt_mul (by positivity), ← pow_add]
      exact lt_of_lt_of_le hhi (Nat.pow_le_pow_right (by omega) (by omega))
    have hnorm : max 1 (L - 23) = 1 ∨ 2 ^ 23 ≤ 2 * (m * 2 ^ s) / 2 ^ (max 1 (L - 23)) := by
      by_cases hc : L - 23 ≤ 1
      · left; omega
      · right
        rw [Nat.le_div_iff_mul_le (by positivity), ← pow_add, show 23 + max 1 (L - 23) = L by omega]
        exact hlo
    have hmag : roundMag (2 * (m * 2 ^ s)) =
        (max 1 (L - 23) - 1) * 2 ^ 23 + 2 * (m * 2 ^ s) / 2 ^ (max 1 (L - 23)) := by
      simp only [roundMag, hL, roundQuot_of_dvd hdvd]
      apply Nat.min_eq_left
      generalize 2 * (m * 2 ^ s) / 2 ^ (max 1 (L - 23)) = q at hq24
      have h253 : max 1 (L - 23) - 1 ≤ 253 := by omega
      have := Nat.mul_le_mul_right (2 ^ 23) h253
      calc (max 1 (L - 23) - 1) * 2 ^ 23 + q ≤ 253 * 2 ^ 23 + 2 ^ 24 := Nat.add_le_add this hq24.le
        _ = 255 * 2 ^ 23 := by norm_num
    rw [hmag]
    obtain ⟨h1, h2, h3⟩ := decode_f32Pack neg (t := max 1 (L - 23)) (by omega) (by omega) hq24 hnorm
    refine ⟨h1, h2, ?_⟩
    rw [h3]
    have hmul := Nat.div_mul_cancel (Nat.dvd_of_mod_eq_zero hdvd)
    obtain ⟨t, ht⟩ : ∃ t, max 1 (L - 23) = t + 1 := ⟨max 1 (L - 23) - 1, by omega⟩
    rw [ht, pow_succ] at hmul
    rw [ht, Nat.add_sub_cancel, pow_succ]
    generalize 2 * (m * 2 ^ s) / (2 ^ t * 2) = q at hmul ⊢
    have h2 : 2 * (q * 2 ^ t) = 2 * (m * 2 ^ s) := by rw [← hmul]; ring
    exact Nat.eq_of_mul_eq_mul_left (by norm_num) h2

/-! Dyadic values. -/

/-- +0 is the dyadic zero of every scale. -/
theorem f32Zero_false (j : Nat) : f32IsFinite (f32Zero false) = true ∧
    f32Units (f32Zero false) = 0 * 2 ^ j ∧ f32Sign (f32Zero false) = false := by
  refine ⟨by decide, ?_, by decide⟩
  rw [Int.zero_mul]; decide

/-- `v` is finite, its value is `z · 2^j` units of 2^-149, and it is not −0. -/
structure IsDyadic (j : Nat) (z : Int) (v : Word) : Prop where
  finite : f32IsFinite v = true
  units : f32Units v = z * 2 ^ j
  zero : z = 0 → f32Sign v = false

theorem f32Units_natAbs (v : Word) : (f32Units v).natAbs = f32Mag v := by
  unfold f32Units; split <;> simp

theorem f32Mag_lt {v : Word} (h : f32IsFinite v = true) : f32Mag v < 2 ^ 277 := by
  have he := f32Exp_lt v
  have hf := f32Frac_lt v
  have h255 := f32IsFinite_iff.1 h
  unfold f32Mag
  split
  · exact lt_of_lt_of_le hf (Nat.pow_le_pow_right (by omega) (by omega))
  · calc (2 ^ 23 + f32Frac v) * 2 ^ (f32Exp v - 1) < 2 ^ 24 * 2 ^ (f32Exp v - 1) :=
          Nat.mul_lt_mul_of_pos_right (by omega) (by positivity)
      _ = 2 ^ (24 + (f32Exp v - 1)) := by rw [← pow_add]
      _ ≤ 2 ^ 277 := Nat.pow_le_pow_right (by omega) (by omega)

/-- Finite encodings with the same sign and magnitude are the same. -/
theorem f32_ext {x y : Word} (hs : f32Sign x = f32Sign y) (hm : f32Mag x = f32Mag y) : x = y := by
  have key : f32Exp x = f32Exp y ∧ f32Frac x = f32Frac y := by
    have hfx := f32Frac_lt x
    have hfy := f32Frac_lt y
    -- a magnitude of a normal number with exponent field e lies in [2^(22+e), 2^(23+e))
    have range : ∀ z : Word, f32Exp z ≠ 0 → f32Frac z < 2 ^ 23 →
        f32Mag z = (2 ^ 23 + f32Frac z) * 2 ^ (f32Exp z - 1) ∧
        2 ^ (23 + (f32Exp z - 1)) ≤ f32Mag z ∧ f32Mag z < 2 ^ (24 + (f32Exp z - 1)) := by
      intro z hz hf
      have e : f32Mag z = (2 ^ 23 + f32Frac z) * 2 ^ (f32Exp z - 1) := by simp [f32Mag, hz]
      refine ⟨e, ?_, ?_⟩
      · rw [e, pow_add]; exact Nat.mul_le_mul_right _ (by omega)
      · rw [e, pow_add]; exact Nat.mul_lt_mul_of_pos_right (by omega) (by positivity)
    by_cases hx : f32Exp x = 0 <;> by_cases hy : f32Exp y = 0
    · simp only [f32Mag, hx, hy, if_true] at hm
      exact ⟨by omega, hm⟩
    · obtain ⟨_, h1, _⟩ := range y hy hfy
      simp only [f32Mag, hx, if_true] at hm
      have : 2 ^ 23 ≤ 2 ^ (23 + (f32Exp y - 1)) := Nat.pow_le_pow_right (by omega) (by omega)
      unfold f32Mag at h1
      omega
    · obtain ⟨_, h1, _⟩ := range x hx hfx
      have : f32Mag y = f32Frac y := by simp [f32Mag, hy]
      have : 2 ^ 23 ≤ 2 ^ (23 + (f32Exp x - 1)) := Nat.pow_le_pow_right (by omega) (by omega)
      omega
    · obtain ⟨ex, lx, ux⟩ := range x hx hfx
      obtain ⟨ey, ly, uy⟩ := range y hy hfy
      have heq : f32Exp x - 1 = f32Exp y - 1 := by
        rcases Nat.lt_trichotomy (f32Exp x - 1) (f32Exp y - 1) with h | h | h
        · have : 2 ^ (24 + (f32Exp x - 1)) ≤ 2 ^ (23 + (f32Exp y - 1)) :=
            Nat.pow_le_pow_right (by omega) (by omega)
          omega
        · exact h
        · have : 2 ^ (24 + (f32Exp y - 1)) ≤ 2 ^ (23 + (f32Exp x - 1)) :=
            Nat.pow_le_pow_right (by omega) (by omega)
          omega
      rw [ex, ey, heq] at hm
      have := Nat.eq_of_mul_eq_mul_right (by positivity) hm
      exact ⟨by omega, by omega⟩
  apply BitVec.eq_of_toNat_eq
  rw [toNat_eq_fields x, toNat_eq_fields y, hs, key.1, key.2]

/-- A dyadic value determines its encoding. -/
theorem IsDyadic.unique {j : Nat} {z : Int} {x y : Word} (hx : IsDyadic j z x) (hy : IsDyadic j z y) :
    x = y := by
  have hu : f32Units x = f32Units y := by rw [hx.units, hy.units]
  have hm : f32Mag x = f32Mag y := by rw [← f32Units_natAbs, ← f32Units_natAbs, hu]
  refine f32_ext ?_ hm
  by_cases hz : z = 0
  · rw [hx.zero hz, hy.zero hz]
  · have hne : f32Units x ≠ 0 := by rw [hx.units]; positivity
    have hmag : f32Mag x ≠ 0 := by rw [← f32Units_natAbs]; simpa using hne
    unfold f32Units at hu
    rw [hm] at hu hmag
    cases h1 : f32Sign x <;> cases h2 : f32Sign y <;> simp_all

/-- The value written as twice as many halves. -/
theorem IsDyadic.rescale {j : Nat} {z : Int} {v : Word} (h : IsDyadic (j + 1) z v) :
    IsDyadic j (2 * z) v where
  finite := h.finite
  units := by rw [h.units, pow_succ]; ring
  zero := fun hz => h.zero (by omega)

theorem IsDyadic.of_rescale {j : Nat} {z : Int} {v : Word} (h : IsDyadic j (2 * z) v) :
    IsDyadic (j + 1) z v where
  finite := h.finite
  units := by rw [h.units, pow_succ]; ring
  zero := fun hz => h.zero (by omega)

/-- Rounding a dyadic value of at most 24 significant bits is exact (R13). -/
theorem rnd32_dyadic {j : Nat} {z : Int} (hz : z.natAbs < 2 ^ 24) (hj : j ≤ 252) :
    IsDyadic j z (rnd32 (2 * (z * 2 ^ j))) := by
  have hbig : z.natAbs * 2 ^ j < 2 ^ 277 :=
    calc z.natAbs * 2 ^ j < 2 ^ 24 * 2 ^ j := Nat.mul_lt_mul_of_pos_right hz (by positivity)
      _ = 2 ^ (24 + j) := by rw [← pow_add]
      _ ≤ 2 ^ 277 := Nat.pow_le_pow_right (by omega) (by omega)
  have habs : (2 * (z * 2 ^ j)).natAbs = 2 * (z.natAbs * 2 ^ j) := by
    rw [Int.natAbs_mul, Int.natAbs_mul, Int.natAbs_pow]; rfl
  obtain ⟨h1, h2, h3⟩ := round_representable (decide (2 * (z * 2 ^ j) < 0)) hz hbig
  have hr : rnd32 (2 * (z * 2 ^ j)) =
      f32Pack (decide (2 * (z * 2 ^ j) < 0)) (roundMag (2 * (z.natAbs * 2 ^ j))) := by
    unfold rnd32; rw [habs]
  have hp : (0 : Int) < 2 ^ j := by positivity
  have hneg : (2 * (z * 2 ^ j) < 0) ↔ z < 0 := by
    constructor
    · intro h
      by_contra hc
      have : 0 ≤ z * 2 ^ j := mul_nonneg (by omega) hp.le
      omega
    · intro h
      have : z * 2 ^ j < 0 := mul_neg_of_neg_of_pos h hp
      omega
  rw [hr]
  refine ⟨h1, ?_, fun hz0 => by rw [h2]; simp [hz0]⟩
  unfold f32Units
  rw [h2, h3]
  by_cases hzn : z < 0
  · rw [if_pos (by simpa using hneg.2 hzn)]
    rw [Nat.cast_mul, Nat.cast_pow, Int.natCast_natAbs, abs_of_neg hzn]; push_cast; ring
  · rw [if_neg (by simpa using fun h => hzn (hneg.1 h))]
    rw [Nat.cast_mul, Nat.cast_pow, Int.natCast_natAbs, abs_of_nonneg (by omega)]; push_cast; ring

/-- An exact sum of dyadic values (R13). -/
theorem IsDyadic.add {j : Nat} {x y : Int} {a b : Word} (ha : IsDyadic j x a) (hb : IsDyadic j y b)
    (hz : (x + y).natAbs < 2 ^ 24) (hj : j ≤ 252) : IsDyadic j (x + y) (add32 a b) := by
  unfold add32
  rw [not_nan_of_finite ha.finite, not_nan_of_finite hb.finite, not_inf_of_finite ha.finite,
    not_inf_of_finite hb.finite]
  simp only [Bool.or_self, Bool.false_eq_true, if_false]
  have hsum : f32Units a + f32Units b = (x + y) * 2 ^ j := by rw [ha.units, hb.units]; ring
  rw [hsum]
  split
  · rename_i h0
    have hxy : x + y = 0 := by
      rcases mul_eq_zero.1 h0 with h | h
      · exact h
      · exact absurd h (by positivity)
    have hs : (f32Sign a && f32Sign b) = false := by
      by_cases hx : x = 0
      · rw [ha.zero hx]; rfl
      · -- opposite nonzero values have opposite signs
        have hpx : (0 : Int) < 2 ^ j := by positivity
        have h1 := ha.units
        have h2 := hb.units
        unfold f32Units at h1 h2
        cases s1 : f32Sign a <;> cases s2 : f32Sign b <;> simp only [s1, s2, if_true] at h1 h2 ⊢ <;>
          try rfl
        exfalso
        have hx' : x * 2 ^ j ≤ 0 := by omega
        have hy' : y * 2 ^ j ≤ 0 := by omega
        have : x ≤ 0 := by
          by_contra hc
          have := mul_pos (show (0 : Int) < x by omega) hpx
          omega
        have : y ≤ 0 := by
          by_contra hc
          have := mul_pos (show (0 : Int) < y by omega) hpx
          omega
        omega
    rw [hs, hxy]
    exact ⟨(f32Zero_false j).1, (f32Zero_false j).2.1, fun _ => (f32Zero_false j).2.2⟩
  · exact rnd32_dyadic hz hj

theorem fields_f32Neg (x : Word) :
    f32Sign (f32Neg x) = !f32Sign x ∧ f32Exp (f32Neg x) = f32Exp x ∧ f32Frac (f32Neg x) = f32Frac x := by
  refine ⟨?_, ?_, ?_⟩
  · simp [f32Sign, f32Neg]
  · unfold f32Exp f32Neg
    rw [BitVec.extractLsb'_xor]
    simp
  · unfold f32Frac f32Neg
    rw [BitVec.extractLsb'_xor]
    simp

theorem f32Units_neg (x : Word) : f32Units (f32Neg x) = -f32Units x := by
  obtain ⟨h1, h2, h3⟩ := fields_f32Neg x
  unfold f32Units f32Mag
  rw [h1, h2, h3]
  cases f32Sign x <;> simp

/-- An exact difference of dyadic values (R13). -/
theorem IsDyadic.sub {j : Nat} {x y : Int} {a b : Word} (ha : IsDyadic j x a) (hb : IsDyadic j y b)
    (hz : (x - y).natAbs < 2 ^ 24) (hj : j ≤ 252) : IsDyadic j (x - y) (sub32 a b) := by
  by_cases hy : y = 0
  · -- subtracting +0: the negated operand is −0, which adds nothing
    subst hy
    have hfin : f32IsFinite (f32Neg b) = true := by
      rw [f32IsFinite_iff, (fields_f32Neg b).2.1]; exact f32IsFinite_iff.1 hb.finite
    have hub : f32Units (f32Neg b) = 0 := by rw [f32Units_neg, hb.units]; simp
    unfold sub32 add32
    rw [not_nan_of_finite ha.finite, not_nan_of_finite hfin, not_inf_of_finite ha.finite,
      not_inf_of_finite hfin, hub, ha.units]
    simp only [Bool.or_self, Bool.false_eq_true, if_false, Int.add_zero, Int.sub_zero]
    rw [Int.sub_zero] at hz
    split
    · rename_i h0
      have hx : x = 0 := by
        rcases mul_eq_zero.1 h0 with h | h
        · exact h
        · exact absurd h (by positivity)
      rw [ha.zero hx, hx, Bool.false_and]
      exact ⟨(f32Zero_false j).1, (f32Zero_false j).2.1, fun _ => (f32Zero_false j).2.2⟩
    · exact rnd32_dyadic hz hj
  · have hbn : IsDyadic j (-y) (f32Neg b) := by
      refine ⟨?_, ?_, fun h => absurd h (by omega)⟩
      · rw [f32IsFinite_iff, (fields_f32Neg b).2.1]; exact f32IsFinite_iff.1 hb.finite
      · rw [f32Units_neg, hb.units]; ring
    exact Int.sub_eq_add_neg ▸ ha.add hbn (by rwa [← Int.sub_eq_add_neg]) hj

/-- An exact half of a dyadic value (R13). -/
theorem IsDyadic.half {j : Nat} {x : Int} {a : Word} (ha : IsDyadic (j + 1) x a)
    (hz : x.natAbs < 2 ^ 24) (hj : j ≤ 252) : IsDyadic j x (half32 a) := by
  unfold half32
  rw [not_nan_of_finite ha.finite, not_inf_of_finite ha.finite]
  simp only [Bool.false_eq_true, if_false]
  split
  · rename_i h0
    have hx : x = 0 := by
      rw [ha.units] at h0
      rcases mul_eq_zero.1 h0 with h | h
      · exact h
      · exact absurd h (by positivity)
    rw [ha.zero hx, hx]
    exact ⟨(f32Zero_false j).1, (f32Zero_false j).2.1, fun _ => (f32Zero_false j).2.2⟩
  · have : f32Units a = 2 * (x * 2 ^ j) := by rw [ha.units, pow_succ]; ring
    rw [this]
    exact rnd32_dyadic hz hj

/-- `cvt32` is exact on the integers it is used on (R13). -/
theorem cvt32_dyadic {n : Nat} (hn : n < 2 ^ 24) : IsDyadic 149 n (cvt32 n) := by
  have h := rnd32_dyadic (j := 149) (z := (n : Int)) (by simpa using hn) (by omega)
  unfold cvt32
  rwa [show (n : Int) * 2 ^ 150 = 2 * ((n : Int) * 2 ^ 149) by rw [pow_succ (2 : Int) 149]; ring]

/-- `deq` is exact: its value is half of q·2^(k+1) + 2^k − 255 (R214). -/
theorem deq_dyadic {k q : Nat} (hk : k ≤ 7) (hq : q ≤ 255) :
    IsDyadic 148 ((q : Int) * 2 ^ (k + 1) + 2 ^ k - 255) (deq k q) := by
  have hp : (2 : Int) ^ k ≤ 2 ^ 7 := pow_le_pow_right₀ (by norm_num) hk
  have hp0 : (1 : Int) ≤ 2 ^ k := one_le_pow₀ (by norm_num)
  have h := rnd32_dyadic (j := 148) (z := (q : Int) * 2 ^ (k + 1) + 2 ^ k - 255) (by
    rw [pow_succ]
    have : (q : Int) * (2 ^ k * 2) ≤ 255 * (2 ^ 7 * 2) := by
      apply mul_le_mul <;> omega
    have : 0 ≤ (q : Int) * (2 ^ k * 2) := by positivity
    omega) (by omega)
  unfold deq
  rwa [show ((q : Int) * 2 ^ (k + 1) + 2 ^ k - 255) * 2 ^ 149 =
    2 * (((q : Int) * 2 ^ (k + 1) + 2 ^ k - 255) * 2 ^ 148) by rw [pow_succ (2 : Int) 148]; ring]

/-- The value of a dyadic encoding, as a rational. -/
theorem IsDyadic.val {j : Nat} {z : Int} {v : Word} (h : IsDyadic j z v) :
    f32Val v = (z : Rat) * 2 ^ j / 2 ^ 149 := by
  unfold f32Val; rw [h.units]; push_cast; rfl

end Sys2Proof.Machine
end

