-- ==== Sys2Proof/Laws/Levels.lean ====
section
/-! SUPPORT. One transform level and several of them (R172, R176, R180, R182): which elements they change,
when they run, what they fault on, and that they read only their region. -/

namespace Sys2Proof.Machine

/-- Element `i` of the plane lies in the top-left `rows` × `cols` region. -/
abbrev InRegion (w rows cols i : Nat) : Prop := i / w < rows ∧ i % w < cols

theorem inRegion_index {w rows cols r k : Nat} (hr : r < rows) (hk : k < cols) (hc : cols ≤ w) :
    InRegion w rows cols (r * w + k) := by
  have h1 := planeIndex_div (rc := (r, k)) (w := w) (by show k < w; omega)
  have h2 := planeIndex_mod (rc := (r, k)) (w := w) (by show k < w; omega)
  unfold planeIndex at h1 h2
  exact ⟨by rw [h1]; exact hr, by rw [h2]; exact hk⟩

/-- An element outside a region is at no position of it, and the other way round. -/
theorem not_inRegion_iff {w rows cols i : Nat} (hc : cols ≤ w) :
    ¬ InRegion w rows cols i ↔ ∀ r < rows, ∀ k < cols, i ≠ r * w + k := by
  constructor
  · rintro h r hr k hk rfl
    exact h (inRegion_index hr hk hc)
  · intro h hi
    exact h _ hi.1 _ hi.2 (by have := planeIndex_divMod w i; unfold planeIndex at this; exact this.symm)

theorem lt_of_inRegion {w h rows cols i : Nat} (hr : rows ≤ h) (hc : cols ≤ w) (hi : InRegion w rows cols i) :
    i < w * h := by
  have := planeIndex_lt (w := w) (h := h) (rc := (i / w, i % w)) (by have := hi.1; simp; omega)
    (by have := hi.2; simp; omega)
  rwa [planeIndex_divMod] at this

/-- What the plane holds after a forward level. -/
theorem read_fwdLevel {w h c : Nat} {plane plane' : Memory Word} (hk : fwdLevel w h c plane = .ok plane')
    (i : Nat) : plane'.read i =
      if InRegion w (dimAt h c) (dimAt w c) i then
        some (fwdValue (dimAt w c / 2) (dimAt h c / 2) (planeAt w plane) (i / w) (i % w))
      else plane.read i := by
  obtain ⟨_, rfl⟩ := fwdLevel_eq_ok.1 hk
  exact read_writeRegion (dimAt_le w c) _ _ _

theorem two_dimAt_le {d c : Nat} (hc : 1 ≤ c) : 2 * dimAt d c ≤ d := by
  obtain ⟨c, rfl⟩ : ∃ c', c = c' + 1 := ⟨c - 1, by omega⟩
  have := dimAt_succ d c
  have := dimAt_le d c
  omega

/-- What the plane holds after an inverse level. -/
theorem read_invLevel {w h c : Nat} (hc : 1 ≤ c) {plane plane' : Memory Word}
    (hk : invLevel w h c plane = .ok plane') (i : Nat) : plane'.read i =
      if InRegion w (2 * dimAt h c) (2 * dimAt w c) i then
        some (invValue (dimAt w c) (dimAt h c) (planeAt w plane) (i / w) (i % w))
      else plane.read i := by
  obtain ⟨_, rfl⟩ := invLevel_eq_ok.1 hk
  exact read_writeRegion (two_dimAt_le hc) _ _ _

/-- A level leaves no element without a value. -/
theorem fwdLevel_present {w h c i : Nat} {plane plane' : Memory Word} (hk : fwdLevel w h c plane = .ok plane')
    (hi : ∃ v, plane.read i = some v) : ∃ v, plane'.read i = some v := by
  rw [read_fwdLevel hk]; split
  · exact ⟨_, rfl⟩
  · exact hi

theorem invLevel_present {w h c i : Nat} (hc : 1 ≤ c) {plane plane' : Memory Word}
    (hk : invLevel w h c plane = .ok plane') (hi : ∃ v, plane.read i = some v) :
    ∃ v, plane'.read i = some v := by
  rw [read_invLevel hc hk]; split
  · exact ⟨_, rfl⟩
  · exact hi

theorem none_of_present {α β : Type} {o : Option α} {o' : Option β}
    (h : (∃ v, o = some v) → ∃ v, o' = some v) (h' : o' = none) : o = none := by
  cases o with
  | none => rfl
  | some v => obtain ⟨u, hu⟩ := h ⟨v, rfl⟩; rw [h'] at hu; cases hu

/-! Several levels. -/

theorem fwdLevels_eq_error {w h c count : Nat} {plane : Memory Word} {f : Fault}
    (hk : fwdLevels w h c count plane = .error f) : ∃ i, plane.read i = none ∧ f = .uninitRead .plane i := by
  induction count generalizing c plane with
  | zero => simp [fwdLevels] at hk
  | succ count ih =>
    simp only [fwdLevels] at hk
    cases hr : fwdLevel w h c plane with
    | error f' => rw [hr] at hk; cases hk; exact fwdLevel_eq_error hr
    | ok plane' =>
      rw [hr] at hk
      obtain ⟨i, hi, hf⟩ := ih hk
      exact ⟨i, none_of_present (fwdLevel_present hr) hi, hf⟩

theorem invLevels_eq_error {w h c : Nat} {plane : Memory Word} {f : Fault}
    (hk : invLevels w h c plane = .error f) : ∃ i, plane.read i = none ∧ f = .uninitRead .plane i := by
  induction c generalizing plane with
  | zero => simp [invLevels] at hk
  | succ c ih =>
    simp only [invLevels] at hk
    cases hr : invLevel w h (c + 1) plane with
    | error f' => rw [hr] at hk; cases hk; exact invLevel_eq_error hr
    | ok plane' =>
      rw [hr] at hk
      obtain ⟨i, hi, hf⟩ := ih hk
      exact ⟨i, none_of_present (invLevel_present (by omega) hr) hi, hf⟩

/-- R172: forward levels change only the region they start on. -/
theorem fwdLevels_outside {w h c count : Nat} {plane plane' : Memory Word}
    (hk : fwdLevels w h c count plane = .ok plane') {i : Nat}
    (hi : ¬ InRegion w (dimAt h c) (dimAt w c) i) : plane'.read i = plane.read i := by
  induction count generalizing c plane with
  | zero => cases hk; rfl
  | succ count ih =>
    simp only [fwdLevels] at hk
    cases hr : fwdLevel w h c plane with
    | error f' => rw [hr] at hk; cases hk
    | ok p1 =>
      rw [hr] at hk
      have h1 := dimAt_anti h (Nat.le_add_right c 1)
      have h2 := dimAt_anti w (Nat.le_add_right c 1)
      rw [ih hk (fun hc => hi ⟨by have := hc.1; omega, by have := hc.2; omega⟩), read_fwdLevel hr, if_neg hi]

/-- R176: inverse levels change only the plane of WIDTH·HEIGHT elements. -/
theorem invLevels_outside {w h c : Nat} {plane plane' : Memory Word}
    (hk : invLevels w h c plane = .ok plane') {i : Nat} (hi : w * h ≤ i) : plane'.read i = plane.read i := by
  induction c generalizing plane with
  | zero => cases hk; rfl
  | succ c ih =>
    simp only [invLevels] at hk
    cases hr : invLevel w h (c + 1) plane with
    | error f' => rw [hr] at hk; cases hk
    | ok p1 =>
      rw [hr] at hk
      rw [ih hk, read_invLevel (by omega) hr, if_neg]
      intro hc
      have := lt_of_inRegion (two_dimAt_le (by omega)) (two_dimAt_le (by omega)) hc
      omega

theorem wf_fwdLevels {w h c count : Nat} {plane plane' : Memory Word} (hw : Memory.wf plane = true)
    (hk : fwdLevels w h c count plane = .ok plane') : Memory.wf plane' = true := by
  induction count generalizing c plane with
  | zero => cases hk; exact hw
  | succ count ih =>
    simp only [fwdLevels] at hk
    cases hr : fwdLevel w h c plane with
    | error f' => rw [hr] at hk; cases hk
    | ok p1 => rw [hr] at hk; exact ih (wf_fwdLevel hw hr) hk

theorem wf_invLevels {w h c : Nat} {plane plane' : Memory Word} (hw : Memory.wf plane = true)
    (hk : invLevels w h c plane = .ok plane') : Memory.wf plane' = true := by
  induction c generalizing plane with
  | zero => cases hk; exact hw
  | succ c ih =>
    simp only [invLevels] at hk
    cases hr : invLevel w h (c + 1) plane with
    | error f' => rw [hr] at hk; cases hk
    | ok p1 => rw [hr] at hk; exact ih (wf_invLevel hw hr) hk

/-- Every element of a region holds a value. -/
abbrev Present (plane : Memory Word) (w rows cols : Nat) : Prop :=
  ∀ r < rows, ∀ k < cols, ∃ v, plane.read (r * w + k) = some v

theorem Present.mono {plane : Memory Word} {w rows cols rows' cols' : Nat} (h : Present plane w rows cols)
    (hr : rows' ≤ rows) (hc : cols' ≤ cols) : Present plane w rows' cols' :=
  fun r h1 k h2 => h r (by omega) k (by omega)

/-- R180: forward levels run on a region all of whose elements hold values. -/
theorem fwdLevels_runs {w h c count : Nat} {plane : Memory Word}
    (hp : Present plane w (dimAt h c) (dimAt w c)) : ∃ plane', fwdLevels w h c count plane = .ok plane' := by
  induction count generalizing c plane with
  | zero => exact ⟨plane, rfl⟩
  | succ count ih =>
    obtain ⟨p1, hp1⟩ : ∃ p1, fwdLevel w h c plane = .ok p1 := ⟨_, fwdLevel_eq_ok.2 ⟨hp, rfl⟩⟩
    obtain ⟨p2, hp2⟩ := ih (c := c + 1) (plane := p1) (fun r hr k hk =>
      fwdLevel_present hp1 (hp r (by have := dimAt_anti h (Nat.le_add_right c 1); omega) k
        (by have := dimAt_anti w (Nat.le_add_right c 1); omega)))
    exact ⟨p2, by simp only [fwdLevels, hp1, hp2]⟩

/-- R182: inverse levels run on a plane all of whose elements hold values. -/
theorem invLevels_runs {w h c : Nat} {plane : Memory Word} (hp : Present plane w h w) :
    ∃ plane', invLevels w h c plane = .ok plane' := by
  induction c generalizing plane with
  | zero => exact ⟨plane, rfl⟩
  | succ c ih =>
    obtain ⟨p1, hp1⟩ : ∃ p1, invLevel w h (c + 1) plane = .ok p1 :=
      ⟨_, invLevel_eq_ok.2 ⟨hp.mono (two_dimAt_le (by omega)) (two_dimAt_le (by omega)), rfl⟩⟩
    obtain ⟨p2, hp2⟩ := ih (plane := p1) (fun r hr k hk => invLevel_present (by omega) hp1 (hp r hr k hk))
    exact ⟨p2, by simp only [invLevels, hp1, hp2]⟩

/-! The levels read only the plane's own elements. -/

/-- Two planes agree below `n`. -/
abbrev AgreeBelow {α : Type} (n : Nat) (p q : Memory α) : Prop := ∀ i < n, p.read i = q.read i

theorem planeAt_congr {w h r k : Nat} {p q : Memory Word} (hpq : AgreeBelow (w * h) p q) (hr : r < h)
    (hk : k < w) : planeAt w p r k = planeAt w q r k := by
  unfold planeAt; rw [hpq _ (planeIndex_lt (rc := (r, k)) hr hk)]

theorem fwdValue_congr {wk hk r c : Nat} {P Q : Nat → Nat → Word}
    (h : ∀ i < 2 * hk, ∀ j < 2 * wk, P i j = Q i j) (hr : r < 2 * hk) (hc : c < 2 * wk) :
    fwdValue wk hk P r c = fwdValue wk hk Q r c := by
  unfold fwdValue
  split_ifs <;> simp only [fwdSubband, fwdLow, fwdHigh] <;>
    rw [h _ (by omega) _ (by omega), h _ (by omega) _ (by omega), h _ (by omega) _ (by omega),
      h _ (by omega) _ (by omega)]

theorem invValue_congr {wk hk r c : Nat} {P Q : Nat → Nat → Word}
    (h : ∀ i < 2 * hk, ∀ j < 2 * wk, P i j = Q i j) (hr : r < 2 * hk) (hc : c < 2 * wk) :
    invValue wk hk P r c = invValue wk hk Q r c := by
  unfold invValue invLow invHigh
  simp only [subbandPos]
  rw [h _ (by omega) _ (by omega), h _ (by omega) _ (by omega), h _ (by omega) _ (by omega),
    h _ (by omega) _ (by omega)]

theorem invLevel_congr {w h c : Nat} (hc : 1 ≤ c) {p q p' : Memory Word} (hpq : AgreeBelow (w * h) p q)
    (hk : invLevel w h c p = .ok p') : ∃ q', invLevel w h c q = .ok q' ∧ AgreeBelow (w * h) p' q' := by
  have hw := two_dimAt_le (d := w) hc
  have hh := two_dimAt_le (d := h) hc
  obtain ⟨hp, _⟩ := invLevel_eq_ok.1 hk
  have hq : Present q w (2 * dimAt h c) (2 * dimAt w c) := by
    intro r hr k hk'
    have hlt : r * w + k < w * h := planeIndex_lt (rc := (r, k)) (by show r < h; omega) (by show k < w; omega)
    rw [← hpq _ hlt]
    exact hp r hr k hk'
  refine ⟨_, invLevel_eq_ok.2 ⟨hq, rfl⟩, fun i hi => ?_⟩
  rw [read_invLevel hc hk, read_invLevel hc (invLevel_eq_ok.2 ⟨hq, rfl⟩)]
  split
  · rename_i hreg
    rw [invValue_congr (fun i hi j hj => planeAt_congr hpq (by omega) (by omega)) hreg.1 hreg.2]
  · exact hpq i hi

theorem invLevels_congr {w h c : Nat} {p q p' : Memory Word} (hpq : AgreeBelow (w * h) p q)
    (hk : invLevels w h c p = .ok p') : ∃ q', invLevels w h c q = .ok q' ∧ AgreeBelow (w * h) p' q' := by
  induction c generalizing p q with
  | zero => cases hk; exact ⟨q, rfl, hpq⟩
  | succ c ih =>
    simp only [invLevels] at hk ⊢
    cases hr : invLevel w h (c + 1) p with
    | error f' => rw [hr] at hk; cases hk
    | ok p1 =>
      rw [hr] at hk
      obtain ⟨q1, h1, h2⟩ := invLevel_congr (by omega) hpq hr
      rw [h1]
      exact ih h2 hk

theorem fwdLevel_congr {w h l c : Nat} (hw : w % 2 ^ l = 0) (hh : h % 2 ^ l = 0) (hc : c < l)
    {p q p' : Memory Word} (hpq : AgreeBelow (w * h) p q)
    (hk : fwdLevel w h c p = .ok p') : ∃ q', fwdLevel w h c q = .ok q' ∧ AgreeBelow (w * h) p' q' := by
  have hwd := dimAt_double hw hc
  have hhd := dimAt_double hh hc
  have hwl := dimAt_le w c
  have hhl := dimAt_le h c
  obtain ⟨hp, _⟩ := fwdLevel_eq_ok.1 hk
  have hq : Present q w (dimAt h c) (dimAt w c) := by
    intro r hr k hk'
    have hlt : r * w + k < w * h := planeIndex_lt (rc := (r, k)) (by show r < h; omega) (by show k < w; omega)
    rw [← hpq _ hlt]
    exact hp r hr k hk'
  refine ⟨_, fwdLevel_eq_ok.2 ⟨hq, rfl⟩, fun i hi => ?_⟩
  rw [read_fwdLevel hk, read_fwdLevel (fwdLevel_eq_ok.2 ⟨hq, rfl⟩)]
  split
  · rename_i hreg
    rw [fwdValue_congr (fun i hi j hj => planeAt_congr hpq (by omega) (by omega)) (by omega) (by omega)]
  · exact hpq i hi

theorem fwdLevels_congr {w h l c count : Nat} (hw : w % 2 ^ l = 0) (hh : h % 2 ^ l = 0) (hc : c + count ≤ l)
    {p q p' : Memory Word} (hpq : AgreeBelow (w * h) p q) (hk : fwdLevels w h c count p = .ok p') :
    ∃ q', fwdLevels w h c count q = .ok q' ∧ AgreeBelow (w * h) p' q' := by
  induction count generalizing c p q with
  | zero => cases hk; exact ⟨q, rfl, hpq⟩
  | succ count ih =>
    simp only [fwdLevels] at hk ⊢
    cases hr : fwdLevel w h c p with
    | error f' => rw [hr] at hk; cases hk
    | ok p1 =>
      rw [hr] at hk
      obtain ⟨q1, h1, h2⟩ := fwdLevel_congr hw hh (by omega) hpq hr
      rw [h1]
      exact ih (by omega) h2 hk

/-- The last of several forward levels. -/
theorem fwdLevels_succ_last {w h c count : Nat} {plane : Memory Word} :
    fwdLevels w h c (count + 1) plane =
      match fwdLevels w h c count plane with
      | .error f => .error f
      | .ok p => fwdLevel w h (c + count) p := by
  induction count generalizing c plane with
  | zero => simp only [fwdLevels, Nat.add_zero]; cases fwdLevel w h c plane <;> rfl
  | succ count ih =>
    rw [fwdLevels]
    cases hr : fwdLevel w h c plane with
    | error f => simp only [fwdLevels, hr]
    | ok p1 =>
      simp only [fwdLevels, hr]
      have := ih (c := c + 1) (plane := p1)
      simp only [fwdLevels] at this
      rw [this, show c + (count + 1) = c + 1 + count by omega]

end Sys2Proof.Machine
end

