-- ==== Sys2Proof/Laws/Domain.lean ====
section
/-! SUPPORT. The codec domain (R18 to R20): its values as dyadic numbers, one level on four values of it
(R174, R177), and the inverse of that level (R178). -/

namespace Sys2Proof.Machine

/-! Values as dyadic numbers. -/

/-- A finite value is `z · 2^-e` exactly when it is `z · 2^(149−e)` units. -/
theorem f32Val_eq_iff {v : Word} {z : Int} {e : Nat} (he : e ≤ 149) :
    f32Val v = (z : Rat) / 2 ^ e ↔ f32Units v = z * 2 ^ (149 - e) := by
  have h : (2 : Rat) ^ 149 = 2 ^ (149 - e) * 2 ^ e := by rw [← pow_add]; congr 1; omega
  unfold f32Val
  rw [h, div_eq_div_iff (by positivity) (by positivity), ← mul_assoc, mul_left_inj' (by positivity)]
  rw [← Int.cast_inj (α := Rat)]
  push_cast
  rfl

/-- The encoding of −0. -/
theorem f32_negZero {v : Word} : f32Units v = 0 → (f32Sign v = true ↔ v = 0x80000000) := by
  intro h
  have hm : f32Mag v = 0 := by rw [← f32Units_natAbs, h]; rfl
  constructor
  · intro hs
    exact f32_ext (by rw [hs]; decide) (by rw [hm]; decide)
  · rintro rfl; decide

theorem isDyadic_iff {v : Word} {z : Int} {e : Nat} (he : e ≤ 149) :
    IsDyadic (149 - e) z v ↔ f32IsFinite v = true ∧ v ≠ 0x80000000 ∧ f32Val v = (z : Rat) / 2 ^ e := by
  constructor
  · intro h
    refine ⟨h.finite, ?_, (f32Val_eq_iff he).2 h.units⟩
    rintro rfl
    have hz : f32Units 0x80000000 = 0 := by decide
    have := h.units
    rw [hz] at this
    have h0 : z = 0 := by
      rcases mul_eq_zero.1 this.symm with h | h
      · exact h
      · exact absurd h (by positivity)
    exact absurd (h.zero h0) (by decide)
  · rintro ⟨h1, h2, h3⟩
    have hu := (f32Val_eq_iff he).1 h3
    refine ⟨h1, hu, fun h0 => ?_⟩
    have : f32Units v = 0 := by rw [hu, h0, zero_mul]
    cases hs : f32Sign v with
    | false => rfl
    | true => exact absurd ((f32_negZero this).1 hs) h2

/-- R19: an LL value, as a dyadic number. -/
theorem codecLow_iff {c : Nat} (hc : c ≤ 7) {v : Word} :
    CodecLow c v ↔ ∃ m : Nat, m ≤ 255 * 4 ^ c ∧ IsDyadic (149 - 2 * c) m v := by
  have h4 : (4 : Rat) ^ c = 2 ^ (2 * c) := by rw [pow_mul]; norm_num
  unfold CodecLow
  constructor
  · rintro ⟨h1, h2, m, hm, hv⟩
    refine ⟨m, hm, (isDyadic_iff (by omega)).2 ⟨h1, ?_, by rw [hv, h4]; push_cast; rfl⟩⟩
    rintro rfl; exact absurd h2 (by decide)
  · rintro ⟨m, hm, h⟩
    have h3 := (isDyadic_iff (by omega)).1 h
    refine ⟨h.finite, ?_, m, hm, by rw [h3.2.2, h4]; push_cast; rfl⟩
    have hu := h.units
    by_contra hs
    rw [Bool.not_eq_false] at hs
    unfold f32Units at hu
    rw [if_pos hs] at hu
    have : (0 : Int) ≤ (m : Int) * 2 ^ (149 - 2 * c) := by positivity
    have hz : f32Units v = 0 := by unfold f32Units; rw [if_pos hs]; omega
    exact h3.2.1 ((f32_negZero hz).1 hs)

/-- R19: a detail value, as a dyadic number. -/
theorem codecDetail_iff {c : Nat} (hc : c ≤ 7) {v : Word} :
    CodecDetail c v ↔ ∃ m : Int, 2 * m.natAbs ≤ 255 * 4 ^ c ∧ IsDyadic (149 - 2 * c) m v := by
  have h4 : (4 : Rat) ^ c = 2 ^ (2 * c) := by rw [pow_mul]; norm_num
  unfold CodecDetail
  constructor
  · rintro ⟨h1, h2, m, hm, hv⟩
    exact ⟨m, hm, (isDyadic_iff (by omega)).2 ⟨h1, h2, by rw [hv, h4]⟩⟩
  · rintro ⟨m, hm, h⟩
    have h3 := (isDyadic_iff (by omega)).1 h
    exact ⟨h3.1, h3.2.1, m, hm, by rw [h3.2.2, h4]⟩

/-- R20: a value of the decode side, as a dyadic number. -/
theorem codecHalf_iff {v : Word} :
    CodecHalf v ↔ ∃ m : Int, m.natAbs < 2 ^ 13 ∧ IsDyadic 148 m v := by
  unfold CodecHalf
  constructor
  · rintro ⟨h1, h2, m, hm, hv⟩
    exact ⟨m, hm, (isDyadic_iff (e := 1) (by omega)).2 ⟨h1, h2, by rw [hv, pow_one]⟩⟩
  · rintro ⟨m, hm, h⟩
    have h3 := (isDyadic_iff (e := 1) (by omega)).1 h
    exact ⟨h3.1, h3.2.1, m, hm, by rw [h3.2.2, pow_one]⟩

/-- An integer of [0, 255] is an LL value of level 0. -/
theorem codecLow_cvt32 {b : Nat} (hb : b ≤ 255) : CodecLow 0 (cvt32 b) :=
  (codecLow_iff (by omega)).2 ⟨b, by omega, cvt32_dyadic (by omega)⟩

/-! One level on four values. -/

/-- The integers `a`, `b`, `c`, `d` of one scale stay below 2^22 in magnitude, so every sum of the four with
signs is exact. -/
abbrev Small (a b c d : Int) : Prop :=
  a.natAbs < 2 ^ 22 ∧ b.natAbs < 2 ^ 22 ∧ c.natAbs < 2 ^ 22 ∧ d.natAbs < 2 ^ 22

/-- R174: the forward level on dyadic values is exact: the four sums, on a scale two bits finer. -/
theorem fwd_dyadic {j : Nat} {x y z t : Int} {a b c d : Word} (hs : Small x y z t) (hj : j + 2 ≤ 252)
    (ha : IsDyadic (j + 2) x a) (hb : IsDyadic (j + 2) y b) (hc : IsDyadic (j + 2) z c)
    (hd : IsDyadic (j + 2) t d) :
    IsDyadic j (x + y + z + t) (half32 (add32 (half32 (add32 a b)) (half32 (add32 c d)))) ∧
    IsDyadic j (x + y - z - t) (half32 (sub32 (half32 (add32 a b)) (half32 (add32 c d)))) ∧
    IsDyadic j (x - y + z - t) (half32 (add32 (half32 (sub32 a b)) (half32 (sub32 c d)))) ∧
    IsDyadic j (x - y - z + t) (half32 (sub32 (half32 (sub32 a b)) (half32 (sub32 c d)))) := by
  obtain ⟨h1, h2, h3, h4⟩ := hs
  have p1 := (ha.add hb (by omega) (by omega)).half (by omega) (by omega)
  have p2 := (hc.add hd (by omega) (by omega)).half (by omega) (by omega)
  have m1 := (ha.sub hb (by omega) (by omega)).half (by omega) (by omega)
  have m2 := (hc.sub hd (by omega) (by omega)).half (by omega) (by omega)
  refine ⟨?_, ?_, ?_, ?_⟩
  · have := (p1.add p2 (by omega) (by omega)).half (by omega) (by omega)
    rwa [show x + y + (z + t) = x + y + z + t by ring] at this
  · have := (p1.sub p2 (by omega) (by omega)).half (by omega) (by omega)
    rwa [show x + y - (z + t) = x + y - z - t by ring] at this
  · have := (m1.add m2 (by omega) (by omega)).half (by omega) (by omega)
    rwa [show x - y + (z - t) = x - y + z - t by ring] at this
  · have := (m1.sub m2 (by omega) (by omega)).half (by omega) (by omega)
    rwa [show x - y - (z - t) = x - y - z + t by ring] at this

/-- R177: the inverse level on dyadic values is exact: the four sums, on the same scale. -/
theorem inv_dyadic {j : Nat} {x y z t : Int} {ll lh hl hh : Word} (hs : Small x y z t) (hj : j ≤ 252)
    (ha : IsDyadic j x ll) (hb : IsDyadic j y lh) (hc : IsDyadic j z hl) (hd : IsDyadic j t hh) :
    IsDyadic j (x + y + z + t) (add32 (add32 ll lh) (add32 hl hh)) ∧
    IsDyadic j (x + y - z - t) (sub32 (add32 ll lh) (add32 hl hh)) ∧
    IsDyadic j (x - y + z - t) (add32 (sub32 ll lh) (sub32 hl hh)) ∧
    IsDyadic j (x - y - z + t) (sub32 (sub32 ll lh) (sub32 hl hh)) := by
  obtain ⟨h1, h2, h3, h4⟩ := hs
  have p1 := ha.add hb (by omega) hj
  have p2 := hc.add hd (by omega) hj
  have m1 := ha.sub hb (by omega) hj
  have m2 := hc.sub hd (by omega) hj
  refine ⟨?_, ?_, ?_, ?_⟩
  · have := p1.add p2 (by omega) hj
    rwa [show x + y + (z + t) = x + y + z + t by ring] at this
  · have := p1.sub p2 (by omega) hj
    rwa [show x + y - (z + t) = x + y - z - t by ring] at this
  · have := m1.add m2 (by omega) hj
    rwa [show x - y + (z - t) = x - y + z - t by ring] at this
  · have := m1.sub m2 (by omega) hj
    rwa [show x - y - (z - t) = x - y - z + t by ring] at this

/-- R19, R174: a forward level takes LL values of level `c` to LL and detail values of level `c + 1`. -/
theorem fwd_codec {k : Nat} (hk : k ≤ 6) {a b c d : Word} (ha : CodecLow k a) (hb : CodecLow k b)
    (hc : CodecLow k c) (hd : CodecLow k d) :
    CodecLow (k + 1) (half32 (add32 (half32 (add32 a b)) (half32 (add32 c d)))) ∧
    CodecDetail (k + 1) (half32 (sub32 (half32 (add32 a b)) (half32 (add32 c d)))) ∧
    CodecDetail (k + 1) (half32 (add32 (half32 (sub32 a b)) (half32 (sub32 c d)))) ∧
    CodecDetail (k + 1) (half32 (sub32 (half32 (sub32 a b)) (half32 (sub32 c d)))) := by
  obtain ⟨x, hx, ha⟩ := (codecLow_iff (by omega)).1 ha
  obtain ⟨y, hy, hb⟩ := (codecLow_iff (by omega)).1 hb
  obtain ⟨z, hz, hc⟩ := (codecLow_iff (by omega)).1 hc
  obtain ⟨t, ht, hd⟩ := (codecLow_iff (by omega)).1 hd
  have hp : (4 : Nat) ^ k ≤ 4 ^ 6 := Nat.pow_le_pow_right (by omega) hk
  have e : 149 - 2 * k = 149 - 2 * (k + 1) + 2 := by omega
  have e4 : (4 : Nat) ^ (k + 1) = 4 * 4 ^ k := by rw [pow_succ]; ring
  rw [e] at ha hb hc hd
  obtain ⟨h1, h2, h3, h4⟩ := fwd_dyadic ⟨by omega, by omega, by omega, by omega⟩ (by omega) ha hb hc hd
  refine ⟨(codecLow_iff (by omega)).2 ⟨x + y + z + t, ?_, ?_⟩, (codecDetail_iff (by omega)).2 ⟨_, ?_, h2⟩,
    (codecDetail_iff (by omega)).2 ⟨_, ?_, h3⟩, (codecDetail_iff (by omega)).2 ⟨_, ?_, h4⟩⟩
  · omega
  · push_cast; exact h1
  · omega
  · omega
  · omega

/-- R178: the inverse level gives back, bit for bit, the four values a forward level started from. -/
theorem inv_fwd_codec {k : Nat} (hk : k ≤ 6) {a b c d ll lh hl hh : Word} (ha : CodecLow k a)
    (hb : CodecLow k b) (hc : CodecLow k c) (hd : CodecLow k d)
    (hll : ll = half32 (add32 (half32 (add32 a b)) (half32 (add32 c d))))
    (hlh : lh = half32 (sub32 (half32 (add32 a b)) (half32 (add32 c d))))
    (hhl : hl = half32 (add32 (half32 (sub32 a b)) (half32 (sub32 c d))))
    (hhh : hh = half32 (sub32 (half32 (sub32 a b)) (half32 (sub32 c d)))) :
    add32 (add32 ll lh) (add32 hl hh) = a ∧ sub32 (add32 ll lh) (add32 hl hh) = b ∧
      add32 (sub32 ll lh) (sub32 hl hh) = c ∧ sub32 (sub32 ll lh) (sub32 hl hh) = d := by
  obtain ⟨x, hx, ha⟩ := (codecLow_iff (by omega)).1 ha
  obtain ⟨y, hy, hb⟩ := (codecLow_iff (by omega)).1 hb
  obtain ⟨z, hz, hc⟩ := (codecLow_iff (by omega)).1 hc
  obtain ⟨t, ht, hd⟩ := (codecLow_iff (by omega)).1 hd
  have hp : (4 : Nat) ^ k ≤ 4 ^ 6 := Nat.pow_le_pow_right (by omega) hk
  have e : 149 - 2 * k = 149 - 2 * (k + 1) + 2 := by omega
  rw [e] at ha hb hc hd
  obtain ⟨h1, h2, h3, h4⟩ := fwd_dyadic ⟨by omega, by omega, by omega, by omega⟩ (by omega) ha hb hc hd
  rw [← hll] at h1; rw [← hlh] at h2; rw [← hhl] at h3; rw [← hhh] at h4
  obtain ⟨i1, i2, i3, i4⟩ := inv_dyadic ⟨by omega, by omega, by omega, by omega⟩ (by omega) h1 h2 h3 h4
  refine ⟨?_, ?_, ?_, ?_⟩
  · refine IsDyadic.unique (IsDyadic.of_rescale (IsDyadic.of_rescale ?_)) ha
    convert i1 using 1; ring
  · refine IsDyadic.unique (IsDyadic.of_rescale (IsDyadic.of_rescale ?_)) hb
    convert i2 using 1; ring
  · refine IsDyadic.unique (IsDyadic.of_rescale (IsDyadic.of_rescale ?_)) hc
    convert i3 using 1; ring
  · refine IsDyadic.unique (IsDyadic.of_rescale (IsDyadic.of_rescale ?_)) hd
    convert i4 using 1; ring

/-! One level on a plane, element by element. -/

/-- The low-pass or high-pass arithmetic of R172 on the four values of one 2 × 2 block. -/
def fwdQuad (b : Subband) (x y z t : Word) : Word :=
  match b with
  | .ll => half32 (add32 (half32 (add32 x y)) (half32 (add32 z t)))
  | .lh => half32 (sub32 (half32 (add32 x y)) (half32 (add32 z t)))
  | .hl => half32 (add32 (half32 (sub32 x y)) (half32 (sub32 z t)))
  | .hh => half32 (sub32 (half32 (sub32 x y)) (half32 (sub32 z t)))

theorem fwdSubband_eq (P : Nat → Nat → Word) (b : Subband) (i j : Nat) : fwdSubband P b i j =
    fwdQuad b (P (2 * i) (2 * j)) (P (2 * i) (2 * j + 1)) (P (2 * i + 1) (2 * j)) (P (2 * i + 1) (2 * j + 1)) := by
  cases b <;> rfl

/-- R171, R172: the quadrant of a position of the region says which subband it belongs to. -/
theorem fwdValue_subband {wk hk : Nat} (P : Nat → Nat → Word) (b : Subband) {i j : Nat} (hi : i < hk)
    (hj : j < wk) :
    fwdValue wk hk P (subbandPos wk hk b i j).1 (subbandPos wk hk b i j).2 = fwdSubband P b i j := by
  have e1 : hk + i - hk = i := by omega
  have e2 : wk + j - wk = j := by omega
  cases b <;> simp [subbandPos, fwdValue, hi, hj, e1, e2]

/-- R172, R171: what a forward level leaves in a subband whose level has `wk` × `hk` subbands. -/
theorem fwdLevel_elem {w h c wk hk : Nat} (hw : dimAt w c = 2 * wk) (hh : dimAt h c = 2 * hk)
    {plane plane' : Memory Word} (hk' : fwdLevel w h c plane = .ok plane') (b : Subband) {i j : Nat}
    (hi : i < hk) (hj : j < wk) : plane'.read (planeIndex w (subbandPos wk hk b i j)) =
      some (fwdSubband (planeAt w plane) b i j) := by
  have hle := dimAt_le w c
  have hlt : (subbandPos wk hk b i j).2 < w := by cases b <;> simp only [subbandPos] <;> omega
  have hin : InRegion w (dimAt h c) (dimAt w c) (planeIndex w (subbandPos wk hk b i j)) := by
    refine ⟨?_, ?_⟩
    · rw [planeIndex_div hlt]; cases b <;> simp only [subbandPos] <;> omega
    · rw [planeIndex_mod hlt]; cases b <;> simp only [subbandPos] <;> omega
  rw [read_fwdLevel hk', if_pos hin, planeIndex_div hlt, planeIndex_mod hlt, hw, hh,
    show 2 * wk / 2 = wk by omega, show 2 * hk / 2 = hk by omega]
  exact congrArg some (fwdValue_subband _ b hi hj)

/-- R176: what an inverse level leaves at row `2i + p`, column `2j + q` of its region. -/
theorem invLevel_elem {w h c : Nat} (hc : 1 ≤ c) {plane plane' : Memory Word}
    (hk : invLevel w h c plane = .ok plane') {i j : Nat} (hi : i < dimAt h c) (hj : j < dimAt w c)
    {ll lh hl hh : Word}
    (h1 : planeAt w plane i j = ll) (h2 : planeAt w plane (dimAt h c + i) j = lh)
    (h3 : planeAt w plane i (dimAt w c + j) = hl) (h4 : planeAt w plane (dimAt h c + i) (dimAt w c + j) = hh) :
    plane'.read (planeIndex w (2 * i, 2 * j)) = some (add32 (add32 ll lh) (add32 hl hh)) ∧
    plane'.read (planeIndex w (2 * i, 2 * j + 1)) = some (sub32 (add32 ll lh) (add32 hl hh)) ∧
    plane'.read (planeIndex w (2 * i + 1, 2 * j)) = some (add32 (sub32 ll lh) (sub32 hl hh)) ∧
    plane'.read (planeIndex w (2 * i + 1, 2 * j + 1)) = some (sub32 (sub32 ll lh) (sub32 hl hh)) := by
  have hle := two_dimAt_le (d := w) hc
  have key : ∀ r k, r < 2 * dimAt h c → k < 2 * dimAt w c → plane'.read (planeIndex w (r, k)) =
      some (invValue (dimAt w c) (dimAt h c) (planeAt w plane) r k) := by
    intro r k hr hk'
    have hlt : (r, k).2 < w := by simp only; omega
    have hin : InRegion w (2 * dimAt h c) (2 * dimAt w c) (planeIndex w (r, k)) :=
      ⟨by rw [planeIndex_div hlt]; exact hr, by rw [planeIndex_mod hlt]; exact hk'⟩
    rw [read_invLevel hc hk, if_pos hin, planeIndex_div hlt, planeIndex_mod hlt]
  have e0 : 2 * i % 2 = 0 := by omega
  have e1 : (2 * i + 1) % 2 = 1 := by omega
  have e2 : 2 * j % 2 = 0 := by omega
  have e3 : (2 * j + 1) % 2 = 1 := by omega
  have d0 : 2 * i / 2 = i := by omega
  have d1 : (2 * i + 1) / 2 = i := by omega
  have d2 : 2 * j / 2 = j := by omega
  have d3 : (2 * j + 1) / 2 = j := by omega
  refine ⟨?_, ?_, ?_, ?_⟩ <;> rw [key _ _ (by omega) (by omega)] <;>
    simp [invValue, invLow, invHigh, subbandPos, e0, e1, e2, e3, d0, d1, d2, d3, h1, h2, h3, h4]

/-- Every element of the region `A_c` of a plane is an LL value of level `c` (R19). -/
abbrev LowRegion (w h c : Nat) (plane : Memory Word) : Prop :=
  ∀ r < dimAt h c, ∀ k < dimAt w c, ∃ v, plane.read (planeIndex w (r, k)) = some v ∧ CodecLow c v

/-- R178, R19: in the codec domain a forward level runs, its LL quarter is in the domain of the next level,
its other quarters hold detail values, and the inverse level gives the plane back. -/
theorem inv_fwdLevel {w h l c : Nat} (hw : w % 2 ^ l = 0) (hh : h % 2 ^ l = 0) (hc : c < l) (hl : l ≤ 7)
    {plane : Memory Word} (hp : LowRegion w h c plane) :
    ∃ plane', fwdLevel w h c plane = .ok plane' ∧ LowRegion w h (c + 1) plane' ∧
      (∀ b, b ≠ .ll → ∀ i < dimAt h (c + 1), ∀ j < dimAt w (c + 1), ∃ v,
        plane'.read (planeIndex w (subbandPos (dimAt w (c + 1)) (dimAt h (c + 1)) b i j)) = some v ∧
          CodecDetail (c + 1) v) ∧
      (Memory.wf plane = true → invLevel w h (c + 1) plane' = .ok plane) := by
  have hwd := dimAt_double hw hc
  have hhd := dimAt_double hh hc
  have hwl := dimAt_le w c
  have hhl := dimAt_le h c
  obtain ⟨plane', hf⟩ : ∃ plane', fwdLevel w h c plane = .ok plane' :=
    ⟨_, fwdLevel_eq_ok.2 ⟨fun r hr k hk => (hp r hr k hk).imp fun _ hv => hv.1, rfl⟩⟩
  have hlow : ∀ r < dimAt h c, ∀ k < dimAt w c, CodecLow c (planeAt w plane r k) := by
    intro r hr k hk
    obtain ⟨v, hv, hcl⟩ := hp r hr k hk
    unfold planeAt; rw [hv]; exact hcl
  have helem := fun b i hi j hj => fwdLevel_elem hwd hhd hf b (i := i) (j := j) hi hj
  have hquad : ∀ i < dimAt h (c + 1), ∀ j < dimAt w (c + 1), _ := fun i hi j hj =>
    fwd_codec (k := c) (by omega) (hlow (2 * i) (by omega) (2 * j) (by omega))
      (hlow (2 * i) (by omega) (2 * j + 1) (by omega)) (hlow (2 * i + 1) (by omega) (2 * j) (by omega))
      (hlow (2 * i + 1) (by omega) (2 * j + 1) (by omega))
  refine ⟨plane', hf, fun i hi j hj => ⟨_, helem .ll i hi j hj, ?_⟩, ?_, ?_⟩
  · rw [fwdSubband_eq]; exact (hquad i hi j hj).1
  · intro b hb i hi j hj
    refine ⟨_, helem b i hi j hj, ?_⟩
    rw [fwdSubband_eq]
    obtain ⟨_, h2, h3, h4⟩ := hquad i hi j hj
    cases b
    · exact absurd rfl hb
    · exact h2
    · exact h3
    · exact h4
  · intro hwf
    obtain ⟨plane'', hi⟩ : ∃ plane'', invLevel w h (c + 1) plane' = .ok plane'' :=
      ⟨_, invLevel_eq_ok.2 ⟨fun r hr k hk => fwdLevel_present hf
        ((hp r (by omega) k (by omega)).imp fun _ hv => hv.1), rfl⟩⟩
    rw [hi]
    congr 1
    refine Memory.eq_of_read_eq (wf_invLevel (wf_fwdLevel hwf hf) hi) hwf fun x => ?_
    by_cases hx : InRegion w (dimAt h c) (dimAt w c) x
    · obtain ⟨r, k, hr, hk, rfl⟩ : ∃ r k, r < dimAt h c ∧ k < dimAt w c ∧ x = planeIndex w (r, k) :=
        ⟨_, _, hx.1, hx.2, (planeIndex_divMod w x).symm⟩
      have hi2 : r / 2 < dimAt h (c + 1) := by omega
      have hj2 : k / 2 < dimAt w (c + 1) := by omega
      have hat : ∀ b, planeAt w plane' (subbandPos (dimAt w (c + 1)) (dimAt h (c + 1)) b (r / 2) (k / 2)).1
          (subbandPos (dimAt w (c + 1)) (dimAt h (c + 1)) b (r / 2) (k / 2)).2 =
          fwdSubband (planeAt w plane) b (r / 2) (k / 2) := by
        intro b; exact planeAt_of_read (helem b _ hi2 _ hj2)
      obtain ⟨q1, q2, q3, q4⟩ := invLevel_elem (by omega) hi hi2 hj2 (hat .ll) (hat .lh) (hat .hl) (hat .hh)
      obtain ⟨e1, e2, e3, e4⟩ := inv_fwd_codec (k := c) (by omega)
        (hlow (2 * (r / 2)) (by omega) (2 * (k / 2)) (by omega))
        (hlow (2 * (r / 2)) (by omega) (2 * (k / 2) + 1) (by omega))
        (hlow (2 * (r / 2) + 1) (by omega) (2 * (k / 2)) (by omega))
        (hlow (2 * (r / 2) + 1) (by omega) (2 * (k / 2) + 1) (by omega)) rfl rfl rfl rfl
      simp only [fwdSubband_eq, fwdQuad] at q1 q2 q3 q4
      rw [e1] at q1; rw [e2] at q2; rw [e3] at q3; rw [e4] at q4
      have back : plane.read (planeIndex w (r, k)) = some (planeAt w plane r k) := by
        obtain ⟨v, hv, _⟩ := hp r hr k hk
        unfold planeAt; rw [hv]; rfl
      rw [back]
      rcases Nat.mod_two_eq_zero_or_one r with hr2 | hr2 <;> rcases Nat.mod_two_eq_zero_or_one k with hk2 | hk2
      · rwa [show 2 * (r / 2) = r by omega, show 2 * (k / 2) = k by omega] at q1
      · rwa [show 2 * (r / 2) = r by omega, show 2 * (k / 2) + 1 = k by omega] at q2
      · rwa [show 2 * (r / 2) + 1 = r by omega, show 2 * (k / 2) = k by omega] at q3
      · rwa [show 2 * (r / 2) + 1 = r by omega, show 2 * (k / 2) + 1 = k by omega] at q4
    · rw [read_invLevel (by omega) hi, if_neg (by rwa [← hhd, ← hwd]), read_fwdLevel hf, if_neg hx]

/-- R184: in the codec domain any number of forward levels run, and the inverse levels give the plane back. -/
theorem invLevels_fwdLevels {w h l n : Nat} (hw : w % 2 ^ l = 0) (hh : h % 2 ^ l = 0) (hn : n ≤ l)
    (hl : l ≤ 7) {plane : Memory Word} (hp : LowRegion w h 0 plane) :
    ∃ plane', fwdLevels w h 0 n plane = .ok plane' ∧ LowRegion w h n plane' ∧
      (∀ c, 1 ≤ c → c ≤ n → ∀ b, b ≠ .ll → ∀ i < dimAt h c, ∀ j < dimAt w c, ∃ v,
        plane'.read (planeIndex w (subbandPos (dimAt w c) (dimAt h c) b i j)) = some v ∧ CodecDetail c v) ∧
      (Memory.wf plane = true → invLevels w h n plane' = .ok plane) := by
  induction n with
  | zero => exact ⟨plane, rfl, hp, fun c h1 h2 => by omega, fun _ => rfl⟩
  | succ n ih =>
    obtain ⟨p1, hf, hlow, hdet, hinv⟩ := ih (by omega)
    obtain ⟨p2, hf2, hlow2, hdet2, hinv2⟩ := inv_fwdLevel hw hh (by omega) hl hlow
    refine ⟨p2, ?_, hlow2, ?_, fun hwf => ?_⟩
    · rw [fwdLevels_succ_last, hf]; simpa using hf2
    · intro c h1 h2 b hb i hi j hj
      rcases Nat.lt_or_ge n c with hcn | hcn
      · obtain rfl : c = n + 1 := by omega
        exact hdet2 b hb i hi j hj
      · obtain ⟨v, hv, hd⟩ := hdet c h1 hcn b hb i hi j hj
        refine ⟨v, ?_, hd⟩
        rw [read_fwdLevel hf2, if_neg, hv]
        have hwc := dimAt_double hw (show c - 1 < l by omega)
        have hhc := dimAt_double hh (show c - 1 < l by omega)
        rw [show c - 1 + 1 = c by omega] at hwc hhc
        have := dimAt_le w (c - 1)
        have hlt : (subbandPos (dimAt w c) (dimAt h c) b i j).2 < w := by
          cases b <;> simp only [subbandPos] <;> omega
        rw [InRegion, planeIndex_div hlt, planeIndex_mod hlt]
        have h3 := dimAt_anti w hcn
        have h4 := dimAt_anti h hcn
        cases b <;> simp only [subbandPos] <;> first | exact absurd rfl hb | omega
    · simp only [invLevels, hinv2 (wf_fwdLevels hwf hf), hinv hwf]

end Sys2Proof.Machine
end

