-- ==== Sys2Proof/Laws/HostProgram.lean ====
section
/-! SUPPORT. What a turn of the host, and a run of turns, can do. -/

namespace Sys2Proof.Machine

/-- A turn of a host whose line writes. -/
theorem HostSystem.turn_wr (s : State) (a d : Word) (ops : List HostOp) :
    HostSystem.turn { prog := .wr a d :: ops, mach := s } .host =
      .next { prog := ops, mach := s.writeEvent a d } := rfl

/-- A turn of the core is one step of the machine and leaves the program (R54). -/
theorem HostSystem.turn_core (s : State) (ops : List HostOp) :
    HostSystem.turn { prog := ops, mach := s } .core = HostSystem.lift (fun _ => ops) (s.stepOn .core) := rfl

/-- R141: a turn of a host in WAIT: one read of STATUS, and the line again while BUSY = 1. -/
theorem HostSystem.turn_wait (s : State) (ops : List HostOp) :
    HostSystem.turn { prog := .wait :: ops, mach := s } .host =
      .next { prog := if s.busy then .wait :: ops else ops, mach := s.record (.read s.statusWord .okay) } := by
  have hb : s.statusWord.getLsbD 0 = s.busy := by
    unfold State.statusWord flagBit
    cases s.busy <;> cases s.done <;> cases s.errv <;> cases s.qclamp <;> cases s.oclamp <;>
      cases s.vtrunc <;> simp
  have hr : s.stepOn (HostOp.event .wait) = .next (s.record (.read s.statusWord .okay)) := by
    cases hs : s.busy <;> simp [State.stepOn, HostOp.event, step, State.readEvent, State.busRead, regAddr,
      Reg.offset, busTarget, regAt, Reg.readableWhileBusy, State.regRead, State.record, State.statusWord]
  simp only [HostSystem.turn, hr, HostSystem.lift, HostOp.loops, State.record, List.getLast?_concat, hb]

/-- R141: `n` polls of a busy machine leave the host in WAIT. -/
theorem HostSystem.run_polls (ops : List HostOp) (ts : List Turn) (n : Nat) (s : State) (h : s.busy = true) :
    HostSystem.run (List.replicate n .host ++ ts) { prog := .wait :: ops, mach := s } =
      HostSystem.run ts { prog := .wait :: ops, mach :=
        { s with replies := s.replies ++ List.replicate n (.read s.statusWord .okay) } } := by
  induction n generalizing s with
  | zero => simp
  | succ n ih =>
    rw [List.replicate_succ, List.cons_append, HostSystem.run, HostSystem.turn_wait, if_pos h]
    change HostSystem.run _ { prog := .wait :: ops, mach := s.record _ } = _
    rw [ih (s.record _) h]
    simp [State.record, State.statusWord, List.replicate_succ]

/-- R141: FILL, line by line. -/
theorem getElem?_hostFill (m : MemId) (ds : List Word) (k i : Nat) :
    (hostFill m k ds)[i]? = ds[i]?.map fun d => .wr (elemAddr m (k + i)) d := by
  induction ds generalizing k i with
  | nil => simp [hostFill]
  | cons d ds ih =>
    cases i with
    | zero => simp [hostFill]
    | succ i => simp only [hostFill, List.getElem?_cons_succ, ih]; congr 2; funext d; congr 2; omega

end Sys2Proof.Machine
end

