-- ==== Sys2Proof/Laws/PerInstr.lean ====
section
/-! SUPPORT. The per-instruction family `Encoding`: the word of a well-formed command lies in the row the
opcode table gives it, `(word & mask) = match` (R134, R139). -/

namespace Sys2Proof.Laws.Encoding

/-- R134, R139: the encoding of a command matches its own row of the opcode table. -/
def Statement (i : Sys2Proof.Instr) : Prop :=
  i.wellFormed = true → i.rowMatches (Sys2Proof.encode i)

/-- A field shifted into place leaves no bit outside its place. -/
theorem field_and_mask {x n s : Nat} {mask : Sys2Proof.Word} (hx : x < 2 ^ n)
    (hm : ∀ i, i < 32 → s ≤ i → i < s + n → mask.getLsbD i = false) :
    (BitVec.ofNat 32 x <<< s) &&& mask = 0 := by
  apply BitVec.eq_of_getLsbD_eq
  intro i hi
  simp only [BitVec.getLsbD_and, BitVec.getLsbD_shiftLeft, BitVec.getLsbD_ofNat, BitVec.getLsbD_zero]
  by_cases h1 : i < s
  · simp [h1]
  · by_cases h2 : i < s + n
    · simp [hm i hi (by omega) h2]
    · have : x.testBit (i - s) = false :=
        Nat.testBit_lt_two_pow (lt_of_lt_of_le hx (Nat.pow_le_pow_right (by omega) (by omega)))
      simp [this]

theorem nop : Statement .nop := fun _ => by decide
theorem loadImage : Statement .loadImage := fun _ => by decide
theorem storeImage : Statement .storeImage := fun _ => by decide
theorem fwdLevel : Statement .fwdLevel := fun _ => by decide
theorem invLevel : Statement .invLevel := fun _ => by decide
theorem fwdAll : Statement .fwdAll := fun _ => by decide
theorem invAll : Statement .invAll := fun _ => by decide
theorem qpack : Statement .qpack := fun _ => by decide
theorem unpackDq : Statement .unpackDq := fun _ => by decide
theorem encode : Statement .encode := fun _ => by decide
theorem decode : Statement .decode := fun _ => by decide
theorem bpInit : Statement .bpInit := fun _ => by decide
theorem flush : Statement .flush := fun _ => by decide

theorem push (v w : Nat) : Statement (.push v w) := by
  intro h
  simp only [Sys2Proof.Instr.wellFormed, Bool.and_eq_true, decide_eq_true_eq] at h
  have hv := field_and_mask (x := v) (n := 8) (s := 16) (mask := 0xFF00F0FF) (by omega) (by decide)
  have hw := field_and_mask (x := w) (n := 4) (s := 8) (mask := 0xFF00F0FF) (by omega) (by decide)
  show (((BitVec.ofNat 32 v <<< 16) ||| (BitVec.ofNat 32 w <<< 8)) ||| 0x11) &&& 0xFF00F0FF = 0x11
  rw [BitVec.and_or_distrib_right, BitVec.and_or_distrib_right, hv, hw]
  decide

theorem pull (w : Nat) : Statement (.pull w) := by
  intro h
  simp only [Sys2Proof.Instr.wellFormed, decide_eq_true_eq] at h
  have hw := field_and_mask (x := w) (n := 4) (s := 8) (mask := 0xFFFFF0FF) (by omega) (by decide)
  show ((BitVec.ofNat 32 w <<< 8) ||| 0x13) &&& 0xFFFFF0FF = 0x13
  rw [BitVec.and_or_distrib_right, hw]
  decide

theorem quant (k : Nat) : Statement (.quant k) := by
  intro h
  simp only [Sys2Proof.Instr.wellFormed, decide_eq_true_eq] at h
  have hk := field_and_mask (x := k) (n := 3) (s := 12) (mask := 0xFFFF8FFF) (by omega) (by decide)
  show ((BitVec.ofNat 32 k <<< 12) ||| 0x20) &&& 0xFFFF8FFF = 0x20
  rw [BitVec.and_or_distrib_right, hk]
  decide

theorem dequant (k : Nat) : Statement (.dequant k) := by
  intro h
  simp only [Sys2Proof.Instr.wellFormed, decide_eq_true_eq] at h
  have hk := field_and_mask (x := k) (n := 3) (s := 12) (mask := 0xFFFF8FFF) (by omega) (by decide)
  show ((BitVec.ofNat 32 k <<< 12) ||| 0x21) &&& 0xFFFF8FFF = 0x21
  rw [BitVec.and_or_distrib_right, hk]
  decide

end Sys2Proof.Laws.Encoding
end

