-- ==== Sys2Proof/Laws/Stages.lean ====
section
/-! SUPPORT. No body reads BUSY, DONE or any other flag (R52): completing a state, or forgetting its flags,
before a body or after it comes to the same. So the stages of a composite command can be run one by one. -/

namespace Sys2Proof.Machine

/-- Applying `F` before and after a body is the same as applying it after. -/
def Respects (F : State → State) (f : State → Except Fault State) : Prop :=
  ∀ s, (f s).map F = (f (F s)).map F

theorem Respects.of_eq {F : State → State} {f : State → Except Fault State} (h : Respects F f) {s s' : State}
    (hs : F s = F s') : (f s).map F = (f s').map F := by rw [h s, h s', hs]

theorem Respects.andThen {F : State → State} {f g : State → Except Fault State} (hf : Respects F f)
    (hg : Respects F g) : Respects F (andThen f g) := by
  intro s
  have h := hf s
  unfold Machine.andThen
  cases h1 : f s with
  | error e =>
    rw [h1] at h
    cases h2 : f (F s) with
    | error e' => rw [h2] at h; simpa [Except.map] using h
    | ok u' => rw [h2] at h; simp [Except.map] at h
  | ok u =>
    rw [h1] at h
    cases h2 : f (F s) with
    | error e' => rw [h2] at h; simp [Except.map] at h
    | ok u' => rw [h2] at h; exact hg.of_eq (by simpa [Except.map] using h)

/-! Completing a state. -/

theorem bodyLoadImage_complete : Respects State.complete bodyLoadImage := by
  intro s
  unfold bodyLoadImage
  show Except.map _ (match requireAll .image s.image (List.range s.samples) with | .error _ => _ | .ok _ => _) =
    Except.map _ (match requireAll .image s.image (List.range s.samples) with | .error _ => _ | .ok _ => _)
  cases requireAll .image s.image (List.range s.samples) <;> rfl

theorem bodyStoreImage_complete : Respects State.complete bodyStoreImage := by
  intro s
  unfold bodyStoreImage
  show Except.map _ (match requireAll .plane s.plane (List.range s.samples) with | .error _ => _ | .ok _ => _) =
    Except.map _ (match requireAll .plane s.plane (List.range s.samples) with | .error _ => _ | .ok _ => _)
  cases requireAll .plane s.plane (List.range s.samples) <;> rfl

theorem bodyFwdLevel_complete : Respects State.complete bodyFwdLevel := by
  intro s
  unfold bodyFwdLevel
  show Except.map _ (match fwdLevel s.width.toNat s.height.toNat s.curLevel.toNat s.plane with | .error _ => _ | .ok _ => _) =
    Except.map _ (match fwdLevel s.width.toNat s.height.toNat s.curLevel.toNat s.plane with | .error _ => _ | .ok _ => _)
  cases fwdLevel s.width.toNat s.height.toNat s.curLevel.toNat s.plane <;> rfl

theorem bodyInvLevel_complete : Respects State.complete bodyInvLevel := by
  intro s
  unfold bodyInvLevel
  show Except.map _ (match invLevel s.width.toNat s.height.toNat s.curLevel.toNat s.plane with | .error _ => _ | .ok _ => _) =
    Except.map _ (match invLevel s.width.toNat s.height.toNat s.curLevel.toNat s.plane with | .error _ => _ | .ok _ => _)
  cases invLevel s.width.toNat s.height.toNat s.curLevel.toNat s.plane <;> rfl

theorem bodyFwdAll_complete : Respects State.complete bodyFwdAll := by
  intro s
  unfold bodyFwdAll
  show Except.map _ (match fwdLevels s.width.toNat s.height.toNat s.curLevel.toNat
    (s.levels.toNat - s.curLevel.toNat) s.plane with | .error _ => _ | .ok _ => _) =
    Except.map _ (match fwdLevels s.width.toNat s.height.toNat s.curLevel.toNat
    (s.levels.toNat - s.curLevel.toNat) s.plane with | .error _ => _ | .ok _ => _)
  cases fwdLevels s.width.toNat s.height.toNat s.curLevel.toNat
    (s.levels.toNat - s.curLevel.toNat) s.plane <;> rfl

theorem bodyInvAll_complete : Respects State.complete bodyInvAll := by
  intro s
  unfold bodyInvAll
  show Except.map _ (match invLevels s.width.toNat s.height.toNat s.curLevel.toNat s.plane with | .error _ => _ | .ok _ => _) =
    Except.map _ (match invLevels s.width.toNat s.height.toNat s.curLevel.toNat s.plane with | .error _ => _ | .ok _ => _)
  cases invLevels s.width.toNat s.height.toNat s.curLevel.toNat s.plane <;> rfl

theorem bodyQpack_complete : Respects State.complete bodyQpack := by
  intro s
  unfold bodyQpack
  show Except.map _ (match packSched s.width.toNat s.plane
    (sched s.width.toNat s.height.toNat s.levels.toNat) (Packer.start s.stream) false with | .error _ => _ | .ok (_, _) => _) =
    Except.map _ (match packSched s.width.toNat s.plane
    (sched s.width.toNat s.height.toNat s.levels.toNat) (Packer.start s.stream) false with | .error _ => _ | .ok (_, _) => _)
  cases packSched s.width.toNat s.plane
    (sched s.width.toNat s.height.toNat s.levels.toNat) (Packer.start s.stream) false <;> rfl

theorem bodyUnpackDq_complete : Respects State.complete bodyUnpackDq := by
  intro s
  unfold bodyUnpackDq
  show Except.map _ (match unpackSched s.width.toNat s.stream
    (sched s.width.toNat s.height.toNat s.levels.toNat) Unpacker.start s.plane with | .error _ => _ | .ok (_, _) => _) =
    Except.map _ (match unpackSched s.width.toNat s.stream
    (sched s.width.toNat s.height.toNat s.levels.toNat) Unpacker.start s.plane with | .error _ => _ | .ok (_, _) => _)
  cases unpackSched s.width.toNat s.stream
    (sched s.width.toNat s.height.toNat s.levels.toNat) Unpacker.start s.plane <;> rfl

theorem bodyPull_complete (w : Nat) : Respects State.complete (bodyPull w) := by
  intro s
  unfold bodyPull
  show Except.map _ (match upkPull s.stream w s.unpacker with | .error _ => _ | .ok (_, _) => _) =
    Except.map _ (match upkPull s.stream w s.unpacker with | .error _ => _ | .ok (_, _) => _)
  cases upkPull s.stream w s.unpacker <;> rfl

theorem bodyOf_complete (i : Instr) : Respects State.complete (bodyOf i) := by
  cases i with
  | nop => intro s; rfl
  | loadImage => exact bodyLoadImage_complete
  | storeImage => exact bodyStoreImage_complete
  | fwdLevel => exact bodyFwdLevel_complete
  | invLevel => exact bodyInvLevel_complete
  | fwdAll => exact bodyFwdAll_complete
  | invAll => exact bodyInvAll_complete
  | qpack => exact bodyQpack_complete
  | unpackDq => exact bodyUnpackDq_complete
  | encode => exact (bodyLoadImage_complete.andThen bodyFwdAll_complete).andThen bodyQpack_complete
  | decode => exact (bodyUnpackDq_complete.andThen bodyInvAll_complete).andThen bodyStoreImage_complete
  | bpInit => intro s; rfl
  | push v w => intro s; rfl
  | flush => intro s; rfl
  | pull w => exact bodyPull_complete w
  | quant k => intro s; rfl
  | dequant k => intro s; rfl

/-- Checks read no flag either. -/
theorem checksOf_complete (i : Instr) (s : State) : checksOf i (State.complete s) = checksOf i s := by
  cases i <;> rfl

/-! Forgetting the flags. -/

theorem bodyLoadImage_forgetFlags : Respects State.forgetFlags bodyLoadImage := by
  intro s
  unfold bodyLoadImage
  show Except.map _ (match requireAll .image s.image (List.range s.samples) with | .error _ => _ | .ok _ => _) =
    Except.map _ (match requireAll .image s.image (List.range s.samples) with | .error _ => _ | .ok _ => _)
  cases requireAll .image s.image (List.range s.samples) <;> rfl

theorem bodyStoreImage_forgetFlags : Respects State.forgetFlags bodyStoreImage := by
  intro s
  unfold bodyStoreImage
  show Except.map _ (match requireAll .plane s.plane (List.range s.samples) with | .error _ => _ | .ok _ => _) =
    Except.map _ (match requireAll .plane s.plane (List.range s.samples) with | .error _ => _ | .ok _ => _)
  cases requireAll .plane s.plane (List.range s.samples) <;> rfl

theorem bodyFwdLevel_forgetFlags : Respects State.forgetFlags bodyFwdLevel := by
  intro s
  unfold bodyFwdLevel
  show Except.map _ (match fwdLevel s.width.toNat s.height.toNat s.curLevel.toNat s.plane with | .error _ => _ | .ok _ => _) =
    Except.map _ (match fwdLevel s.width.toNat s.height.toNat s.curLevel.toNat s.plane with | .error _ => _ | .ok _ => _)
  cases fwdLevel s.width.toNat s.height.toNat s.curLevel.toNat s.plane <;> rfl

theorem bodyInvLevel_forgetFlags : Respects State.forgetFlags bodyInvLevel := by
  intro s
  unfold bodyInvLevel
  show Except.map _ (match invLevel s.width.toNat s.height.toNat s.curLevel.toNat s.plane with | .error _ => _ | .ok _ => _) =
    Except.map _ (match invLevel s.width.toNat s.height.toNat s.curLevel.toNat s.plane with | .error _ => _ | .ok _ => _)
  cases invLevel s.width.toNat s.height.toNat s.curLevel.toNat s.plane <;> rfl

theorem bodyFwdAll_forgetFlags : Respects State.forgetFlags bodyFwdAll := by
  intro s
  unfold bodyFwdAll
  show Except.map _ (match fwdLevels s.width.toNat s.height.toNat s.curLevel.toNat
    (s.levels.toNat - s.curLevel.toNat) s.plane with | .error _ => _ | .ok _ => _) =
    Except.map _ (match fwdLevels s.width.toNat s.height.toNat s.curLevel.toNat
    (s.levels.toNat - s.curLevel.toNat) s.plane with | .error _ => _ | .ok _ => _)
  cases fwdLevels s.width.toNat s.height.toNat s.curLevel.toNat
    (s.levels.toNat - s.curLevel.toNat) s.plane <;> rfl

theorem bodyInvAll_forgetFlags : Respects State.forgetFlags bodyInvAll := by
  intro s
  unfold bodyInvAll
  show Except.map _ (match invLevels s.width.toNat s.height.toNat s.curLevel.toNat s.plane with | .error _ => _ | .ok _ => _) =
    Except.map _ (match invLevels s.width.toNat s.height.toNat s.curLevel.toNat s.plane with | .error _ => _ | .ok _ => _)
  cases invLevels s.width.toNat s.height.toNat s.curLevel.toNat s.plane <;> rfl

theorem bodyQpack_forgetFlags : Respects State.forgetFlags bodyQpack := by
  intro s
  unfold bodyQpack
  show Except.map _ (match packSched s.width.toNat s.plane
    (sched s.width.toNat s.height.toNat s.levels.toNat) (Packer.start s.stream) false with | .error _ => _ | .ok (_, _) => _) =
    Except.map _ (match packSched s.width.toNat s.plane
    (sched s.width.toNat s.height.toNat s.levels.toNat) (Packer.start s.stream) false with | .error _ => _ | .ok (_, _) => _)
  cases packSched s.width.toNat s.plane
    (sched s.width.toNat s.height.toNat s.levels.toNat) (Packer.start s.stream) false <;> rfl

theorem bodyUnpackDq_forgetFlags : Respects State.forgetFlags bodyUnpackDq := by
  intro s
  unfold bodyUnpackDq
  show Except.map _ (match unpackSched s.width.toNat s.stream
    (sched s.width.toNat s.height.toNat s.levels.toNat) Unpacker.start s.plane with | .error _ => _ | .ok (_, _) => _) =
    Except.map _ (match unpackSched s.width.toNat s.stream
    (sched s.width.toNat s.height.toNat s.levels.toNat) Unpacker.start s.plane with | .error _ => _ | .ok (_, _) => _)
  cases unpackSched s.width.toNat s.stream
    (sched s.width.toNat s.height.toNat s.levels.toNat) Unpacker.start s.plane <;> rfl

theorem bodyPull_forgetFlags (w : Nat) : Respects State.forgetFlags (bodyPull w) := by
  intro s
  unfold bodyPull
  show Except.map _ (match upkPull s.stream w s.unpacker with | .error _ => _ | .ok (_, _) => _) =
    Except.map _ (match upkPull s.stream w s.unpacker with | .error _ => _ | .ok (_, _) => _)
  cases upkPull s.stream w s.unpacker <;> rfl

theorem bodyOf_forgetFlags (i : Instr) : Respects State.forgetFlags (bodyOf i) := by
  cases i with
  | nop => intro s; rfl
  | loadImage => exact bodyLoadImage_forgetFlags
  | storeImage => exact bodyStoreImage_forgetFlags
  | fwdLevel => exact bodyFwdLevel_forgetFlags
  | invLevel => exact bodyInvLevel_forgetFlags
  | fwdAll => exact bodyFwdAll_forgetFlags
  | invAll => exact bodyInvAll_forgetFlags
  | qpack => exact bodyQpack_forgetFlags
  | unpackDq => exact bodyUnpackDq_forgetFlags
  | encode => exact (bodyLoadImage_forgetFlags.andThen bodyFwdAll_forgetFlags).andThen bodyQpack_forgetFlags
  | decode => exact (bodyUnpackDq_forgetFlags.andThen bodyInvAll_forgetFlags).andThen bodyStoreImage_forgetFlags
  | bpInit => intro s; rfl
  | push v w => intro s; rfl
  | flush => intro s; rfl
  | pull w => exact bodyPull_forgetFlags w
  | quant k => intro s; rfl
  | dequant k => intro s; rfl

/-- Checks read no flag either. -/
theorem checksOf_forgetFlags (i : Instr) (s : State) : checksOf i (State.forgetFlags s) = checksOf i s := by
  cases i <;> rfl

/-- A stage of a composite command, run as a command of its own on a completed state (R334). -/
theorem exec_complete {i : Instr} {s t : State} (hc : checksOf i s = none) (hb : bodyOf i s = .ok t) :
    exec i s.complete = .next t.complete := by
  have h := bodyOf_complete i s
  rw [hb] at h
  cases h2 : bodyOf i s.complete with
  | error e => rw [h2] at h; simp [Except.map] at h
  | ok u =>
    rw [h2] at h
    rw [exec_of_ok (by rw [checksOf_complete]; exact hc) h2]
    congr 1
    simpa [Except.map] using h.symm

end Sys2Proof.Machine
end

