-- ==== Sys2Proof/Laws/Step.lean ====
section
/-! SUPPORT. What one step can do, said once. -/

namespace Sys2Proof.Machine

/-- What a step can do (R54, R135, R90, R370): complete a command, complete a word that does not decode,
idle, record a read, take a write, or reset. -/
theorem step_eq_next {s t : State} (h : step s = .next t) :
    ∃ es, (∃ i, decode s.pend = .ok i ∧ s.busy = true ∧ exec i { s with env := es } = .next t) ∨
      (∃ e, decode s.pend = .error e ∧ s.busy = true ∧ t = State.raiseError { s with env := es } e) ∨
      (s.busy = false ∧ t = { s with env := es }) ∨
      (∃ r, t = State.record { s with env := es } r) ∨
      (∃ a d, t = State.writeEvent { s with env := es } a d) ∨
      t = State.hardwareReset { s with env := es } := by
  have core : ∀ es, coreStep { s with env := es } = .next t →
      (∃ i, decode s.pend = .ok i ∧ s.busy = true ∧ exec i { s with env := es } = .next t) ∨
      (∃ e, decode s.pend = .error e ∧ s.busy = true ∧ t = State.raiseError { s with env := es } e) ∨
      (s.busy = false ∧ t = { s with env := es }) := by
    intro es h
    unfold coreStep at h
    split at h
    · rename_i hb
      cases hd : decode s.pend with
      | ok i => simp only [hd] at h; exact .inl ⟨i, rfl, hb, h⟩
      | error e => simp only [hd] at h; exact .inr (.inl ⟨e, rfl, hb, (Host.Outcome.next.inj h).symm⟩)
    · rename_i hb
      exact .inr (.inr ⟨by simpa using hb, (Host.Outcome.next.inj h).symm⟩)
  unfold step at h
  cases he : s.env with
  | nil =>
    simp only [he] at h
    have hs : s = { s with env := [] } := by rw [← he]
    rw [hs] at h
    rcases core [] h with h | h | h
    · exact ⟨_, .inl h⟩
    · exact ⟨_, .inr (.inl h)⟩
    · exact ⟨_, .inr (.inr (.inl h))⟩
  | cons e es =>
    cases e with
    | core =>
      simp only [he] at h
      rcases core es h with h | h | h
      · exact ⟨_, .inl h⟩
      · exact ⟨_, .inr (.inl h)⟩
      · exact ⟨_, .inr (.inr (.inl h))⟩
    | read a =>
      simp only [he, State.readEvent] at h
      split at h
      · exact ⟨es, .inr (.inr (.inr (.inl ⟨_, (Host.Outcome.next.inj h).symm⟩)))⟩
      · cases h
    | write a d =>
      simp only [he] at h
      exact ⟨es, .inr (.inr (.inr (.inr (.inl ⟨a, d, (Host.Outcome.next.inj h).symm⟩))))⟩
    | rst =>
      simp only [he] at h
      exact ⟨es, .inr (.inr (.inr (.inr (.inr (Host.Outcome.next.inj h).symm))))⟩

end Sys2Proof.Machine
end

