-- ==== Sys2Proof/Tests/Slice0.lean ====
section
/-! SUPPORT. Small tests. Expected values are the spec's own vectors (95_test_vectors.md, R142) or computed by
hand from the rules; then, for every statement that has hypotheses, a state and operands that meet them. -/

namespace Sys2Proof.Tests

open Sys2Proof Sys2Proof.Machine

/-! Helpers. -/

/-- The state after reset with a configuration. -/
def cfg (w h : BitVec 16) (l c : BitVec 3) : State :=
  { State.reset with width := w, height := h, levels := l, curLevel := c }

/-- A 2 × 2 plane with LEVELS = 1. -/
def pln2 (c : BitVec 3) (x y z t : Word) : State :=
  { cfg 2 2 1 c with plane := [(0, x), (1, y), (2, z), (3, t)] }

/-- The 2 × 2 checkerboard of 95 §1.2 as an image. -/
def img2 : State := { cfg 2 2 1 0 with image := [(0, 0), (1, 255), (2, 255), (3, 0)] }

/-- The stream of that image. -/
def str2 : State :=
  { cfg 2 2 1 0 with streamLen := 4, stream := [(0, 0x7F), (1, 0x7E), (2, 0xFC), (3, 0x00)] }

/-- A packer state with WSTATE and WPTR given. -/
def pk (buf : Byte) (free : BitVec 4) (ptr : Word) : State :=
  { State.reset with wbuf := buf, wfree := free, wptr := ptr }

/-- The stream BF 80 of 95 §2.4 with an unpacker state. -/
def upk (buf : Byte) (avail : BitVec 4) (ptr : Word) : State :=
  { State.reset with
    streamLen := 2, stream := [(0, 0xBF), (1, 0x80)], rbuf := buf, ravail := avail, rptr := ptr }

/-- What `f` says of the next state. -/
def after {α : Type} (f : State → α) (o : Host.Outcome State Fault Refusal) : Option α :=
  match o with
  | .next t => some (f t)
  | .fault _ => none
  | .refused _ => none

/-- The fault an outcome is. -/
def faultOf (o : Host.Outcome State Fault Refusal) : Option Fault :=
  match o with
  | .fault f => some f
  | .next _ => none
  | .refused _ => none

/-- A memory element of concrete index range is present. -/
theorem present_of_all {α : Type} {m : Memory α} {n : Nat}
    (h : (List.range n).all (fun i => (m.read i).isSome) = true) : m.PresentBelow n := by
  intro i hi
  exact Option.isSome_iff_exists.1 (List.all_eq_true.1 h i (List.mem_range.2 hi))

/-! Well-formed commands: every check refuses something (R139). -/

theorem test_wf_push_v : (Instr.push 256 8).wellFormed = false := by decide
theorem test_wf_push_w : (Instr.push 255 16).wellFormed = false := by decide
theorem test_wf_pull_w : (Instr.pull 16).wellFormed = false := by decide
theorem test_wf_quant_k : (Instr.quant 8).wellFormed = false := by decide
theorem test_wf_dequant_k : (Instr.dequant 8).wellFormed = false := by decide
theorem test_assemble_refuses : assemble (.push 256 8) = none := by decide

/-! Command words, written out from R130, R134 and R139 (95 §2.1). -/

theorem test_word_nop : decode 0x00000000 = .ok .nop := by decide
theorem test_word_loadImage : decode 0x00000001 = .ok .loadImage := by decide
theorem test_word_storeImage : decode 0x00000002 = .ok .storeImage := by decide
theorem test_word_fwdLevel : decode 0x00000003 = .ok .fwdLevel := by decide
theorem test_word_invLevel : decode 0x00000004 = .ok .invLevel := by decide
theorem test_word_fwdAll : decode 0x00000005 = .ok .fwdAll := by decide
theorem test_word_invAll : decode 0x00000006 = .ok .invAll := by decide
theorem test_word_qpack : decode 0x00000007 = .ok .qpack := by decide
theorem test_word_unpackDq : decode 0x00000008 = .ok .unpackDq := by decide
theorem test_word_encode : decode 0x00000009 = .ok .encode := by decide
theorem test_word_decode : decode 0x0000000A = .ok .decode := by decide
theorem test_word_bpInit : decode 0x00000010 = .ok .bpInit := by decide
theorem test_word_push : decode 0x00050311 = .ok (.push 5 3) := by decide
theorem test_word_flush : decode 0x00000012 = .ok .flush := by decide
theorem test_word_pull : decode 0x00000713 = .ok (.pull 7) := by decide
theorem test_word_quant : decode 0x00002020 = .ok (.quant 2) := by decide
theorem test_word_dequant : decode 0x00007021 = .ok (.dequant 7) := by decide

/-- The same words bit by bit: [31:24] 0, [23:16] V, 15 0, [14:12] K, [11:8] W, [7:0] OP. -/
theorem test_word_bits :
    decode 0b00000000_00000101_0_000_0011_00010001 = .ok (.push 5 3) ∧
    decode 0b00000000_00000000_0_000_0111_00010011 = .ok (.pull 7) ∧
    decode 0b00000000_00000000_0_111_0000_00100001 = .ok (.dequant 7) ∧
    decode 0b00000000_00000000_0_000_0000_00001001 = .ok .encode := by decide

/-- 95 §2.1: illegal and reserved words. -/
theorem test_word_errors :
    [0x0000000B, 0x00000030, 0xFFFFFF30, 0x000000FF].map decode = List.replicate 4 (.error .illegalOp) ∧
    [0x01000009, 0x00000103, 0x80000011, 0x01000011, 0x00120513, 0x00001813, 0x00008020,
      0x00000120].map decode = List.replicate 8 (.error .rsvdField) := by decide

/-! Commands, one step each. -/

/-- R280: NOP changes BUSY and DONE only. -/
theorem test_nop : after id (exec .nop (State.reset.accept 0)) =
    some { State.reset.accept 0 with busy := false, done := true } := by decide

/-- 95 §2.5: LOAD_IMAGE of the checkerboard. -/
theorem test_loadImage : after (fun t => (t.plane, t.curLevel)) (exec .loadImage img2) =
    some ([(0, 0x00000000), (1, 0x437F0000), (2, 0x437F0000), (3, 0x00000000)], 0) := by decide

/-- R65: an image element nothing has written. -/
theorem test_loadImage_uninit : faultOf (exec .loadImage (cfg 2 2 1 0)) = some (.uninitRead .image 0) := by
  decide

/-- 95 §2.5: STORE_IMAGE of −1.0 256.0 / 255.9 −0.5. -/
theorem test_storeImage :
    after (fun t => (t.image, t.oclamp)) (exec .storeImage (pln2 0 0xBF800000 0x43800000 0x437FE666 0xBF000000)) =
    some ([(0, 0), (1, 255), (2, 255), (3, 0)], true) := by decide

/-- 95 §2.2: FWD_LEVEL of the checkerboard. -/
theorem test_fwdLevel :
    after (fun t => (t.plane, t.curLevel)) (exec .fwdLevel (pln2 0 0x00000000 0x437F0000 0x437F0000 0x00000000)) =
    some ([(0, 0x42FF0000), (1, 0x00000000), (2, 0x00000000), (3, 0xC2FF0000)], 1) := by decide

/-- 95 §2.2: rounding ties to even, in FWD_LEVEL. -/
theorem test_fwdLevel_tie :
    after State.plane (exec .fwdLevel (pln2 0 0x4B800000 0x3F800000 0x00000000 0x00000000)) =
    some [(0, 0x4A800000), (1, 0x4A7FFFFF), (2, 0x4A800000), (3, 0x4A7FFFFF)] := by decide

/-- 95 §2.2: INV_LEVEL of 127 −0.5 / −0.5 −126.5. -/
theorem test_invLevel :
    after (fun t => (t.plane, t.curLevel)) (exec .invLevel (pln2 1 0x42FE0000 0xBF000000 0xBF000000 0xC2FD0000)) =
    some ([(0, 0xBF000000), (1, 0x437D8000), (2, 0x437D8000), (3, 0x3FC00000)], 0) := by decide

/-- 95 §2.2: the −0 case of INV_LEVEL. -/
theorem test_invLevel_negZero :
    after State.plane (exec .invLevel (pln2 1 0x80000000 0x00000000 0x00000000 0x00000000)) =
    some [(0, 0x00000000), (1, 0x00000000), (2, 0x00000000), (3, 0x80000000)] := by decide

/-- 95 §2.2: overflow, ∞ − ∞, underflow and −0 in the primitives (R13). -/
theorem test_float :
    add32 0x7F000000 0x7F000000 = 0x7F800000 ∧ add32 0x7F800000 0xFF800000 = 0x7FC00000 ∧
    sub32 0x7F800000 0xFF800000 = 0x7F800000 ∧ half32 0x00000001 = 0x00000000 ∧
    add32 0x80000000 0x80000000 = 0x80000000 ∧ sub32 0x80000000 0x80000000 = 0x00000000 ∧
    add32 0x4B800000 0x3F800000 = 0x4B800000 ∧ cvt32 255 = 0x437F0000 := by decide

/-- 95 §2.2: FWD_ALL with CUR_LEVEL = LEVELS has no level to do, whatever the plane holds. -/
theorem test_fwdAll_none : after id (exec .fwdAll (cfg 2 2 1 1)) =
    some { cfg 2 2 1 1 with done := true } := by decide

theorem test_fwdAll :
    after (fun t => (t.plane, t.curLevel)) (exec .fwdAll (pln2 0 0x43000000 0x43000000 0x43000000 0x43000000)) =
    some ([(0, 0x43000000), (1, 0x00000000), (2, 0x00000000), (3, 0x00000000)], 1) := by decide

/-- 95 §2.2: INV_ALL with CUR_LEVEL = 0. -/
theorem test_invAll_none : after id (exec .invAll (cfg 2 2 1 0)) =
    some { cfg 2 2 1 0 with done := true } := by decide

theorem test_invAll :
    after (fun t => (t.plane, t.curLevel)) (exec .invAll (pln2 1 0x42FF0000 0x00000000 0x00000000 0xC2FF0000)) =
    some ([(0, 0x00000000), (1, 0x437F0000), (2, 0x437F0000), (3, 0x00000000)], 0) := by decide

/-- 95 §2.5: QPACK of 127.5 0 / 0 −127.5. -/
theorem test_qpack :
    after (fun t => (t.stream, t.streamLen, t.wptr, t.wstateWord, t.qclamp))
      (exec .qpack (pln2 1 0x42FF0000 0x00000000 0x00000000 0xC2FF0000)) =
    some ([(0, 0x7F), (1, 0x7E), (2, 0xFC), (3, 0x00)], 4, 4, 0x00000800, false) := by decide

/-- 95 §2.5: QPACK with CUR_LEVEL = 0 is BAD_LEVEL. -/
theorem test_qpack_level : after State.statusWord (exec .qpack (cfg 2 2 1 0)) = some 0x00000406 := by decide

/-- 95 §2.5: UNPACK_DQ of 7F 7E FC 00. -/
theorem test_unpackDq :
    after (fun t => (t.plane, t.curLevel, t.rptr, t.rstateWord)) (exec .unpackDq str2) =
    some ([(0, 0x42FE0000), (1, 0xBF000000), (2, 0xBF000000), (3, 0xC2FD0000)], 1, 4, 0x00000300) := by
  decide

/-- 95 §1.2: ENCODE of the checkerboard. -/
theorem test_encode : after (fun t => (t.stream, t.streamLen, t.qclamp)) (exec .encode img2) =
    some ([(0, 0x7F), (1, 0x7E), (2, 0xFC), (3, 0x00)], 4, false) := by decide

/-- 95 §2.5: ENCODE after reset is BAD_CONFIG. -/
theorem test_encode_config : after State.statusWord (exec .encode State.reset) = some 0x00000306 := by decide

/-- 95 §1.2: DECODE of its stream. -/
theorem test_decode : after (fun t => (t.image, t.plane, t.oclamp)) (exec .decode str2) =
    some ([(0, 0), (1, 253), (2, 253), (3, 1)],
      [(0, 0xBF000000), (1, 0x437D8000), (2, 0x437D8000), (3, 0x3FC00000)], false) := by decide

/-- 95 §2.5: DECODE of a 2 × 2 stream as 4 × 2 is STREAM_UNDERRUN: DEC_LEN = 8 > 4. -/
theorem test_decode_underrun : after State.errcode (exec .decode { str2 with width := 4 }) = some 7 := by
  decide

/-- 95 §2.4, row 8: BP_INIT. -/
theorem test_bpInit : after (fun t => (t.wptr, t.wstateWord, t.rptr, t.rstateWord, t.streamLen))
    (exec .bpInit { pk 0xA0 5 3 with rptr := 2, rbuf := 0x80, ravail := 7, streamLen := 9 }) =
    some (0, 0x00000800, 0, 0x00000000, 9) := by decide

/-- 95 §2.4, rows 1 and 6: PUSH. -/
theorem test_push :
    after (fun t => (t.stream, t.wptr, t.wstateWord, t.streamLen)) (exec (.push 5 3) State.reset) =
    some ([], 0, 0x000005A0, 0) ∧
    after (fun t => (t.stream, t.wptr, t.wstateWord, t.streamLen)) (exec (.push 0xFF 8) (pk 0xA0 5 0)) =
    some ([(0, 0xBF)], 1, 0x000005E0, 1) := by decide

/-- 95 §2.4, rows 7 and 10: VTRUNC, and STREAM_OVERFLOW at BS_CAP. -/
theorem test_push_flags :
    after (fun t => (t.wstateWord, t.vtrunc)) (exec (.push 0x0D 3) State.reset) = some (0x000005A0, true) ∧
    after State.errcode (exec (.push 0x7F 7) (pk 0x80 7 65537)) = some 6 := by decide

/-- 95 §2.4, rows 3 and 4: FLUSH, and a FLUSH with nothing pending. -/
theorem test_flush :
    after (fun t => (t.stream, t.wptr, t.wstateWord, t.streamLen)) (exec .flush (pk 0x80 7 1)) =
    some ([(1, 0x80)], 2, 0x00000800, 2) ∧
    after (fun t => (t.stream, t.wptr, t.streamLen)) (exec .flush (pk 0 8 2)) = some ([(2, 0)], 3, 3) := by
  decide

/-- 95 §2.4, the unpacker's rows 1 and 2. -/
theorem test_pull :
    after (fun t => (t.pullData, t.rptr, t.rstateWord)) (exec (.pull 3) (upk 0 0 0)) = some (5, 1, 0x000005BF) ∧
    after (fun t => (t.pullData, t.rptr, t.rstateWord)) (exec (.pull 6) (upk 0xBF 5 1)) =
    some (0x3F, 2, 0x00000780) := by decide

/-- 95 §2.4, the unpacker's rows 3 and 4: an underrun, and a pull that needs no fetch. -/
theorem test_pull_end :
    after State.errcode (exec (.pull 8) (upk 0x80 7 2)) = some 7 ∧
    after (fun t => (t.pullData, t.rptr, t.rstateWord)) (exec (.pull 7) (upk 0x80 7 2)) =
    some (0, 2, 0x00000080) := by decide

/-- 95 §2.3: QUANT 2 of 10.25, QUANT 1 of 200.0, QUANT 0 of 127.5 and of NaN. -/
theorem test_quant :
    after (fun t => (t.qIndex, t.qclamp)) (exec (.quant 2) { State.reset with qCoef := 0x41240000 }) =
    some (34, false) ∧
    after (fun t => (t.qIndex, t.qclamp)) (exec (.quant 1) { State.reset with qCoef := 0x43480000 }) =
    some (127, true) ∧
    after (fun t => (t.qIndex, t.qclamp)) (exec (.quant 0) { State.reset with qCoef := 0x42FF0000 }) =
    some (127, false) ∧
    after (fun t => (t.qIndex, t.qclamp)) (exec (.quant 0) { State.reset with qCoef := 0x7FC00000 }) =
    some (0, true) := by decide

/-- 95 §2.3: DEQUANT 1 of 63, DEQUANT 0 of 200, DEQUANT 7 of 255. -/
theorem test_dequant :
    after State.qCoef (exec (.dequant 1) { State.reset with qIndex := 63 }) = some 0xBF000000 ∧
    after State.qCoef (exec (.dequant 0) { State.reset with qIndex := 200 }) = some 0x43480000 ∧
    after State.qCoef (exec (.dequant 7) { State.reset with qIndex := 255 }) = some 0x46FE8100 := by decide

/-- 95 §2.3: rows of the `qdet` table. -/
theorem test_qdet :
    [1, 2, 3, 4, 5, 6, 7].map (fun k => qdet k 0x00000000) =
      [(63, false), (31, false), (15, false), (7, false), (3, false), (1, false), (0, false)] ∧
    [1, 7].map (fun k => qdet k 0xC2FF8000) = [(0, true), (0, true)] ∧
    [1, 7].map (fun k => qdet k 0x43008000) = [(127, true), (1, true)] := by decide

/-- 95 §2.5: ENC_LEN and DEC_LEN. -/
theorem test_sizes : (encLen 8 8 1, decLen 8 8 1) = (59, 58) ∧ (encLen 4 4 2, decLen 4 4 2) = (14, 14) ∧
    (encLen 128 128 7, decLen 128 128 7) = (13655, 13655) := by decide

/-- R288 on 2 × 4, LEVELS = 1: the LL block, then LH, HL and HH of each position. -/
theorem test_sched : sched 2 4 1 =
    [⟨(0, 0), 0⟩, ⟨(1, 0), 0⟩, ⟨(2, 0), 1⟩, ⟨(0, 1), 1⟩, ⟨(2, 1), 1⟩, ⟨(3, 0), 1⟩, ⟨(1, 1), 1⟩,
      ⟨(3, 1), 1⟩] := by decide

/-! The host bus, one transaction each (95 §2.6). -/

/-- The reply of one bus read. -/
def readReply (s : State) (a : Word) : Option Reply :=
  match s.busRead a with
  | .ok r => some r
  | .error _ => none

theorem test_bus_reads :
    readReply State.reset 0x00000000 = some (.read 0x48575431 .okay) ∧
    readReply State.reset 0x00000002 = some (.read 0 .error) ∧
    readReply State.reset 0x0000004C = some (.read 0 .okay) ∧
    readReply State.reset 0x00001000 = some (.read 0 .error) ∧
    readReply State.reset 0x40000000 = some (.read 0 .error) ∧
    readReply State.reset 0x10000000 = none := by decide

theorem test_bus_writes :
    State.busWrite State.reset 0x10000000 0x123456AB =
      (.write .okay, { State.reset with image := [(0, 0xAB)] }) ∧
    State.busWrite State.reset 0x10040000 0 = (.write .error, State.reset) ∧
    State.busWrite State.reset 0x30040004 0 = (.write .error, State.reset) ∧
    State.busWrite State.reset 0x00000018 0x0000000F = (.write .okay, { State.reset with levels := 7 }) ∧
    State.busWrite State.reset 0x00000028 0xFFFFFFFF = (.write .okay, State.reset) := by decide

theorem test_bus_busy :
    readReply (State.reset.accept 0) 0x0000000C = some (.read 1 .okay) ∧
    readReply (State.reset.accept 0) 0x00000010 = some (.read 0 .okay) ∧
    readReply (State.reset.accept 0) 0x20000000 = some (.read 0 .okay) ∧
    State.busWrite (State.reset.accept 0) 0x00000004 1 = (.write .okay, State.reset.accept 0) := by decide

/-- 95 §2.7: a word that does not decode completes with its error, and irq follows IE_ERR. -/
theorem test_step_illegal :
    after (fun t => (t.statusWord, t.irq)) (step ({ State.reset with ieErr := true }.accept 0x00000030)) =
    some (0x00000106, true) := by decide

/-! Host programs (R140, R141). -/

/-- What is left of the program and the STATUS words the host read, after a run of turns. -/
def hostSaw (o : Host.Outcome HostSystem Fault Refusal) : Option (List HostOp × List Reply) :=
  match o with
  | .next h => some (h.prog, h.mach.replies)
  | .fault _ => none
  | .refused _ => none

/-- R141: RUN {NOP} reads BUSY = 1 twice, loops, and goes on once it reads DONE with BUSY = 0. -/
theorem test_run_polls :
    hostSaw (HostSystem.run [.host, .host, .host] ⟨hostRun 0x00000000, State.reset⟩) =
      some ([.wait], [.write .okay, .read 0x00000001 .okay, .read 0x00000001 .okay]) ∧
    hostSaw (HostSystem.run [.host, .host, .host, .core, .host] ⟨hostRun 0x00000000, State.reset⟩) =
      some ([], [.write .okay, .read 0x00000001 .okay, .read 0x00000001 .okay, .read 0x00000002 .okay]) := by
  decide

/-- R141: WAIT on an idle core is one read, and a reset between its polls ends it (R370). -/
theorem test_wait_ends :
    hostSaw (HostSystem.run [.host] ⟨hostWait, State.reset⟩) = some ([], [.read 0x00000000 .okay]) ∧
    hostSaw (HostSystem.run [.host, .rst, .host] ⟨hostWait, State.reset.accept 0⟩) =
      some ([], [.read 0x00000001 .okay, .read 0x00000000 .okay]) := by decide

/-- R51, R53: the accepted word runs at the very next step (log 6). -/
theorem test_withFetchWord : after (fun t => (t.statusWord, t.wstateWord))
    (step (State.reset.withFetchWord 32 0x00050311)) = some (0x00000002, 0x000005A0) := by decide

/-! Witnesses: for each statement with hypotheses, a state and operands that meet them, clause by clause. -/

/-- A 2 × 2 plane of concrete elements is present, region by region. -/
theorem present2 (c : BitVec 3) (x y z t : Word) :
    (pln2 c x y z t).plane.PresentBelow 4 ∧ (pln2 c x y z t).RegionPresent 0 := by
  refine ⟨?_, ?_⟩
  · intro i hi; change i < 4 at hi; interval_cases i <;> exact ⟨_, rfl⟩
  · intro r hr k hk
    have e1 : (pln2 c x y z t).height.toNat / 2 ^ 0 = 2 := by simp [pln2, cfg]
    have e2 : (pln2 c x y z t).width.toNat / 2 ^ 0 = 2 := by simp [pln2, cfg]
    rw [e1] at hr; rw [e2] at hk
    interval_cases r <;> interval_cases k <;> exact ⟨_, rfl⟩

theorem cfgOk2 (c : BitVec 3) : (cfg 2 2 1 c).CfgOk := by
  have h : (cfg 2 2 1 0).CfgOk := by unfold State.CfgOk; decide
  exact h

theorem packerInv_reset : State.reset.PackerInv := by unfold State.PackerInv; decide

theorem statusInv_accept (w : Word) : (State.reset.accept w).StatusInv :=
  ⟨by show 0 ≤ 7; omega, by show false = true ↔ (0 : BitVec 4) ≠ 0; decide, fun _ => ⟨rfl, rfl⟩, rfl⟩

theorem legal_reset : State.reset.params.Legal := by decide

/-- DecodeEncodeRoundTrip, at the greatest field values. -/
theorem test_witness_DecodeEncodeRoundTrip :
    [Instr.nop, .push 0 0, .push 255 15, .pull 15, .quant 7, .dequant 7, .decode].all Instr.wellFormed = true := by
  decide

/-- DecodedWordIsInItsRow: a word in the row of two terms of one opcode, and what it decodes to. -/
theorem test_witness_DecodedWordIsInItsRow :
    decode 0x00FF0F11 = .ok (.push 255 15) ∧ (Instr.push 255 15).rowMatches 0x00FF0F11 ∧
      (Instr.push 0 0).rowMatches 0x00FF0F11 := by decide

/-- DecodingFollowsTheFields: the opcodes around the table's ends; a legal OP with and without a reserved bit. -/
theorem test_witness_DecodingFollowsTheFields :
    [0x0B, 0x0F, 0x14, 0x1F, 0x22, 0xFF].map decode = List.replicate 6 (.error .illegalOp) ∧
    [0x0100000A, 0x00000110, 0x00008021].map decode = List.replicate 3 (.error .rsvdField) ∧
    [0x0000000A, 0x00000010, 0x00007021].map decode = [.ok .decode, .ok .bpInit, .ok (.dequant 7)] := by decide

/-- StepRunsThePendingCommand, BusyCommandCompletes: both clauses, with no event left and with the core's turn. -/
theorem test_witness_StepRunsThePendingCommand :
    ((State.reset.accept 0x12).busy = true ∧ decode (State.reset.accept 0x12).pend = .ok .flush ∧
      (State.reset.accept 0x12).env = []) ∧
    (State.reset.withFetchWord 32 0x30).busy = true ∧
      decode (State.reset.withFetchWord 32 0x30).pend = .error .illegalOp ∧
      (State.reset.withFetchWord 32 0x30).env = [.core] := by decide

/-- StepTakesTheNextEvent: every clause; a read that answers and a read that faults; a write. -/
theorem test_witness_StepTakesTheNextEvent :
    (State.reset.busy = false ∧ State.reset.env = []) ∧
    { State.reset with env := [.core] }.env = .core :: [] ∧
    { State.reset with env := [.read 0] }.env = .read 0 :: [] ∧
    readReply { State.reset with env := [.read 0] } 0 = some (.read 0x48575431 .okay) ∧
    readReply { State.reset with env := [.read 0x10000000] } 0x10000000 = none ∧
    { State.reset with env := [.write 0x10 2] }.env = .write 0x10 2 :: [] := by decide

/-- CommandWordAccepted, Resets: BUSY = 0 and BUSY = 1, a word with SRST set, and a reset event. -/
theorem test_witness_Resets :
    State.reset.busy = false ∧ (State.reset.accept 0).busy = true ∧ (0x00000001 : Word).getLsbD 0 = true ∧
    (0xFFFFFFFF : Word).getLsbD 0 = true ∧ ({ State.reset with env := [.rst] } : State).env = [.rst] := by decide

/-- BusErrorsChangeNothing: the addresses on both sides of every boundary. -/
theorem test_witness_BusErrorsChangeNothing :
    BusError State.reset.params 0x00000002 ∧
    BusError State.reset.params 0x00001000 ∧
    BusError State.reset.params 0x0FFFFFFC ∧
    BusError State.reset.params 0x10040000 ∧
    BusError State.reset.params 0x1FFFFFFC ∧
    BusError State.reset.params 0x20040000 ∧
    BusError State.reset.params 0x30040004 ∧
    BusError State.reset.params 0x40000000 ∧
    BusError State.reset.params 0xFFFFFFFC ∧
    ¬ BusError State.reset.params 0x00000000 ∧
    ¬ BusError State.reset.params 0x00000FFC ∧
    ¬ BusError State.reset.params 0x10000000 ∧
    ¬ BusError State.reset.params 0x1003FFFC ∧
    ¬ BusError State.reset.params 0x2003FFFC ∧
    ¬ BusError State.reset.params 0x30040000 := by
  unfold BusError
  refine ⟨?_, ?_, ?_, ?_, ?_, ?_, ?_, ?_, ?_, ?_, ?_, ?_, ?_, ?_, ?_⟩ <;> decide

theorem test_witness_BusyHostAccess :
    (State.reset.accept 0).busy = true ∧ (State.reset.accept 0).StatusInv ∧
    BusError (State.reset.accept 0).params 0x00000001 ∧ ¬ BusError (State.reset.accept 0).params 0x00000FFC ∧
    (0x00000FFC : Word) ∉ ([0x00000000, 0x00000004, 0x0000000C, 0x00000040, 0x00000044, 0x00000048] : List Word) :=
  ⟨rfl, statusInv_accept 0, by unfold BusError; decide, by unfold BusError; decide, by decide⟩

/-- MemoryWindows: the first and the last element of each window, one with a value and one with none. -/
theorem test_witness_MemoryWindows :
    img2.params.Legal ∧ img2.busy = false ∧
    0 < img2.params.wMax * img2.params.hMax ∧ 65535 < img2.params.wMax * img2.params.hMax ∧
    65536 < img2.params.bsCap ∧ img2.image.read 3 = some 0 ∧ img2.image.read 65535 = none ∧
    img2.plane.read 65535 = none ∧ (pln2 0 1 2 3 4).plane.read 0 = some 1 ∧ str2.stream.read 3 = some 0 ∧
    img2.stream.read 65536 = none := by decide

theorem test_witness_RegisterAccessTypes :
    State.reset.busy = false ∧ (0xFFFFFFFE : Word).getLsbD 0 = false ∧
    (0x4C ≤ (0x4C : Word).toNat ∧ (0xFFC : Word).toNat < 0x1000 ∧ (0xFFC : Word).toNat % 4 = 0) ∧
    readReply State.reset 0x0C = some (.read 0 .okay) ∧ (0x00000004 : Word).getLsbD 2 = true := by decide

/-- HostProgramPseudoInstructions: a word whose command completes and one that stops on ⊥, from an idle state. -/
theorem test_witness_HostProgram :
    State.reset.busy = false ∧ (cfg 2 2 1 0).busy = false ∧
    after State.done (step (State.reset.withFetchWord 32 0x00000000)) = some true ∧
    faultOf (step ((cfg 2 2 1 0).withFetchWord 32 0x00000001)) = some (.uninitRead .image 0) := by decide

/-- R36, R43, R45, R46: the packed words with a value in every field. -/
theorem test_packed_reads :
    readReply { State.reset with
      done := true, errv := true, oclamp := true, errcode := 5, wbuf := 0xA0, wfree := 5 } 0x0C =
        some (.read 0x00000516 .okay) ∧
    readReply { State.reset with wbuf := 0xA0, wfree := 5 } 0x28 = some (.read 0x000005A0 .okay) ∧
    readReply { State.reset with rbuf := 0xBF, ravail := 5 } 0x30 = some (.read 0x000005BF .okay) ∧
    readReply { State.reset with pullData := 0x3F } 0x34 = some (.read 0x0000003F .okay) := by decide

/-- IrqLevel and FailedCommandChangesOnlyStatus: a command that succeeds and one that fails. -/
theorem test_witness_FailedCommandChangesOnlyStatus :
    after id (exec .nop State.reset) = some { State.reset with done := true } ∧
    State.reset.errv = false ∧ after State.errv (exec (.push 0 0) State.reset) = some true ∧
    (State.reset.accept 0x01000009).busy = true ∧ (State.reset.accept 0x01000009).env = [] ∧
    decode (State.reset.accept 0x01000009).pend = .error .rsvdField := by decide

/-- FlagsAreWrittenByTheirCommandsAndNeverRead: a command that sets each sticky flag; two states that differ
in the flags; a next state and a fault. -/
theorem test_witness_Flags :
    after State.qclamp (exec (.quant 3) { State.reset with qCoef := 0x7FC00000 }) = some true ∧
    after State.oclamp (exec .storeImage (pln2 0 0xBF800000 0 0 0)) = some true ∧
    after State.vtrunc (exec (.push 2 1) State.reset) = some true ∧
    ({ State.reset with qclamp := true } : State).forgetFlags = State.reset.forgetFlags ∧
    ({ cfg 2 2 1 0 with vtrunc := true } : State).forgetFlags = (cfg 2 2 1 0).forgetFlags ∧
    faultOf (exec .storeImage (cfg 2 2 1 0)) = some (.uninitRead .plane 0) := by decide

/-- CommandFrame: the packer invariant, and a next state of commands of every clause. -/
theorem test_witness_CommandFrame :
    State.reset.PackerInv ∧
    (∀ i ∈ [Instr.nop, .bpInit, .flush, .push 5 3, .quant 1, .dequant 1], (after id (exec i State.reset)).isSome) ∧
    (∀ i ∈ [Instr.fwdLevel, .fwdAll, .storeImage], (after id (exec i (pln2 0 0 0 0 0))).isSome) ∧
    (∀ i ∈ [Instr.invLevel, .invAll, .qpack], (after id (exec i (pln2 1 0 0 0 0))).isSome) ∧
    (∀ i ∈ [Instr.loadImage, .encode], (after id (exec i img2)).isSome) ∧
    (∀ i ∈ [Instr.unpackDq, .decode, .pull 8], (after id (exec i str2)).isSome) :=
  ⟨packerInv_reset, by decide, by decide, by decide, by decide, by decide⟩

/-- UninitReadNamesAnUnwrittenElement: a fault in each memory. -/
theorem test_witness_UninitRead :
    faultOf (exec .loadImage (cfg 2 2 1 0)) = some (.uninitRead .image 0) ∧
    faultOf (exec .fwdLevel { cfg 2 2 1 0 with plane := [(0, 0), (1, 0)] }) = some (.uninitRead .plane 2) ∧
    faultOf (exec (.pull 1) { State.reset with streamLen := 1 }) = some (.uninitRead .stream 0) := by decide

/-- PlaneCommandsNeedAValidConfiguration: LEVELS = 0, WIDTH = 0, WIDTH > W_MAX, and WIDTH not a multiple. -/
theorem test_witness_BadConfig :
    ¬ (cfg 2 2 0 0).CfgOk ∧ ¬ (cfg 0 2 1 0).CfgOk ∧ ¬ (cfg 258 2 1 0).CfgOk ∧ ¬ (cfg 2 258 1 0).CfgOk ∧
      ¬ (cfg 6 4 2 0).CfgOk ∧ ¬ (cfg 4 1 1 0).CfgOk := by
  unfold State.CfgOk; decide

theorem test_witness_IllegalLevel :
    (cfg 2 2 1 1).CfgOk ∧ (cfg 2 2 1 1).levels.toNat ≤ (cfg 2 2 1 1).curLevel.toNat ∧
    (cfg 2 2 1 0).CfgOk ∧ (cfg 2 2 1 0).curLevel.toNat = 0 ∧ (cfg 2 2 1 0).curLevel ≠ (cfg 2 2 1 0).levels ∧
    (cfg 2 2 1 2).CfgOk ∧ (cfg 2 2 1 2).levels.toNat < (cfg 2 2 1 2).curLevel.toNat :=
  ⟨cfgOk2 _, by decide, cfgOk2 _, by decide, by decide, cfgOk2 _, by decide⟩

theorem test_witness_IllegalWidth : (0 : Nat) = 0 ∧ 9 ≤ 9 ∧ 9 ≤ 15 := by decide

/-- StreamBoundsFail: each clause at its boundary. -/
theorem test_witness_StreamBounds :
    (pk 0x80 7 65537).params.bsCap < (pk 0x80 7 65537).wptr.toNat + (8 - (pk 0x80 7 65537).wfree.toNat + 7) / 8 ∧
    (pk 0 8 65537).params.bsCap < (pk 0 8 65537).wptr.toNat + 1 ∧
    (({ cfg 2 2 1 1 with params := { wMax := 2, hMax := 2, bsCap := 3 } } : State).cfgOk = true ∧
      3 < ({ cfg 2 2 1 1 with params := { wMax := 2, hMax := 2, bsCap := 3 } } : State).encLen) ∧
    ((cfg 2 2 1 0).CfgOk ∧ (cfg 2 2 1 0).params.Legal) ∧
    min (upk 0x80 7 2).streamLen.toNat (upk 0x80 7 2).params.bsCap <
      (upk 0x80 7 2).rptr.toNat + (if (upk 0x80 7 2).ravail.toNat < 8 then 1 else 0) ∧
    ((cfg 2 2 1 0).CfgOk ∧
      min (cfg 2 2 1 0).streamLen.toNat (cfg 2 2 1 0).params.bsCap < (cfg 2 2 1 0).decLen) :=
  ⟨by decide, by decide, by decide, ⟨cfgOk2 _, by decide⟩, by decide, cfgOk2 _, by decide⟩

/-- DerivedSizes, EncodedStreamFits: 8 × 8 with LEVELS = 1, where DBITS is a multiple of 8. -/
theorem test_witness_DerivedSizes :
    16 = (cfg 8 8 1 0).width.toNat / 2 ^ (cfg 8 8 1 0).levels.toNat *
      ((cfg 8 8 1 0).height.toNat / 2 ^ (cfg 8 8 1 0).levels.toNat) ∧
    336 = ∑ k ∈ Finset.range (cfg 8 8 1 0).levels.toNat,
      3 * ((cfg 8 8 1 0).width.toNat / 2 ^ (k + 1)) * ((cfg 8 8 1 0).height.toNat / 2 ^ (k + 1)) *
        (8 - (k + 1)) := by decide

theorem test_witness_EncodedStreamFits : (cfg 256 256 7 0).params.Legal ∧ (cfg 256 256 7 0).CfgOk := by
  refine ⟨by decide, ?_⟩; unfold State.CfgOk; decide

/-- RoundingIsToNearestEven: the last value that does not overflow, the first that does, and a tie at 2^24. -/
theorem test_witness_Rounding :
    ((2 ^ 25 - 1) * 2 ^ 253 - 1 : Int).natAbs < (2 ^ 25 - 1) * 2 ^ 253 ∧
    (2 ^ 25 - 1) * 2 ^ 253 ≤ (-(2 ^ 25 - 1) * 2 ^ 253 : Int).natAbs ∧ f32IsFinite 0x7F7FFFFF = true ∧
    rnd32 ((2 ^ 25 - 1) * 2 ^ 253 - 1) = 0x7F7FFFFF ∧ rnd32 ((2 ^ 25 - 1) * 2 ^ 253) = 0x7F800000 := by decide

/-- FloatOperationCases: operands of each clause. -/
theorem test_witness_FloatOperations :
    f32IsNaN 0x7F800001 = true ∧ f32IsInf 0xFF800000 = true ∧ f32IsNaN 0xFF800000 = false ∧
    f32IsFinite 0x7F7FFFFF = true ∧ f32IsFinite 0x80000000 = true ∧ (2 ^ 24 : Nat) ≤ 2 ^ 24 ∧
    cvt32 (2 ^ 24) = 0x4B800000 := by decide

/-- The scalar statements (SatTrunc…, Qdet…, Deq…, QuantizationErrorBound, TruncationOrder…, QuantizerCommands):
NaN, finite values at the ends of the ranges, the first and the last level and index. −127.75 is −511/4. -/
theorem test_witness_Quantizer :
    f32IsNaN 0x7FC00000 = true ∧ f32IsFinite 0xBF800000 = true ∧ f32IsFinite 0x43800000 = true ∧
    f32IsFinite 0xC2FF8000 = true ∧ f32Units 0xC2FF8000 * 4 = -511 * 2 ^ 149 ∧
    qdet 7 0x42FF0000 = (1, false) ∧ qdet 1 0xC2FF0000 = (0, false) ∧
    (1 ≤ 1 ∧ 1 ≤ 7 ∧ 7 ≤ 7 ∧ 255 ≤ 255 ∧ 127 ≤ 2 ^ (8 - 1) - 1) ∧
    (0, true) = satTrunc8 0x7FC00000 := by decide

theorem test_witness_TruncationOrder : f32IsFinite 0xC2FF8000 = true ∧ f32Val 0xC2FF8000 + 255 / 2 = -1 / 4 ∧
    (-1 : Rat) < -1 / 4 ∧ (-1 / 4 : Rat) < 256 := by
  have h : f32Units 0xC2FF8000 = -511 * 2 ^ 147 := by decide
  refine ⟨by decide, ?_, by norm_num, by norm_num⟩
  unfold f32Val; rw [h]; norm_num

/-- PushAndFlush: a push that leaves one free bit with WPTR = BS_CAP, one that fills the byte below it. -/
theorem test_witness_PushAndFlush :
    (pk 0 8 65537).PackerInv ∧ (7 < (pk 0 8 65537).wfree.toNat ∧ (pk 0 8 65537).wptr.toNat ≤ 65537) ∧
    (pk 0x80 7 65536).PackerInv ∧ (pk 0x80 7 65536).wfree.toNat ≤ 7 ∧ (pk 0x80 7 65536).wptr.toNat < 65537 := by
  unfold State.PackerInv; decide

theorem test_witness_Pull :
    (upk 0x80 7 2).PackerInv ∧ (7 ≤ (upk 0x80 7 2).ravail.toNat ∧ (upk 0x80 7 2).rptr.toNat ≤
      min (upk 0x80 7 2).streamLen.toNat (upk 0x80 7 2).params.bsCap) ∧
    (upk 0xBF 5 1).PackerInv ∧ (upk 0xBF 5 1).ravail.toNat < 8 ∧ (upk 0xBF 5 1).rptr.toNat <
      min (upk 0xBF 5 1).streamLen.toNat (upk 0xBF 5 1).params.bsCap ∧
    (upk 0xBF 5 1).stream.read (upk 0xBF 5 1).rptr.toNat = some 0x80 := by
  unfold State.PackerInv; decide

/-- StreamHoldsThePushedBits, PackedValuesPullBack: 95 §1.5, whose total is a multiple of 8. -/
theorem test_witness_PackedValues :
    (∀ xw ∈ ([(1, 1), (0, 2), (255, 8), (3, 2), (100, 7), (0, 3), (170, 8), (1, 1)] : List (Nat × Nat)),
      1 ≤ xw.2 ∧ xw.2 ≤ 8 ∧ xw.1 < 2 ^ xw.2) ∧
    32 = (([(1, 1), (0, 2), (255, 8), (3, 2), (100, 7), (0, 3), (170, 8), (1, 1)] : List (Nat × Nat)).map
      Prod.snd).sum ∧
    (Packer.start []).free = 8 ∧ (Packer.start []).buf = 0 ∧ (Packer.start []).ptr.toNat + 32 / 8 + 1 < 2 ^ 32 ∧
    State.reset.errv = false ∧ State.reset.params.Legal ∧ 32 / 8 + 1 ≤ State.reset.params.bsCap := by decide

theorem test_witness_StreamLen :
    State.reset.errv = false ∧ after State.errv (exec (.push 5 3) State.reset) = some false ∧
    after State.errv (exec .nop State.reset) = some false := by decide

theorem test_witness_LoadImage : img2.CfgOk ∧ 4 = img2.width.toNat * img2.height.toNat ∧
    img2.image.PresentBelow 4 :=
  ⟨cfgOk2 0, by decide, present_of_all (by decide)⟩

theorem test_witness_StoreImage : (pln2 0 0 0 0 0).CfgOk ∧
    4 = (pln2 0 0 0 0 0).width.toNat * (pln2 0 0 0 0 0).height.toNat ∧ (pln2 0 0 0 0 0).plane.PresentBelow 4 :=
  ⟨cfgOk2 0, by decide, (present2 _ _ _ _ _).1⟩

/-- FwdLevelTransformsTheRegion, AllLevelsAreRepeatedLevels (FWD_ALL). -/
theorem test_witness_FwdLevel : (pln2 0 1 2 3 4).CfgOk ∧
    (pln2 0 1 2 3 4).curLevel.toNat < (pln2 0 1 2 3 4).levels.toNat ∧ (pln2 0 1 2 3 4).errv = false ∧
    (pln2 0 1 2 3 4).RegionPresent (pln2 0 1 2 3 4).curLevel.toNat ∧
    (0 < 2 / 2 ∧ (pln2 0 1 2 3 4).plane.read (2 * 0 * 2 + 2 * 0) = some 1 ∧
      (pln2 0 1 2 3 4).plane.read ((2 * 0 + 1) * 2 + (2 * 0 + 1)) = some 4) :=
  ⟨cfgOk2 0, by decide, rfl, (present2 _ _ _ _ _).2, by decide⟩

/-- InvLevelRestoresTheRegion, AllLevelsAreRepeatedLevels (INV_ALL), at CUR_LEVEL = LEVELS. -/
theorem test_witness_InvLevel : (pln2 1 1 2 3 4).CfgOk ∧ 1 ≤ (pln2 1 1 2 3 4).curLevel.toNat ∧
    (pln2 1 1 2 3 4).curLevel.toNat ≤ (pln2 1 1 2 3 4).levels.toNat ∧
    (pln2 1 1 2 3 4).RegionPresent ((pln2 1 1 2 3 4).curLevel.toNat - 1) ∧
    (pln2 1 1 2 3 4).plane.read ((1 + 0) * 2 + (1 + 0)) = some 4 :=
  ⟨cfgOk2 1, by decide, by decide, (present2 _ _ _ _ _).2, by decide⟩

/-- AllLevelsAreRepeatedLevels with no level to do: the region need not be present. -/
theorem test_witness_AllLevels_none : (cfg 2 2 1 1).errv = false ∧ (cfg 2 2 1 1).CfgOk ∧
    (cfg 2 2 1 1).curLevel = (cfg 2 2 1 1).levels ∧ (cfg 2 2 1 0).curLevel = 0 :=
  ⟨rfl, cfgOk2 1, rfl, rfl⟩

/-- 255 is an LL value of level 0, and 0 is an LL value and a decode-side value. -/
theorem codecLow_255 : CodecLow 0 0x437F0000 := by
  have h : f32Units 0x437F0000 = 255 * 2 ^ 149 := by decide
  refine ⟨by decide, by decide, 255, by norm_num, ?_⟩
  unfold f32Val; rw [h]; norm_num

theorem codecHalf_127 : CodecHalf 0x42FF0000 := by
  have h : f32Units 0x42FF0000 = 255 * 2 ^ 148 := by decide
  refine ⟨by decide, by decide, 255, by norm_num, ?_⟩
  unfold f32Val; rw [h]; norm_num

/-- ForwardLevelIsExactInTheCodecDomain, OneLevelRoundTrip, at the greatest value of the domain. -/
theorem test_witness_CodecForward :
    let s := pln2 0 0x437F0000 0x437F0000 0x437F0000 0x437F0000
    Memory.wf s.plane = true ∧ s.CfgOk ∧ s.curLevel.toNat < s.levels.toNat ∧
    ∀ r < s.height.toNat / 2 ^ s.curLevel.toNat, ∀ k < s.width.toNat / 2 ^ s.curLevel.toNat,
      ∃ v, s.plane.read (r * s.width.toNat + k) = some v ∧ CodecLow s.curLevel.toNat v := by
  refine ⟨by decide, cfgOk2 0, by decide, ?_⟩
  intro r hr k hk
  change r < 2 at hr; change k < 2 at hk
  interval_cases r <;> interval_cases k <;> exact ⟨_, rfl, codecLow_255⟩

/-- InverseLevelIsExactInTheCodecDomain. -/
theorem test_witness_CodecInverse :
    let s := pln2 1 0x42FF0000 0x42FF0000 0x42FF0000 0x42FF0000
    s.CfgOk ∧ 1 ≤ s.curLevel.toNat ∧ s.curLevel.toNat ≤ s.levels.toNat ∧
    ∀ r < 2 * (s.height.toNat / 2 ^ s.curLevel.toNat), ∀ k < 2 * (s.width.toNat / 2 ^ s.curLevel.toNat),
      ∃ v, s.plane.read (r * s.width.toNat + k) = some v ∧ CodecHalf v := by
  refine ⟨cfgOk2 1, by decide, by decide, ?_⟩
  intro r hr k hk
  change r < 2 at hr; change k < 2 at hk
  interval_cases r <;> interval_cases k <;> exact ⟨_, rfl, codecHalf_127⟩

/-- TransformRoundTrip: the checkerboard. -/
theorem test_witness_TransformRoundTrip :
    let s := pln2 0 0x00000000 0x437F0000 0x437F0000 0x00000000
    Memory.wf s.plane = true ∧ s.CfgOk ∧ s.curLevel = 0 ∧
    ∀ i < s.width.toNat * s.height.toNat, ∃ b ≤ 255, s.plane.read i = some (cvt32 b) := by
  refine ⟨by decide, cfgOk2 0, rfl, ?_⟩
  intro i hi
  change i < 4 at hi
  interval_cases i
  · exact ⟨0, by decide, by decide⟩
  · exact ⟨255, by decide, by decide⟩
  · exact ⟨255, by decide, by decide⟩
  · exact ⟨0, by decide, by decide⟩

/-- SchedVisitsEveryPositionOnce: an entry of the LL block and one of level 1, both inside the plane. -/
theorem test_witness_Sched : (cfg 2 2 1 0).CfgOk ∧
    sched (cfg 2 2 1 0).width.toNat (cfg 2 2 1 0).height.toNat (cfg 2 2 1 0).levels.toNat =
      [⟨(0, 0), 0⟩, ⟨(1, 0), 1⟩, ⟨(0, 1), 1⟩, ⟨(1, 1), 1⟩] := ⟨cfgOk2 0, by decide⟩

/-- QpackPacksThePlane, UnpackAfterPackReconstructs; `quantized` exists for every plane. -/
theorem test_witness_Qpack :
    let s := pln2 1 0x42FF0000 0x00000000 0x00000000 0xC2FF0000
    s.params.Legal ∧ s.CfgOk ∧ s.curLevel = s.levels ∧ s.plane.PresentBelow (s.width.toNat * s.height.toNat) ∧
    ∃ quantized : SchedEntry → Nat × Bool, ∀ e ∈ sched s.width.toNat s.height.toNat s.levels.toNat, ∀ v,
      s.plane.read (e.pos.1 * s.width.toNat + e.pos.2) = some v →
        quantized e = if e.level = 0 then satTrunc8 v else qdet e.level v :=
  ⟨by decide, cfgOk2 1, rfl, (present2 _ _ _ _ _).1,
    fun e => quantize e.level (planeAt 2 (pln2 1 0x42FF0000 0 0 0xC2FF0000).plane e.pos.1 e.pos.2),
    fun e _ v hv => by
      simp only [planeAt]; rw [show planeIndex 2 (e.pos.1, e.pos.2) = e.pos.1 * 2 + e.pos.2 from rfl]
      rw [show (pln2 1 0x42FF0000 0 0 0xC2FF0000).plane.read (e.pos.1 * 2 + e.pos.2) = some v from hv]; rfl⟩

/-- UnpackDqFillsThePlane, and the decode half of CompositeCommandsAreTheirStages, at STREAM_LEN = DEC_LEN. -/
theorem test_witness_UnpackDq : str2.errv = false ∧ str2.params.Legal ∧ str2.CfgOk ∧
    str2.decLen = min str2.streamLen.toNat str2.params.bsCap ∧ str2.stream.PresentBelow str2.decLen ∧
    29 = ((sched str2.width.toNat str2.height.toNat str2.levels.toNat).map SchedEntry.bits).sum :=
  ⟨rfl, by decide, cfgOk2 0, by decide, present_of_all (by decide), by decide⟩

/-- The encode half of CompositeCommandsAreTheirStages. -/
theorem test_witness_Composite : img2.errv = false ∧ img2.params.Legal ∧ img2.CfgOk ∧
    img2.image.PresentBelow (img2.width.toNat * img2.height.toNat) :=
  ⟨rfl, by decide, cfgOk2 0, present_of_all (by decide)⟩

/-- EncodeAndDecodeArePure: two states that differ outside the inputs, and both commands succeed from both. -/
theorem test_witness_Pure :
    img2 ≠ { img2 with plane := [(7, 5)], wptr := 3 } ∧
    after State.errv (exec .encode img2) = some false ∧
    after State.errv (exec .encode { img2 with plane := [(7, 5)], wptr := 3 }) = some false ∧
    after State.errv (exec .decode str2) = some false ∧
    after State.errv (exec .decode { str2 with plane := [(7, 5)], rptr := 3 }) = some false := by decide

/-- EncodeNeverClamps: the greatest LL value, the detail values ±127.5 of level 1, and an ENCODE. -/
theorem test_witness_EncodeNeverClamps : CodecLow 0 0x437F0000 ∧ CodecDetail 1 0x42FF0000 ∧
    CodecDetail 1 0xC2FF0000 ∧ after State.qclamp (exec .encode img2) = some false := by
  have h : f32Units 0x42FF0000 = 255 * 2 ^ 148 := by decide
  have h' : f32Units 0xC2FF0000 = -255 * 2 ^ 148 := by decide
  refine ⟨codecLow_255, ⟨by decide, by decide, 510, by decide, ?_⟩, ⟨by decide, by decide, -510, by decide, ?_⟩,
    by decide⟩
  · unfold f32Val; rw [h]; norm_num
  · unfold f32Val; rw [h']; norm_num

/-- The three invariants: reset meets them, and a step from it answers a state. -/
theorem test_witness_invariants :
    State.reset.PackerInv ∧ State.reset.MemoryInv ∧ State.reset.StatusInv ∧
    after id (step State.reset) = some State.reset :=
  ⟨packerInv_reset,
    ⟨legal_reset, ⟨rfl, rfl, rfl⟩, fun _ _ => rfl, fun _ _ => rfl, fun _ _ => rfl⟩,
    ⟨by decide, by decide, fun h => absurd h (by decide), rfl⟩, by decide⟩

/-- The canonical form refuses an unsorted list and a repeated index. -/
theorem test_memory_wf : Memory.wf ([(1, 0), (0, 0)] : Memory Byte) = false ∧
    Memory.wf ([(1, 0), (1, 0)] : Memory Byte) = false ∧ Memory.wf State.reset.image = true := by decide

end Sys2Proof.Tests
end

/-! PROOFS, family 00_scope. The memories stay in canonical form and within their element counts (O57). -/

namespace Sys2Proof.Machine

/-! Memories within a bound. -/

/-- A memory in canonical form none of whose elements from `n` on holds a value. -/
structure Memory.Within {α : Type} (m : Memory α) (n : Nat) : Prop where
  wf : Memory.wf m = true
  beyond : ∀ i, n ≤ i → m.read i = none

theorem Memory.Within.nil {α : Type} (n : Nat) : Memory.Within ([] : Memory α) n := ⟨rfl, fun _ _ => rfl⟩

/-- Another memory in canonical form that reads alike from `n` on. -/
theorem Memory.Within.of_read_eq {α : Type} {m m' : Memory α} {n : Nat} (h : m.Within n)
    (hwf : Memory.wf m' = true) (hr : ∀ i, n ≤ i → m'.read i = m.read i) : m'.Within n :=
  ⟨hwf, fun i hi => (hr i hi).trans (h.beyond i hi)⟩

theorem Memory.Within.writeAll {α : Type} {m : Memory α} {n : Nat} (h : m.Within n) {ws : List (Nat × α)}
    (hws : ∀ p ∈ ws, p.1 < n) : (m.writeAll ws).Within n :=
  h.of_read_eq (Memory.wf_writeAll _ _ h.wf) fun i hi =>
    Memory.read_writeAll_of_notMem _ _ _ fun p hp => by have := hws p hp; omega

theorem Memory.Within.write {α : Type} {m : Memory α} {n i : Nat} (h : m.Within n) (hi : i < n) (v : α) :
    (m.write i v).Within n :=
  h.writeAll (ws := [(i, v)]) (by simpa using hi)

/-- Writes to the elements below `k`, in order. -/
theorem Memory.Within.writeAll_range {α : Type} {m : Memory α} {n k : Nat} (h : m.Within n) (hk : k ≤ n)
    (f : Nat → α) : (m.writeAll ((List.range k).map fun i => (i, f i))).Within n :=
  h.writeAll fun p hp => by
    obtain ⟨i, hi, rfl⟩ := List.mem_map.1 hp
    exact (List.mem_range.1 hi).trans_le hk

/-! The memory invariant. -/

theorem memoryInv_iff (s : State) : s.MemoryInv ↔ s.params.Legal ∧
    s.image.Within (s.params.wMax * s.params.hMax) ∧ s.plane.Within (s.params.wMax * s.params.hMax) ∧
    s.stream.Within s.params.bsCap :=
  ⟨fun ⟨hl, ⟨wi, wp, ws⟩, bi, bp, bs⟩ => ⟨hl, ⟨wi, bi⟩, ⟨wp, bp⟩, ⟨ws, bs⟩⟩,
    fun ⟨hl, ⟨wi, bi⟩, ⟨wp, bp⟩, ⟨ws, bs⟩⟩ => ⟨hl, ⟨wi, wp, ws⟩, bi, bp, bs⟩⟩

/-- Two states with the same parameters and memories. -/
structure SameMemories (s t : State) : Prop where
  params : t.params = s.params
  image : t.image = s.image
  plane : t.plane = s.plane
  stream : t.stream = s.stream

theorem State.MemoryInv.of_same {s t : State} (h : s.MemoryInv) (hst : SameMemories s t) : t.MemoryInv := by
  unfold State.MemoryInv
  rw [hst.params, hst.image, hst.plane, hst.stream]
  exact h

/-- An update that keeps the parameters and leaves each memory within its count. -/
theorem State.MemoryInv.update {s t : State} (h : s.MemoryInv) (hp : t.params = s.params)
    (hi : t.image.Within (s.params.wMax * s.params.hMax))
    (hpl : t.plane.Within (s.params.wMax * s.params.hMax)) (hst : t.stream.Within s.params.bsCap) :
    t.MemoryInv := by
  rw [memoryInv_iff, hp]
  exact ⟨h.1, hi, hpl, hst⟩

theorem State.MemoryInv.image_within {s : State} (h : s.MemoryInv) :
    s.image.Within (s.params.wMax * s.params.hMax) := ((memoryInv_iff s).1 h).2.1

theorem State.MemoryInv.plane_within {s : State} (h : s.MemoryInv) :
    s.plane.Within (s.params.wMax * s.params.hMax) := ((memoryInv_iff s).1 h).2.2.1

theorem State.MemoryInv.stream_within {s : State} (h : s.MemoryInv) : s.stream.Within s.params.bsCap :=
  ((memoryInv_iff s).1 h).2.2.2

/-! What CFG_OK bounds. -/

/-- R15, R8: the samples of a valid configuration are elements of IMAGE and PLANE. -/
theorem State.CfgOk.samples_le {s : State} (hc : s.CfgOk) :
    s.width.toNat * s.height.toNat ≤ s.params.wMax * s.params.hMax := by
  obtain ⟨_, ⟨_, hw⟩, ⟨_, hh⟩, _⟩ := hc
  exact Nat.mul_le_mul hw hh

theorem SameFrame.cfgOk {s t : State} (h : SameFrame s t) (hc : s.CfgOk) : t.CfgOk := by
  unfold State.CfgOk
  rw [h.levels, h.width, h.height, h.params]
  exact hc

/-! Stages. -/

theorem bodyLoadImage_memoryInv {s t : State} (hm : s.MemoryInv) (hc : s.CfgOk)
    (h : bodyLoadImage s = .ok t) : t.MemoryInv := by
  obtain ⟨_, rfl⟩ := bodyLoadImage_eq_ok.1 h
  exact hm.update rfl hm.image_within (hm.plane_within.writeAll_range hc.samples_le _) hm.stream_within

theorem bodyStoreImage_memoryInv {s t : State} (hm : s.MemoryInv) (hc : s.CfgOk)
    (h : bodyStoreImage s = .ok t) : t.MemoryInv := by
  obtain ⟨_, rfl⟩ := bodyStoreImage_eq_ok.1 h
  exact hm.update rfl (hm.image_within.writeAll_range hc.samples_le _) hm.plane_within hm.stream_within

/-- R172: forward levels write only the plane's own samples. -/
theorem bodyFwdAll_memoryInv {s t : State} (hm : s.MemoryInv) (hc : s.CfgOk)
    (h : bodyFwdAll s = .ok t) : t.MemoryInv := by
  obtain ⟨p, hp, rfl⟩ := bodyFwdAll_eq_ok.1 h
  have hle := hc.samples_le
  refine hm.update rfl hm.image_within
    (hm.plane_within.of_read_eq (wf_fwdLevels hm.plane_within.wf hp) fun i hi => ?_) hm.stream_within
  refine fwdLevels_outside hp fun hr => ?_
  have := lt_of_inRegion (dimAt_le _ _) (dimAt_le _ _) hr
  omega

theorem bodyInvAll_memoryInv {s t : State} (hm : s.MemoryInv) (hc : s.CfgOk)
    (h : bodyInvAll s = .ok t) : t.MemoryInv := by
  obtain ⟨p, hp, rfl⟩ := bodyInvAll_eq_ok.1 h
  exact hm.update rfl hm.image_within
    (hm.plane_within.of_read_eq (wf_invLevels hm.plane_within.wf hp) fun i hi =>
      invLevels_outside hp (hc.samples_le.trans hi)) hm.stream_within

theorem bodyFwdLevel_memoryInv {s t : State} (hm : s.MemoryInv) (hc : s.CfgOk)
    (h : bodyFwdLevel s = .ok t) : t.MemoryInv := by
  obtain ⟨p, hp, rfl⟩ := bodyFwdLevel_eq_ok.1 h
  have hle := hc.samples_le
  refine hm.update rfl hm.image_within
    (hm.plane_within.of_read_eq (wf_fwdLevel hm.plane_within.wf hp) fun i hi => ?_) hm.stream_within
  rw [read_fwdLevel hp, if_neg]
  intro hr
  have := lt_of_inRegion (dimAt_le _ _) (dimAt_le _ _) hr
  omega

/-- R176: an inverse level, whose region is twice its subbands, starts at CUR_LEVEL ≥ 1. -/
theorem bodyInvLevel_memoryInv {s t : State} (hm : s.MemoryInv) (hc : s.CfgOk)
    (h1 : 1 ≤ s.curLevel.toNat) (h : bodyInvLevel s = .ok t) : t.MemoryInv := by
  obtain ⟨p, hp, rfl⟩ := bodyInvLevel_eq_ok.1 h
  have hle := hc.samples_le
  refine hm.update rfl hm.image_within
    (hm.plane_within.of_read_eq (wf_invLevel hm.plane_within.wf hp) fun i hi => ?_) hm.stream_within
  rw [read_invLevel h1 hp, if_neg]
  intro hr
  have := lt_of_inRegion (two_dimAt_le h1) (two_dimAt_le h1) hr
  omega

/-- R290, R17: QPACK writes the first ENC_LEN bytes of STREAM, which are within BS_CAP. -/
theorem bodyQpack_memoryInv {s t : State} (hm : s.MemoryInv) (hc : s.CfgOk)
    (h : bodyQpack s = .ok t) : t.MemoryInv := by
  obtain ⟨p, cl, hp, rfl⟩ := bodyQpack_eq_ok.1 h
  have hlen := encLen_le_cap hm.1 hc
  have hwrote := qpack_wrote (entries_level s) rfl (by rw [entries_encLen]; exact s.encLen_lt) hp
  rw [entries_encLen] at hwrote
  exact hm.update rfl hm.image_within hm.plane_within
    (hm.stream_within.of_read_eq (hwrote.wf hm.stream_within.wf) fun i hi => hwrote.other i (.inr (by omega)))

theorem bodyUnpackDq_memoryInv {s t : State} (hm : s.MemoryInv) (hc : s.CfgOk)
    (h : bodyUnpackDq s = .ok t) : t.MemoryInv := by
  obtain ⟨u, p, hp, rfl⟩ := bodyUnpackDq_eq_ok.1 h
  obtain ⟨_, qs, _, rfl⟩ := unpackSched_ok (entries_level s) (by decide : Unpacker.start.Inv) hp
  refine hm.update rfl hm.image_within (hm.plane_within.writeAll fun w hw => ?_) hm.stream_within
  obtain ⟨qe, hqe, rfl⟩ := List.mem_map.1 hw
  have hpos := entries_pos hc (List.of_mem_zip hqe).2
  exact (planeIndex_lt hpos.1 hpos.2).trans_le hc.samples_le

/-- R246: a PUSH that emits a byte emits it at WPTR, which its check keeps below BS_CAP. -/
theorem bodyPush_memoryInv {v w : Nat} {s t : State} (hm : s.MemoryInv) (hp : s.PackerInv)
    (hc : checkPush w s = none) (h : bodyPush v w s = .ok t) : t.MemoryInv := by
  obtain ⟨hw, hcap⟩ := checkPush_eq_none.1 hc
  cases h
  have hbits := (pkPush_bits (p := s.packer) hp.1 hw (Nat.mod_lt v (by positivity : 2 ^ w > 0))).2
  refine hm.update rfl hm.image_within hm.plane_within ?_
  show (pkPush (v % 2 ^ w) w s.packer).out.Within _
  rcases hbits with ⟨_, _, hout, _⟩ | ⟨h8, _, b, hout, _⟩ <;> rw [hout]
  · exact hm.stream_within
  · have hemit : 1 ≤ pushEmits w s := (Nat.one_le_div_iff (by norm_num)).2 h8
    exact hm.stream_within.write (show s.wptr.toNat < _ by omega) b

/-- No command takes a memory out of its canonical form or beyond its element count. -/
theorem bodyOf_memoryInv {i : Instr} {s t : State} (hm : s.MemoryInv) (hp : s.PackerInv)
    (hc : checksOf i s = none) (h : bodyOf i s = .ok t) : t.MemoryInv := by
  cases i with
  | nop => cases h; exact hm
  | loadImage => exact bodyLoadImage_memoryInv hm (checkConfig_eq_none.1 hc) h
  | storeImage => exact bodyStoreImage_memoryInv hm (checkConfig_eq_none.1 hc) h
  | fwdLevel => exact bodyFwdLevel_memoryInv hm (checkFwdLevel_eq_none.1 hc).1 h
  | invLevel =>
    obtain ⟨hcfg, h1, _⟩ := checkInvLevel_eq_none.1 hc
    exact bodyInvLevel_memoryInv hm hcfg h1 h
  | fwdAll => exact bodyFwdAll_memoryInv hm (checkAllLevels_eq_none.1 hc).1 h
  | invAll => exact bodyInvAll_memoryInv hm (checkAllLevels_eq_none.1 hc).1 h
  | qpack => exact bodyQpack_memoryInv hm (checkQpack_eq_none.1 hc).1 h
  | unpackDq => exact bodyUnpackDq_memoryInv hm (checkDecode_eq_none.1 hc).1 h
  | encode =>
    obtain ⟨u, v, h1, h2, h3⟩ := bodyEncode_eq_ok.1 h
    have hcs := (checkEncode_eq_none.1 hc).1
    have hcu := (frame_load h1).cfgOk hcs
    exact bodyQpack_memoryInv (bodyFwdAll_memoryInv (bodyLoadImage_memoryInv hm hcs h1) hcu h2)
      ((frame_fwdAll h2).cfgOk hcu) h3
  | decode =>
    obtain ⟨u, v, h1, h2, h3⟩ := bodyDecode_eq_ok.1 h
    have hcs := (checkDecode_eq_none.1 hc).1
    have hcu := (frame_unpackDq h1).cfgOk hcs
    exact bodyStoreImage_memoryInv (bodyInvAll_memoryInv (bodyUnpackDq_memoryInv hm hcs h1) hcu h2)
      ((frame_invAll h2).cfgOk hcu) h3
  | bpInit => cases h; exact hm.of_same ⟨rfl, rfl, rfl, rfl⟩
  | push v w => exact bodyPush_memoryInv hm hp hc h
  | flush =>
    have hcap := checkFlush_eq_none.1 hc
    cases h
    exact hm.update rfl hm.image_within hm.plane_within
      (hm.stream_within.write (show s.wptr.toNat < _ by omega) _)
  | pull w => obtain ⟨_, _, _, rfl⟩ := bodyPull_eq_ok.1 h; exact hm.of_same ⟨rfl, rfl, rfl, rfl⟩
  | quant k => cases h; exact hm.of_same ⟨rfl, rfl, rfl, rfl⟩
  | dequant k => cases h; exact hm.of_same ⟨rfl, rfl, rfl, rfl⟩

/-- The same of a command's completion, with an error outcome or without. -/
theorem exec_memoryInv {i : Instr} {s t : State} (hm : s.MemoryInv) (hp : s.PackerInv)
    (h : exec i s = .next t) : t.MemoryInv ∧ t.params = s.params := by
  rcases exec_eq_next h with ⟨e, _, rfl⟩ | ⟨hc, u, hu, rfl⟩
  · exact ⟨hm.of_same ⟨rfl, rfl, rfl, rfl⟩, rfl⟩
  · exact ⟨(bodyOf_memoryInv hm hp hc hu).of_same ⟨rfl, rfl, rfl, rfl⟩, (frame_body hu).params⟩

/-! Host writes. -/

/-- R8: how many elements a memory holds. -/
def MemId.count (p : Params) : MemId → Nat
  | .image => p.wMax * p.hMax
  | .plane => p.wMax * p.hMax
  | .stream => p.bsCap

theorem windowTarget_eq_elem {m m' : MemId} {base size addr i : Nat}
    (h : windowTarget m base size addr = .elem m' i) : m = m' ∧ i < size := by
  unfold windowTarget at h
  split at h
  · rename_i hlt
    obtain ⟨rfl, rfl⟩ := Target.elem.inj h
    exact ⟨rfl, hlt⟩
  · cases h

/-- R92, R97: a transaction reaches only elements below the count of their memory. -/
theorem busTarget_elem_lt {p : Params} {addr : Word} {m : MemId} {i : Nat}
    (h : busTarget p addr = .elem m i) : i < m.count p := by
  unfold busTarget at h
  simp only at h
  split at h
  · cases h
  split at h
  · split at h <;> cases h
  split at h
  · cases h
  split at h
  · obtain ⟨rfl, hi⟩ := windowTarget_eq_elem h; exact hi
  split at h
  · obtain ⟨rfl, hi⟩ := windowTarget_eq_elem h; exact hi
  split at h
  · obtain ⟨rfl, hi⟩ := windowTarget_eq_elem h; exact hi
  · cases h

/-- R32, R372: a write to a register changes no memory, a soft reset included. -/
theorem regWrite_sameMemories (s : State) (r : Reg) (data : Word) : SameMemories s (s.regWrite r data) := by
  cases r
  case ctrl =>
    show SameMemories s (s.writeCtrl data)
    unfold State.writeCtrl
    split <;> constructor <;> rfl
  all_goals constructor <;> rfl

theorem elemWrite_memoryInv {s : State} {m : MemId} {i : Nat} (hm : s.MemoryInv) (hi : i < m.count s.params)
    (data : Word) : (s.elemWrite m i data).MemoryInv := by
  cases m with
  | image => exact hm.update rfl (hm.image_within.write hi _) hm.plane_within hm.stream_within
  | plane => exact hm.update rfl hm.image_within (hm.plane_within.write hi _) hm.stream_within
  | stream => exact hm.update rfl hm.image_within hm.plane_within (hm.stream_within.write hi _)

theorem elemWrite_params (s : State) (m : MemId) (i : Nat) (data : Word) :
    (s.elemWrite m i data).params = s.params := by
  cases m <;> rfl

theorem busWrite_memoryInv {s : State} (hm : s.MemoryInv) (addr data : Word) :
    (s.busWrite addr data).2.MemoryInv ∧ (s.busWrite addr data).2.params = s.params := by
  unfold State.busWrite
  cases ht : busTarget s.params addr with
  | busError => exact ⟨hm, rfl⟩
  | reserved => exact ⟨hm, rfl⟩
  | reg r =>
    have hsame := regWrite_sameMemories s r data
    cases hb : s.busy
    · exact ⟨hm.of_same hsame, hsame.params⟩
    · exact ⟨hm, rfl⟩
  | elem m i =>
    cases hb : s.busy
    · exact ⟨elemWrite_memoryInv hm (busTarget_elem_lt ht) data, elemWrite_params s m i data⟩
    · exact ⟨hm, rfl⟩

/-! Steps. -/

/-- R370: reset empties the memories. -/
theorem memoryInv_resetWith {p : Params} (hp : p.Legal) : (State.resetWith p).MemoryInv :=
  (memoryInv_iff _).2 ⟨hp, .nil _, .nil _, .nil _⟩

/-- Settles O57: the memory invariant is kept by each kind of step that `step_eq_next` lists. -/
theorem stepKeepsTheMemoryInvariant : Obligations.StepKeepsTheMemoryInvariant := by
  intro s t hm hp h
  obtain ⟨es, h⟩ := step_eq_next h
  have hm' : State.MemoryInv { s with env := es } := hm.of_same ⟨rfl, rfl, rfl, rfl⟩
  have hp' : State.PackerInv { s with env := es } := hp
  rcases h with ⟨i, _, _, hx⟩ | ⟨e, _, _, rfl⟩ | ⟨_, rfl⟩ | ⟨r, rfl⟩ | ⟨a, d, rfl⟩ | rfl
  · obtain ⟨hinv, hpar⟩ := exec_memoryInv hm' hp' hx
    exact ⟨hinv, hpar⟩
  · exact ⟨hm'.of_same ⟨rfl, rfl, rfl, rfl⟩, rfl⟩
  · exact ⟨hm', rfl⟩
  · exact ⟨hm'.of_same ⟨rfl, rfl, rfl, rfl⟩, rfl⟩
  · obtain ⟨hinv, hpar⟩ := busWrite_memoryInv hm' a d
    exact ⟨hinv.of_same ⟨rfl, rfl, rfl, rfl⟩, hpar⟩
  · exact ⟨(memoryInv_resetWith hm.1).of_same ⟨rfl, rfl, rfl, rfl⟩, rfl⟩

end Sys2Proof.Machine

/-! PROOFS, family 00_scope. The derived sizes (R16, R17, R294). -/

namespace Sys2Proof.Machine

/-- R16: the bytes that hold `d` bits, as a rounded quotient. -/
theorem natCeil_div_eight (d : Nat) : ⌈(d : Rat) / 8⌉₊ = (d + 7) / 8 := by
  have hceil : (⌈(d : Rat) / 8⌉₊ : Int) = -((-d) / 8) := by
    rw [Int.natCast_ceil_eq_ceil (by positivity)]
    exact_mod_cast Rat.ceil_natCast_div_natCast d 8
  omega

/-- Settles O24, with the sum over the levels as `detailBits`. -/
theorem derivedSizes : Obligations.DerivedSizes := by
  rintro s nll dbits hnll hdbits
  rw [← detailBits_eq_sum] at hdbits
  rw [← dimAt_eq, ← dimAt_eq, ← llBytes] at hnll
  have henc : s.encLen = nll + dbits / 8 + 1 := by rw [hnll, hdbits]; rfl
  have hdec : s.decLen = nll + (dbits + 7) / 8 := by rw [hnll, hdbits]; rfl
  refine ⟨henc, by rw [hdec, natCeil_div_eight], ?_⟩
  split <;> omega

/-- Settles O25: a detail value takes at most 7 bits (`encLen_le`), and CFG_OK bounds WIDTH and HEIGHT. -/
theorem encodedStreamFits : Obligations.EncodedStreamFits := by
  intro s hl hc
  obtain ⟨_, _, ⟨hcap, _⟩, _⟩ := hl
  have hle := hc.samples_le
  exact ⟨encLen_le _ _ _, by omega⟩

end Sys2Proof.Machine

/-! PROOFS, family 00_scope. What reset leaves (R31, R370): the registers as the host reads them, and the
three invariants. -/

namespace Sys2Proof.Machine

/-! Register addresses. -/

/-- R31, R96: the address of a register reaches that register. -/
theorem busTarget_regAddr (p : Params) (r : Reg) : busTarget p (regAddr r) = .reg r := by
  cases r <;> rfl

/-- R31: no register lies at an offset above P_BSCAP. -/
theorem regAt_eq_none {off : Nat} (h : 0x4C ≤ off) : regAt off = none := by
  unfold regAt
  split
  case h_20 => rfl
  all_goals omega

/-- R31, R32: the aligned offsets above P_BSCAP are reserved. -/
theorem busTarget_reserved {p : Params} {a : Word} (hlo : 0x4C ≤ a.toNat) (hhi : a.toNat < 0x1000)
    (hal : a.toNat % 4 = 0) : busTarget p a = .reserved := by
  simp [busTarget, hal, hhi, regAt_eq_none hlo]

/-- R96: an idle register read returns the register. -/
theorem busRead_regAddr {s : State} (hb : s.busy = false) (r : Reg) :
    s.busRead (regAddr r) = .ok (.read (s.regRead r) .okay) := by
  simp [State.busRead, busTarget_regAddr, hb]

theorem busRead_reserved {s : State} {a : Word} (hlo : 0x4C ≤ a.toNat) (hhi : a.toNat < 0x1000)
    (hal : a.toNat % 4 = 0) : s.busRead a = .ok (.read 0 .okay) := by
  simp [State.busRead, busTarget_reserved hlo hhi hal]

/-! Reset. -/

/-- R15, R31: LEVELS = 0 is no legal configuration. -/
theorem not_cfgOk_resetWith (p : Params) : ¬ (State.resetWith p).CfgOk := by
  rintro ⟨⟨hlevels, _⟩, _⟩
  exact absurd hlevels (by decide : ¬ 1 ≤ (0 : BitVec 3).toNat)

/-- R34, R36, R43, R45: the packed words after reset. -/
theorem packedWords_resetWith (p : Params) : (State.resetWith p).ctrlWord = 0x00000000 ∧
    (State.resetWith p).statusWord = 0x00000000 ∧ (State.resetWith p).wstateWord = 0x00000800 ∧
    (State.resetWith p).rstateWord = 0x00000000 := by
  simp [State.ctrlWord, State.statusWord, State.wstateWord, State.rstateWord, State.resetWith, flagBit]

/-- Settles O14: each address of the map is `regAddr` of its register, read at the reset value. -/
theorem resetRegisterMap : Obligations.ResetRegisterMap := by
  refine ⟨rfl, fun p => ⟨?_, fun a => busRead_reserved, fun i => ⟨rfl, rfl, rfl⟩, rfl, rfl,
    not_cfgOk_resetWith p⟩⟩
  have hread := busRead_regAddr (s := State.resetWith p) rfl
  obtain ⟨hctrl, hstatus, hwstate, hrstate⟩ := packedWords_resetWith p
  simp only [List.forall_mem_cons, List.not_mem_nil, false_implies, implies_true, and_true]
  exact ⟨hread .id, hctrl ▸ hread .ctrl, hread .cmd, hstatus ▸ hread .status, hread .width, hread .height,
    hread .levels, hread .curLevel, hread .streamLen, hread .wptr, hwstate ▸ hread .wstate, hread .rptr,
    hrstate ▸ hread .rstate, hread .pullData, hread .qCoef, hread .qIndex, hread .pWmax, hread .pHmax,
    hread .pBscap⟩

/-- R43, R45: an empty buffer and no bit available. -/
theorem packerInv_resetWith (p : Params) : (State.resetWith p).PackerInv := by
  simp [State.PackerInv, State.resetWith]

/-- R36, R53: no error, nothing pending. -/
theorem statusInv_resetWith (p : Params) : (State.resetWith p).StatusInv := by
  simp [State.StatusInv, State.resetWith]

/-- Settles O59. -/
theorem resetMeetsTheInvariants : Obligations.ResetMeetsTheInvariants :=
  ⟨by decide, fun p hp => ⟨memoryInv_resetWith hp, packerInv_resetWith p, statusInv_resetWith p⟩⟩

end Sys2Proof.Machine

/-! PROOFS, family 00_scope. The binary32 primitives, case by case (R13; O27). -/

namespace Sys2Proof.Machine

/-! Special operands. -/

theorem f32Inf_sign {a : Word} (h : f32IsInf a = true) : f32Inf (f32Sign a) = a := by
  simp only [f32IsInf, Bool.and_eq_true, beq_iff_eq] at h
  apply BitVec.eq_of_toNat_eq
  rw [toNat_eq_fields a, h.1, h.2]
  cases f32Sign a <;> rfl

theorem not_nan_of_inf {a : Word} (h : f32IsInf a = true) : f32IsNaN a = false := by
  simp only [f32IsInf, Bool.and_eq_true, beq_iff_eq] at h
  simp [f32IsNaN, h.2]

theorem f32IsNaN_neg (x : Word) : f32IsNaN (f32Neg x) = f32IsNaN x := by
  obtain ⟨_, hexp, hfrac⟩ := fields_f32Neg x
  simp only [f32IsNaN, hexp, hfrac]

theorem f32IsInf_neg (x : Word) : f32IsInf (f32Neg x) = f32IsInf x := by
  obtain ⟨_, hexp, hfrac⟩ := fields_f32Neg x
  simp only [f32IsInf, hexp, hfrac]

theorem f32IsFinite_neg (x : Word) : f32IsFinite (f32Neg x) = f32IsFinite x := by
  simp only [f32IsFinite, (fields_f32Neg x).2.1]

theorem f32Sign_neg (x : Word) : f32Sign (f32Neg x) = !f32Sign x := (fields_f32Neg x).1

theorem f32Neg_eq_iff (x y : Word) : f32Neg x = y ↔ x = f32Neg y := by
  unfold f32Neg
  constructor <;> (rintro rfl; rw [BitVec.xor_assoc, BitVec.xor_self, BitVec.xor_zero])

/-- A zero is the zero of its sign. -/
theorem f32Zero_sign {a : Word} (h : f32Units a = 0) : f32Zero (f32Sign a) = a := by
  have hmag : f32Mag a = 0 := by rw [← f32Units_natAbs, h]; rfl
  refine f32_ext ?_ ?_
  · cases f32Sign a <;> decide
  · rw [hmag]; cases f32Sign a <;> decide

/-! Addition, case by case. -/

theorem add32_of_nan {a b : Word} (h : f32IsNaN a = true ∨ f32IsNaN b = true) : add32 a b = 0x7FC00000 := by
  unfold add32
  rw [if_pos (by simpa using h)]
  rfl

/-- R13: an infinity and anything that is no NaN. -/
theorem add32_of_inf {a b : Word} (ha : f32IsInf a = true) (hb : f32IsNaN b = false) :
    add32 a b = if f32IsInf b = true ∧ f32Sign a ≠ f32Sign b then 0x7FC00000 else a := by
  unfold add32
  simp only [not_nan_of_inf ha, hb, ha, f32Inf_sign ha, Bool.or_self, Bool.false_eq_true, if_false, if_true,
    Bool.and_eq_true, bne_iff_ne]
  rfl

theorem add32_of_finite_inf {a b : Word} (ha : f32IsFinite a = true) (hb : f32IsInf b = true) :
    add32 a b = b := by
  unfold add32
  simp only [not_nan_of_finite ha, not_inf_of_finite ha, not_nan_of_inf hb, hb, f32Inf_sign hb, Bool.or_self,
    Bool.false_eq_true, if_false, if_true]

/-- Two values with sum 0 are both negative only as −0 and −0. -/
theorem sign_and_sign_of_sum_zero {a b : Word} (h : f32Units a + f32Units b = 0) :
    (f32Sign a && f32Sign b) = true ↔ a = 0x80000000 ∧ b = 0x80000000 := by
  rw [Bool.and_eq_true]
  constructor
  · rintro ⟨ha, hb⟩
    have hua : f32Units a ≤ 0 := by simp [f32Units, ha]
    have hub : f32Units b ≤ 0 := by simp [f32Units, hb]
    exact ⟨(f32_negZero (by omega)).1 ha, (f32_negZero (by omega)).1 hb⟩
  · rintro ⟨rfl, rfl⟩; decide

/-- R13: two finite operands; an exact zero is −0 only as the sum of −0 and −0. -/
theorem add32_of_finite {a b : Word} (ha : f32IsFinite a = true) (hb : f32IsFinite b = true) :
    add32 a b = if f32Units a + f32Units b ≠ 0 then rnd32 (2 * (f32Units a + f32Units b))
      else if a = 0x80000000 ∧ b = 0x80000000 then 0x80000000 else 0x00000000 := by
  unfold add32
  simp only [not_nan_of_finite ha, not_nan_of_finite hb, not_inf_of_finite ha, not_inf_of_finite hb,
    Bool.or_self, Bool.false_eq_true, if_false]
  by_cases h0 : f32Units a + f32Units b = 0
  · simp only [h0, if_true, ne_eq, not_true_eq_false, if_false, f32Zero, sign_and_sign_of_sum_zero h0]
  · rw [if_neg h0, if_pos h0]

/-! Halving and conversion. -/

theorem half32_of_finite {a : Word} (h : f32IsFinite a = true) :
    half32 a = if f32Units a ≠ 0 then rnd32 (f32Units a) else a := by
  unfold half32
  simp only [not_nan_of_finite h, not_inf_of_finite h, Bool.false_eq_true, if_false]
  by_cases h0 : f32Units a = 0
  · rw [if_pos h0, if_neg (not_not.2 h0), f32Zero_sign h0]
  · rw [if_neg h0, if_pos h0]

/-- A dyadic value that is not negative has sign 0. -/
theorem IsDyadic.sign_of_nonneg {j : Nat} {z : Int} {v : Word} (h : IsDyadic j z v) (hz : 0 ≤ z) :
    f32Sign v = false := by
  by_contra hs
  rw [Bool.not_eq_false] at hs
  have hunits : f32Units v ≤ 0 := by simp [f32Units, hs]
  rw [h.units] at hunits
  have hz0 : z = 0 := by
    by_contra hne
    have : 0 < z * 2 ^ j := mul_pos (by omega) (by positivity)
    omega
  rw [h.zero hz0] at hs
  cases hs

/-- 2^24, the one integer of the range with 25 bits, is a power of two. -/
theorem cvt32_two_pow_24 : IsDyadic 149 ((2 ^ 24 : Nat) : Int) (cvt32 (2 ^ 24)) := by
  obtain ⟨hfin, hunits, hzero⟩ := rnd32_dyadic (j := 173) (z := 1) (by decide) (by omega)
  have hcvt : cvt32 (2 ^ 24) = rnd32 (2 * (1 * 2 ^ 173)) := by unfold cvt32; norm_num
  rw [← hcvt] at hfin hunits hzero
  exact ⟨hfin, by rw [hunits]; norm_num, fun h => by norm_num at h⟩

theorem cvt32_exact {n : Nat} (hn : n ≤ 2 ^ 24) : IsDyadic 149 n (cvt32 n) := by
  rcases Nat.lt_or_eq_of_le hn with hlt | rfl
  · exact cvt32_dyadic hlt
  · exact cvt32_two_pow_24

/-- Settles O27, from one lemma a case. Subtraction is addition of the negated operand. -/
theorem floatOperationCases : Obligations.FloatOperationCases := by
  refine ⟨fun a b => ⟨fun h => ?_, fun ha hb => ?_, fun ha hb => ?_, fun ha hb => ?_⟩,
    fun a => ⟨fun h => ?_, fun h => ?_, half32_of_finite⟩, fun n hn => ?_⟩
  · exact ⟨add32_of_nan h, add32_of_nan (by rwa [f32IsNaN_neg])⟩
  · refine ⟨add32_of_inf ha hb, ?_⟩
    unfold sub32
    rw [add32_of_inf ha (by rwa [f32IsNaN_neg]), f32IsInf_neg, f32Sign_neg]
    cases f32Sign a <;> cases f32Sign b <;> simp
  · exact ⟨add32_of_finite_inf ha hb, add32_of_finite_inf ha (by rwa [f32IsInf_neg])⟩
  · refine ⟨add32_of_finite ha hb, ?_⟩
    unfold sub32
    have hneg : f32Neg b = 0x80000000 ↔ b = 0x00000000 := f32Neg_eq_iff b _
    simp only [add32_of_finite ha (by rwa [f32IsFinite_neg]), f32Units_neg, ← Int.sub_eq_add_neg, hneg]
  · unfold half32; rw [if_pos h]; rfl
  · unfold half32; rw [if_neg (by simp [not_nan_of_inf h]), if_pos h, f32Inf_sign h]
  · have hd := cvt32_exact hn
    refine ⟨hd.finite, hd.sign_of_nonneg (by positivity), ?_⟩
    rw [hd.val, mul_div_assoc, div_self (by positivity), mul_one, Int.cast_natCast]

end Sys2Proof.Machine

/-! PROOFS, family 00_scope. `rnd32` rounds to the nearest value, ties to even (R13; O26). Magnitudes are
compared in units of 2^-150: the magnitude of a finite `v` is `2 * f32Mag v` of them. -/

namespace Sys2Proof.Machine

/-! The rounded quotient. -/

theorem roundQuot_range (m t : Nat) : m / 2 ^ t ≤ roundQuot m t ∧ roundQuot m t ≤ m / 2 ^ t + 1 := by
  simp only [roundQuot]
  split <;> omega

/-- roundTiesToEven: no multiple of 2^t is nearer to `m` than the rounded one, and the rounded one is even when
another is as near. -/
theorem roundQuot_nearest (m t k : Nat) :
    |(m : Int) - (roundQuot m t * 2 ^ t : Nat)| ≤ |(m : Int) - (k * 2 ^ t : Nat)| ∧
      (|(m : Int) - (roundQuot m t * 2 ^ t : Nat)| = |(m : Int) - (k * 2 ^ t : Nat)| → k ≠ roundQuot m t →
        roundQuot m t % 2 = 0) := by
  have hm := Nat.div_add_mod' m (2 ^ t)
  have hr := Nat.mod_lt m (show 0 < 2 ^ t by positivity)
  simp only [roundQuot, Int.abs_eq_natAbs]
  generalize m / 2 ^ t = q at *
  generalize m % 2 ^ t = r at *
  generalize 2 ^ t = P at *
  -- the two multiples around `m` are those of `q` and `q + 1`; any other is farther by at least `P`
  have hcases : (k * P + P ≤ q * P) ∨ k = q ∨ k = q + 1 ∨ (q * P + 2 * P ≤ k * P) := by
    rcases Nat.lt_trichotomy k q with h | h | h
    · exact .inl (by calc k * P + P = (k + 1) * P := by ring
        _ ≤ q * P := Nat.mul_le_mul_right _ h)
    · exact .inr (.inl h)
    · rcases Nat.eq_or_lt_of_le h with h | h
      · exact .inr (.inr (.inl h.symm))
      · exact .inr (.inr (.inr (by calc q * P + 2 * P = (q + 2) * P := by ring
          _ ≤ k * P := Nat.mul_le_mul_right _ h)))
  have hk1 : k = q + 1 → k * P = q * P + P := by rintro rfl; ring
  have hk0 : k = q → k * P = q * P := by rintro rfl; rfl
  have hsucc : (q + 1) * P = q * P + P := by ring
  split
  · rw [hsucc]
    generalize k * P = B at *
    generalize q * P = A at *
    omega
  · generalize k * P = B at *
    generalize q * P = A at *
    omega

/-! The scale. -/

/-- The scale keeps 24 significant bits, and no fewer unless the result is subnormal. -/
theorem roundScale_spec (m : Nat) :
    m < 2 ^ (roundScale m + 24) ∧ (roundScale m = 1 ∨ 2 ^ (roundScale m + 23) ≤ m) := by
  have hhi : m < 2 ^ (m.log2 + 1) := Nat.lt_log2_self
  refine ⟨hhi.trans_le (Nat.pow_le_pow_right (by omega) (by unfold roundScale; omega)), ?_⟩
  by_cases hc : m.log2 - 23 ≤ 1
  · left; unfold roundScale; omega
  · right
    have hlog : roundScale m + 23 = m.log2 := by unfold roundScale; omega
    rw [hlog]
    exact Nat.log2_self_le (by rintro rfl; simp at hc)

theorem one_le_roundScale (m : Nat) : 1 ≤ roundScale m := le_max_left _ _

theorem roundQuot_roundScale (m : Nat) : roundQuot m (roundScale m) ≤ 2 ^ 24 ∧
    (roundScale m = 1 ∨ 2 ^ 23 ≤ roundQuot m (roundScale m)) := by
  obtain ⟨hhi, hlo⟩ := roundScale_spec m
  obtain ⟨hge, hle⟩ := roundQuot_range m (roundScale m)
  refine ⟨?_, hlo.imp_right fun h => ?_⟩
  · have : m / 2 ^ roundScale m < 2 ^ 24 := by
      rwa [Nat.div_lt_iff_lt_mul (by positivity), ← pow_add, Nat.add_comm]
    omega
  · have : 2 ^ 23 ≤ m / 2 ^ roundScale m := by
      rwa [Nat.le_div_iff_mul_le (by positivity), ← pow_add, Nat.add_comm]
    omega

/-! The overflow threshold. -/

/-- At scale 254 the greatest significand is not carried over exactly below the threshold. -/
theorem roundQuot_254_lt_iff {m : Nat} (h : m < 2 ^ 25 * 2 ^ 253) :
    roundQuot m 254 < 2 ^ 24 ↔ m < (2 ^ 25 - 1) * 2 ^ 253 := by
  have hm := Nat.div_add_mod' m (2 ^ 254)
  have hr := Nat.mod_lt m (show 0 < 2 ^ 254 by positivity)
  have hle := (roundQuot_range m 254).2
  simp only [roundQuot] at hle ⊢
  rw [show (2 : Nat) ^ 254 = 2 * 2 ^ 253 from pow_succ' 2 253] at *
  generalize m / (2 * 2 ^ 253) = q at *
  generalize m % (2 * 2 ^ 253) = r at *
  generalize (2 : Nat) ^ 253 = P at *
  have hq : q < 2 ^ 24 := by
    by_contra hc
    have := Nat.mul_le_mul_right (2 * P) (Nat.le_of_not_lt hc)
    omega
  rcases Nat.lt_or_eq_of_le (Nat.le_sub_one_of_lt hq) with hlt | rfl
  · -- a smaller significand is below the threshold and stays below 2^24
    have := Nat.mul_le_mul_right (2 * P) (Nat.le_sub_one_of_lt hlt)
    exact ⟨fun _ => by omega, fun _ => by omega⟩
  · split <;> omega

/-- R13: the overflow threshold as a power of two, and the powers around it. -/
theorem threshold_bounds {m : Nat} :
    (m < (2 ^ 25 - 1) * 2 ^ 253 → m < 2 ^ 25 * 2 ^ 253) ∧
      ((2 ^ 25 - 1) * 2 ^ 253 ≤ m → 2 ^ 24 * 2 ^ 253 ≤ m) := by
  generalize (2 : Nat) ^ 253 = P
  omega

theorem roundMag_eq (m : Nat) :
    roundMag m = min ((roundScale m - 1) * 2 ^ 23 + roundQuot m (roundScale m)) (255 * 2 ^ 23) := rfl

/-- R13: below the overflow threshold the rounded magnitude is that of a finite value. -/
theorem roundMag_of_lt {m : Nat} (h : m < (2 ^ 25 - 1) * 2 ^ 253) :
    roundMag m = (roundScale m - 1) * 2 ^ 23 + roundQuot m (roundScale m) ∧ roundMag m < 255 * 2 ^ 23 := by
  have h278 := threshold_bounds.1 h
  have hq := (roundQuot_roundScale m).1
  have ht : roundScale m ≤ 254 := by
    rcases (roundScale_spec m).2 with h1 | hlo
    · omega
    · have : 2 ^ (roundScale m + 23) < 2 ^ (25 + 253) := by rw [pow_add 2 25 253]; omega
      have := (Nat.pow_lt_pow_iff_right (by norm_num)).1 this
      omega
  have hlt : (roundScale m - 1) * 2 ^ 23 + roundQuot m (roundScale m) < 255 * 2 ^ 23 := by
    rcases Nat.lt_or_eq_of_le ht with hlt | heq
    · omega
    · have := (roundQuot_254_lt_iff h278).2 h
      rw [heq]; omega
  rw [roundMag_eq]
  omega

/-- R13: from the threshold on it is infinite. -/
theorem roundMag_of_ge {m : Nat} (h : (2 ^ 25 - 1) * 2 ^ 253 ≤ m) : roundMag m = 255 * 2 ^ 23 := by
  have ht : 254 ≤ roundScale m := by
    have hlt : 2 ^ (24 + 253) < 2 ^ (roundScale m + 24) := by
      rw [pow_add 2 24 253]
      exact (threshold_bounds.2 h).trans_lt (roundScale_spec m).1
    have := (Nat.pow_lt_pow_iff_right (by norm_num)).1 hlt
    omega
  have hge : 255 * 2 ^ 23 ≤ (roundScale m - 1) * 2 ^ 23 + roundQuot m (roundScale m) := by
    rcases Nat.lt_or_eq_of_le ht with hlt | heq
    · have := (roundQuot_roundScale m).2
      omega
    · have hhi := (roundScale_spec m).1
      rw [← heq] at hhi ⊢
      rw [show 254 + 24 = 25 + 253 from rfl, pow_add 2 25 253] at hhi
      have := (roundQuot_254_lt_iff hhi).not.2 (by omega)
      omega
  rw [roundMag_eq]
  omega

/-! What the rounded magnitude decodes to. -/

/-- A significand that carried over decodes as the next scale's least one. -/
theorem decode_rounded (neg : Bool) {t q : Nat} (ht : 1 ≤ t) (hq : q ≤ 2 ^ 24) (hn : t = 1 ∨ 2 ^ 23 ≤ q)
    (hfin : (t - 1) * 2 ^ 23 + q < 255 * 2 ^ 23) :
    f32IsFinite (f32Pack neg ((t - 1) * 2 ^ 23 + q)) = true ∧
      f32Sign (f32Pack neg ((t - 1) * 2 ^ 23 + q)) = neg ∧
      f32Mag (f32Pack neg ((t - 1) * 2 ^ 23 + q)) = q * 2 ^ (t - 1) := by
  rcases Nat.lt_or_eq_of_le hq with hlt | rfl
  · exact decode_f32Pack neg ht (by omega) hlt hn
  · have hd := decode_f32Pack neg (t := t + 1) (q := 2 ^ 23) (by omega) (by omega) (by norm_num) (.inr le_rfl)
    have hsum : (t + 1 - 1) * 2 ^ 23 + 2 ^ 23 = (t - 1) * 2 ^ 23 + 2 ^ 24 := by omega
    rw [hsum] at hd
    refine ⟨hd.1, hd.2.1, hd.2.2.trans ?_⟩
    obtain ⟨t, rfl⟩ : ∃ t', t = t' + 1 := ⟨t - 1, by omega⟩
    rw [Nat.add_sub_cancel, Nat.add_sub_cancel, pow_succ]
    ring

/-- Every finite magnitude is a multiple of 2^t units of 2^-150, or below the values of scale `t`. -/
theorem finite_mag_cases {v : Word} {t : Nat} (ht : 1 ≤ t) :
    (∃ k, 2 * f32Mag v = k * 2 ^ t) ∨ (2 ≤ t ∧ 2 * f32Mag v < 2 ^ (t + 23)) := by
  have hf := f32Frac_lt v
  obtain ⟨t, rfl⟩ : ∃ t', t = t' + 1 := ⟨t - 1, by omega⟩
  obtain ⟨g, e, hg, hmag⟩ : ∃ g e, g < 2 ^ 24 ∧ f32Mag v = g * 2 ^ e := by
    unfold f32Mag
    split
    · exact ⟨f32Frac v, 0, by omega, by ring⟩
    · exact ⟨2 ^ 23 + f32Frac v, f32Exp v - 1, by omega, rfl⟩
  rcases Nat.lt_or_ge e t with hlt | hge
  · refine .inr ⟨by omega, ?_⟩
    calc 2 * f32Mag v = g * 2 ^ (e + 1) := by rw [hmag, pow_succ]; ring
      _ < 2 ^ 24 * 2 ^ (e + 1) := Nat.mul_lt_mul_of_pos_right hg (by positivity)
      _ = 2 ^ (24 + (e + 1)) := by rw [pow_add 2 24]
      _ ≤ 2 ^ (t + 1 + 23) := Nat.pow_le_pow_right (by norm_num) (by omega)
  · left
    obtain ⟨d, rfl⟩ := Nat.exists_eq_add_of_le hge
    exact ⟨g * 2 ^ d, by rw [hmag, pow_add, pow_succ]; ring⟩

/-- A magnitude of `m` units of 2^-150, rounded at its own scale, in the same units. -/
def roundedUnits (m : Nat) : Nat := roundQuot m (roundScale m) * 2 ^ roundScale m

/-- Rounding at the scale of `m` is nearest among all finite magnitudes, and even on a tie. -/
theorem roundQuot_nearest_finite (m : Nat) (v : Word) :
    |(m : Int) - roundedUnits m| ≤ |(m : Int) - (2 * f32Mag v : Nat)| ∧
      (|(m : Int) - roundedUnits m| = |(m : Int) - (2 * f32Mag v : Nat)| → 2 * f32Mag v ≠ roundedUnits m →
        roundQuot m (roundScale m) % 2 = 0) := by
  unfold roundedUnits
  rcases finite_mag_cases (v := v) (one_le_roundScale m) with ⟨k, hk⟩ | ⟨h2, hlt⟩
  · rw [hk]
    obtain ⟨hle, htie⟩ := roundQuot_nearest m (roundScale m) k
    exact ⟨hle, fun he hne => htie he fun hkq => hne (by rw [hkq])⟩
  · -- such a value is farther from `m` than the least value of the scale is
    have hlo : 2 ^ (roundScale m + 23) ≤ m := (roundScale_spec m).2.resolve_left (by omega)
    have hle := (roundQuot_nearest m (roundScale m) (2 ^ 23)).1
    rw [show 2 ^ 23 * 2 ^ roundScale m = 2 ^ (roundScale m + 23) by rw [pow_add]; ring] at hle
    have hfar : |(m : Int) - (2 ^ (roundScale m + 23) : Nat)| < |(m : Int) - (2 * f32Mag v : Nat)| := by
      generalize 2 ^ (roundScale m + 23) = P at *
      simp only [Int.abs_eq_natAbs]
      omega
    exact ⟨(hle.trans_lt hfar).le, fun he => absurd he (hle.trans_lt hfar).ne⟩

/-! `rnd32`. -/

theorem toNat_rnd32_mod_two (n : Int) : (rnd32 n).toNat % 2 = roundMag n.natAbs % 2 := by
  unfold rnd32 f32Pack
  rw [BitVec.toNat_ofNat]
  split <;> omega

/-- Below the threshold `rnd32` is finite, with the sign of the exact value and the rounded magnitude. -/
theorem rnd32_of_lt {n : Int} (h : n.natAbs < (2 ^ 25 - 1) * 2 ^ 253) :
    f32IsFinite (rnd32 n) = true ∧ f32Sign (rnd32 n) = decide (n < 0) ∧
      2 * f32Mag (rnd32 n) = roundedUnits n.natAbs := by
  obtain ⟨hmag, hlt⟩ := roundMag_of_lt h
  obtain ⟨hq, hn⟩ := roundQuot_roundScale n.natAbs
  have ht := one_le_roundScale n.natAbs
  rw [hmag] at hlt
  unfold rnd32
  rw [hmag]
  obtain ⟨hfin, hsign, hdec⟩ := decode_rounded (decide (n < 0)) ht hq hn hlt
  refine ⟨hfin, hsign, ?_⟩
  rw [roundedUnits, hdec, ← Nat.mul_assoc, Nat.mul_comm 2, Nat.mul_assoc, ← pow_succ',
    Nat.sub_add_cancel ht]

theorem rnd32_of_ge {n : Int} (h : (2 ^ 25 - 1) * 2 ^ 253 ≤ n.natAbs) :
    rnd32 n = f32Inf (decide (n < 0)) := by
  unfold rnd32
  rw [roundMag_of_ge h]
  cases decide (n < 0) <;> decide

/-- The rounded value has the sign of `n`, so its distance from `n` is that of the magnitudes. -/
theorem dist_rnd32 {n : Int} (h : n.natAbs < (2 ^ 25 - 1) * 2 ^ 253) :
    |n - 2 * f32Units (rnd32 n)| = |(n.natAbs : Int) - (2 * f32Mag (rnd32 n) : Nat)| := by
  unfold f32Units
  rw [(rnd32_of_lt h).2.1]
  generalize f32Mag (rnd32 n) = M
  simp only [Int.abs_eq_natAbs, decide_eq_true_eq]
  split <;> omega

/-- A value of either sign is no nearer than its magnitude. -/
theorem dist_mag_le (n : Int) (v : Word) :
    |(n.natAbs : Int) - (2 * f32Mag v : Nat)| ≤ |n - 2 * f32Units v| := by
  rw [← f32Units_natAbs]
  simp only [Int.abs_eq_natAbs]
  omega

/-- R13: no finite value is nearer than the rounded one. -/
theorem rnd32_nearest {n : Int} (h : n.natAbs < (2 ^ 25 - 1) * 2 ^ 253) (v : Word) :
    |n - 2 * f32Units (rnd32 n)| ≤ |n - 2 * f32Units v| := by
  have hle := (roundQuot_nearest_finite n.natAbs v).1
  rw [← (rnd32_of_lt h).2.2, ← dist_rnd32 h] at hle
  exact hle.trans (dist_mag_le n v)

/-- R13: the rounded encoding is even when another finite value is as near. -/
theorem rnd32_tie_even {n : Int} (h : n.natAbs < (2 ^ 25 - 1) * 2 ^ 253) {v : Word}
    (he : |n - 2 * f32Units (rnd32 n)| = |n - 2 * f32Units v|) (hne : f32Units v ≠ f32Units (rnd32 n)) :
    (rnd32 n).toNat % 2 = 0 := by
  obtain ⟨hle, htie⟩ := roundQuot_nearest_finite n.natAbs v
  rw [← (rnd32_of_lt h).2.2, ← dist_rnd32 h] at hle htie
  by_cases hsame : f32Mag v = f32Mag (rnd32 n)
  · -- the two values are opposite, so `n` is 0
    rw [← f32Units_natAbs, ← f32Units_natAbs] at hsame
    have hn : n = 0 := by
      simp only [Int.abs_eq_natAbs] at he
      omega
    rw [hn]
    decide
  · have hq := htie (le_antisymm hle (he ▸ dist_mag_le n v)) (by omega)
    rw [toNat_rnd32_mod_two, (roundMag_of_lt h).1]
    omega

/-- Settles O26. -/
theorem roundingIsToNearestEven : Obligations.RoundingIsToNearestEven := by
  refine fun n => ⟨fun h => ⟨(rnd32_of_lt h).1, (rnd32_of_lt h).2.1, fun v _ =>
    ⟨rnd32_nearest h v, fun he hne => rnd32_tie_even h he hne⟩⟩, fun h => ?_⟩
  rw [rnd32_of_ge h, f32Inf]
  simp only [decide_eq_true_eq]

end Sys2Proof.Machine

/-! PROOFS, family 00_scope. In the codec domain no quantizer clamp happens on the encode side (R22; O55). -/

namespace Sys2Proof.Machine

/-! Single values. -/

/-- R210, R19: an LL value truncates into [0, 255]. -/
theorem satTrunc8_codecLow {c : Nat} (hc : c ≤ 7) {v : Word} (h : CodecLow c v) :
    (satTrunc8 v).2 = false := by
  obtain ⟨m, hm, hd⟩ := (codecLow_iff hc).1 h
  have hscale : (4 : Int) ^ c * 2 ^ (149 - 2 * c) = 2 ^ 149 := by
    rw [show (4 : Int) = 2 ^ 2 by norm_num, ← pow_mul, ← pow_add]
    congr 1; omega
  have hlo : 0 ≤ f32Units v := by rw [hd.units]; positivity
  have hhi : f32Units v ≤ 255 * 2 ^ 149 := by
    calc f32Units v = (m : Int) * 2 ^ (149 - 2 * c) := hd.units
      _ ≤ (255 * 4 ^ c) * 2 ^ (149 - 2 * c) :=
        mul_le_mul_of_nonneg_right (by exact_mod_cast hm) (by positivity)
      _ = 255 * 2 ^ 149 := by rw [mul_assoc, hscale]
  have htrunc : 0 ≤ (f32Units v).tdiv (2 ^ 149) ∧ (f32Units v).tdiv (2 ^ 149) ≤ 255 := by
    rw [Int.tdiv_eq_ediv_of_nonneg hlo]
    omega
  unfold satTrunc8
  simp only [not_nan_of_finite hd.finite, not_inf_of_finite hd.finite, Bool.false_eq_true, if_false]
  rw [if_neg (by omega), if_neg (by omega)]

/-- R212: the exact integer quotient of `qdet` is the floor of the rational one. -/
theorem qdet_quotient (k : Nat) (v : Word) :
    Int.fdiv (2 * f32Units v + 255 * 2 ^ 149) (2 ^ (150 + k)) = ⌊(f32Val v + 255 / 2) / 2 ^ k⌋ := by
  have hq : (f32Val v + 255 / 2) / 2 ^ k =
      ((2 * f32Units v + 255 * 2 ^ 149 : Int) : Rat) / ((2 ^ (150 + k) : Nat) : Rat) := by
    unfold f32Val
    push_cast
    rw [pow_add]
    field_simp
    ring
  rw [hq, Rat.floor_intCast_div_natCast, Int.fdiv_eq_ediv_of_nonneg _ (by positivity)]
  push_cast
  rfl

/-- R19: a detail value plus 127.5 is in [0, 255]. -/
theorem codecDetail_range {k : Nat} {v : Word} (h : CodecDetail k v) :
    0 ≤ f32Val v + 255 / 2 ∧ f32Val v + 255 / 2 ≤ 255 := by
  obtain ⟨_, _, m, hm, hval⟩ := h
  have habs : |f32Val v| ≤ 255 / 2 := by
    rw [hval, abs_div, abs_of_pos (show (0 : Rat) < 4 ^ k by positivity), div_le_iff₀ (by positivity)]
    have hm' : (2 * m.natAbs : Rat) ≤ 255 * 4 ^ k := by exact_mod_cast hm
    rw [Nat.cast_natAbs, Int.cast_abs] at hm'
    linarith
  rw [abs_le] at habs
  constructor <;> linarith

/-- R212, R22: a detail value of level `k` falls into one of the 2^(8−k) bins. -/
theorem qdet_codecDetail {k : Nat} (hk : k ≤ 7) {v : Word} (h : CodecDetail k v) :
    (qdet k v).2 = false ∧ ((qdet k v).1 : Int) = ⌊(f32Val v + 255 / 2) / 2 ^ k⌋ := by
  obtain ⟨hlo, hhi⟩ := codecDetail_range h
  have h0 : 0 ≤ ⌊(f32Val v + 255 / 2) / 2 ^ k⌋ := Int.floor_nonneg.2 (by positivity)
  have hmax : ⌊(f32Val v + 255 / 2) / 2 ^ k⌋ < 2 ^ (8 - k) := by
    rw [Int.floor_lt, div_lt_iff₀ (by positivity)]
    push_cast
    rw [← pow_add, show 8 - k + k = 8 by omega]
    linarith
  have hcast : ((2 ^ (8 - k) - 1 : Nat) : Int) = 2 ^ (8 - k) - 1 := by
    rw [Nat.cast_sub Nat.one_le_two_pow]; push_cast; rfl
  unfold qdet
  simp only [not_nan_of_finite h.1, not_inf_of_finite h.1, Bool.false_eq_true, if_false, qdet_quotient, hcast]
  rw [if_neg (by omega), if_neg (by omega)]
  exact ⟨rfl, Int.toNat_of_nonneg h0⟩

/-! ENCODE. -/

theorem codecLow_byte (b : Byte) : CodecLow 0 (cvt32 b.toNat) := codecLow_cvt32 (by omega)

/-- R282: LOAD_IMAGE leaves integers of [0, 255], which are LL values of level 0 (R19). -/
theorem bodyLoadImage_lowRegion {s t : State} (h : bodyLoadImage s = .ok t) :
    LowRegion s.width.toNat s.height.toNat 0 t.plane := by
  obtain ⟨_, rfl⟩ := bodyLoadImage_eq_ok.1 h
  intro r hr k hk
  rw [dimAt_zero] at hr hk
  have hread := Memory.read_writeAll_range s.plane s.samples (fun i => cvt32 ((s.image.read i).getD 0).toNat)
    (planeIndex s.width.toNat (r, k))
  rw [if_pos (show _ < s.samples from planeIndex_lt (rc := (r, k)) hr hk)] at hread
  exact ⟨_, hread, codecLow_byte _⟩

/-- The value of a SCHED entry of level `k` in a plane transformed in the codec domain: an LL value of
level `l` for k = 0, a detail value of level `k` otherwise. -/
abbrev SchedDomain (w l : Nat) (plane : Memory Word) (e : SchedEntry) : Prop :=
  ∃ v, plane.read (planeIndex w e.pos) = some v ∧
    ((e.level = 0 ∧ CodecLow l v) ∨ (1 ≤ e.level ∧ CodecDetail e.level v))

/-- R19, R288: after `l` forward levels every entry of SCHED is in the domain of its level. -/
theorem fwdLevels_schedDomain {w h l : Nat} (hw : w % 2 ^ l = 0) (hh : h % 2 ^ l = 0) (hl : l ≤ 7)
    {plane plane' : Memory Word} (hp : LowRegion w h 0 plane) (hf : fwdLevels w h 0 l plane = .ok plane') :
    ∀ e ∈ sched w h l, SchedDomain w l plane' e := by
  obtain ⟨p, hp', hlow, hdet, _⟩ := invLevels_fwdLevels hw hh le_rfl hl hp
  obtain rfl : p = plane' := Except.ok.inj (hp'.symm.trans hf)
  intro e he
  simp only [sched, List.mem_append, List.mem_map, List.mem_flatMap, List.mem_range] at he
  rcases he with ⟨rc, hrc, rfl⟩ | ⟨k, hk, he⟩
  · obtain ⟨hr, hc⟩ := mem_positions'.1 hrc
    obtain ⟨v, hv, hlv⟩ := hlow rc.1 hr rc.2 hc
    exact ⟨v, hv, .inl ⟨rfl, hlv⟩⟩
  · obtain ⟨hlev, i, hi, j, hj, hpos⟩ := mem_schedLevel.1 he
    obtain ⟨b, hb, hpos⟩ : ∃ b, b ≠ .ll ∧
        e.pos = subbandPos (dimAt w (k + 1)) (dimAt h (k + 1)) b i j := by
      rcases hpos with hpos | hpos | hpos
      · exact ⟨.lh, by decide, hpos⟩
      · exact ⟨.hl, by decide, hpos⟩
      · exact ⟨.hh, by decide, hpos⟩
    obtain ⟨v, hv, hdv⟩ := hdet (k + 1) (by omega) (by omega) b hb i hi j hj
    exact ⟨v, by rw [hpos]; exact hv, .inr ⟨by omega, by rw [hlev]; exact hdv⟩⟩

/-- R22, R290: the rule of its level clamps no entry in its domain. -/
theorem quantize_schedDomain {w l : Nat} (hl : l ≤ 7) {plane : Memory Word} {e : SchedEntry}
    (he : e.level ≤ 7) (h : SchedDomain w l plane e) :
    (quantize e.level (planeAt w plane e.pos.1 e.pos.2)).2 = false := by
  obtain ⟨v, hv, hdom⟩ := h
  rw [planeAt_of_read hv]
  unfold quantize
  rcases hdom with ⟨h0, hlow⟩ | ⟨h1, hdet⟩
  · rw [if_pos h0]; exact satTrunc8_codecLow hl hlow
  · rw [if_neg (by omega)]; exact (qdet_codecDetail he hdet).1

theorem bodyEncode_qclamp {s t : State} (hc : s.CfgOk) (h : bodyEncode s = .ok t) : t.qclamp = s.qclamp := by
  obtain ⟨u, v, hload, hfwd, hpack⟩ := bodyEncode_eq_ok.1 h
  have hlow := bodyLoadImage_lowRegion hload
  obtain ⟨_, rfl⟩ := bodyLoadImage_eq_ok.1 hload
  obtain ⟨p, hlevels, rfl⟩ := bodyFwdAll_eq_ok.1 hfwd
  obtain ⟨pk, cl, hsched, rfl⟩ := bodyQpack_eq_ok.1 hpack
  obtain ⟨_, _, rfl⟩ := packSched_eq_ok.1 hsched
  obtain ⟨⟨_, hl⟩, _, _, hw, hh⟩ := hc
  have hdom := fwdLevels_schedDomain hw hh hl hlow hlevels
  have hnone : (sched s.width.toNat s.height.toNat s.levels.toNat).any (fun e =>
      (quantize e.level (planeAt s.width.toNat p e.pos.1 e.pos.2)).2) = false :=
    List.any_eq_false.2 fun e he => by
      simp [quantize_schedDomain hl ((level_le_of_mem_sched he).trans hl) (hdom e he)]
  show (s.qclamp || (false || _)) = s.qclamp
  rw [hnone, Bool.or_false, Bool.or_false]

/-- Settles O55. -/
theorem encodeNeverClamps : Obligations.EncodeNeverClamps := by
  refine ⟨fun c v hc h => satTrunc8_codecLow hc h, fun k v _ hk h => ?_, fun s t h => ?_⟩
  · exact ⟨(codecDetail_range h).1, (codecDetail_range h).2, qdet_codecDetail hk h⟩
  · rcases exec_eq_next h with ⟨e, _, rfl⟩ | ⟨hcheck, u, hu, rfl⟩
    · rfl
    · exact bodyEncode_qclamp (t := u) (checkEncode_eq_none.1 hcheck).1 hu

end Sys2Proof.Machine

/-! PROOFS, family 10_state. The packer invariant (R43, R45; O56) and the status invariant (R36, R53; O58)
are kept by every step. -/

namespace Sys2Proof.Machine

/-! Host writes. -/

/-- R96, R380: a write transaction leaves the state as it is, or, with BUSY = 0, is a write to one register
or to one element. -/
theorem busWrite_cases (s : State) (addr data : Word) :
    (s.busWrite addr data).2 = s ∨
      (s.busy = false ∧ ((∃ r, (s.busWrite addr data).2 = s.regWrite r data) ∨
        ∃ m i, (s.busWrite addr data).2 = s.elemWrite m i data)) := by
  unfold State.busWrite
  cases busTarget s.params addr with
  | busError => exact .inl rfl
  | reserved => exact .inl rfl
  | reg r =>
    cases hb : s.busy with
    | true => exact .inl rfl
    | false => exact .inr ⟨rfl, .inl ⟨r, rfl⟩⟩
  | elem m i =>
    cases hb : s.busy with
    | true => exact .inl rfl
    | false => exact .inr ⟨rfl, .inr ⟨m, i, rfl⟩⟩

/-! The packer invariant. -/

/-- R245: a pull leaves at most 7 bits in RBUF. -/
theorem upkPull_inv {stream : Memory Byte} {w r : Nat} {u u' : Unpacker} (hu : u.Inv) (hw : 1 ≤ w ∧ w ≤ 8)
    (h : upkPull stream w u = .ok (r, u')) : u'.Inv := by
  have hu7 : u.avail.toNat ≤ 7 := hu
  rw [upkPull_eq hu hw] at h
  split at h
  · cases h
    show (BitVec.ofNat 4 (u.avail.toNat - w)).toNat ≤ 7
    rw [BitVec.toNat_ofNat]; omega
  · split at h
    · cases h
    · cases h
      show (BitVec.ofNat 4 (8 - (w - u.avail.toNat))).toNat ≤ 7
      rw [BitVec.toNat_ofNat]; omega

/-- Two states whose packer and unpacker registers are the same. -/
structure SamePackers (s t : State) : Prop where
  wbuf : t.wbuf = s.wbuf
  wfree : t.wfree = s.wfree
  ravail : t.ravail = s.ravail

theorem State.PackerInv.of_same {s t : State} (h : s.PackerInv) (hst : SamePackers s t) : t.PackerInv := by
  unfold State.PackerInv
  rw [hst.wbuf, hst.wfree, hst.ravail]
  exact h

/-- R290: QPACK ends with a flush, so with an empty buffer. -/
theorem bodyQpack_packerInv {s t : State} (hp : s.PackerInv) (h : bodyQpack s = .ok t) : t.PackerInv := by
  obtain ⟨_, _, _, rfl⟩ := bodyQpack_eq_ok.1 h
  exact ⟨fresh_inv 0 [], hp.2⟩

theorem bodyUnpackDq_packerInv {s t : State} (hp : s.PackerInv) (h : bodyUnpackDq s = .ok t) :
    t.PackerInv := by
  obtain ⟨u, _, hu, rfl⟩ := bodyUnpackDq_eq_ok.1 h
  exact ⟨hp.1, (unpackSched_ok (entries_level s) (by decide : Unpacker.start.Inv) hu).1⟩

theorem bodyLoadImage_samePackers {s t : State} (h : bodyLoadImage s = .ok t) : SamePackers s t := by
  obtain ⟨_, rfl⟩ := bodyLoadImage_eq_ok.1 h; exact ⟨rfl, rfl, rfl⟩

theorem bodyStoreImage_samePackers {s t : State} (h : bodyStoreImage s = .ok t) : SamePackers s t := by
  obtain ⟨_, rfl⟩ := bodyStoreImage_eq_ok.1 h; exact ⟨rfl, rfl, rfl⟩

theorem bodyFwdAll_samePackers {s t : State} (h : bodyFwdAll s = .ok t) : SamePackers s t := by
  obtain ⟨_, _, rfl⟩ := bodyFwdAll_eq_ok.1 h; exact ⟨rfl, rfl, rfl⟩

theorem bodyInvAll_samePackers {s t : State} (h : bodyInvAll s = .ok t) : SamePackers s t := by
  obtain ⟨_, _, rfl⟩ := bodyInvAll_eq_ok.1 h; exact ⟨rfl, rfl, rfl⟩

/-- R43, R45: no command that passes its checks breaks the packer invariant. -/
theorem bodyOf_packerInv {i : Instr} {s t : State} (hp : s.PackerInv) (hc : checksOf i s = none)
    (h : bodyOf i s = .ok t) : t.PackerInv := by
  cases i with
  | nop => cases h; exact hp
  | loadImage => exact hp.of_same (bodyLoadImage_samePackers h)
  | storeImage => exact hp.of_same (bodyStoreImage_samePackers h)
  | fwdLevel => obtain ⟨_, _, rfl⟩ := bodyFwdLevel_eq_ok.1 h; exact hp
  | invLevel => obtain ⟨_, _, rfl⟩ := bodyInvLevel_eq_ok.1 h; exact hp
  | fwdAll => exact hp.of_same (bodyFwdAll_samePackers h)
  | invAll => exact hp.of_same (bodyInvAll_samePackers h)
  | qpack => exact bodyQpack_packerInv hp h
  | unpackDq => exact bodyUnpackDq_packerInv hp h
  | encode =>
    obtain ⟨u, v, hload, hfwd, hpack⟩ := bodyEncode_eq_ok.1 h
    exact bodyQpack_packerInv
      ((hp.of_same (bodyLoadImage_samePackers hload)).of_same (bodyFwdAll_samePackers hfwd)) hpack
  | decode =>
    obtain ⟨u, v, hunpack, hinv, hstore⟩ := bodyDecode_eq_ok.1 h
    exact ((bodyUnpackDq_packerInv hp hunpack).of_same (bodyInvAll_samePackers hinv)).of_same
      (bodyStoreImage_samePackers hstore)
  | bpInit => cases h; exact ⟨fresh_inv 0 [], Nat.zero_le 7⟩
  | push v w =>
    obtain ⟨hw, _⟩ := checkPush_eq_none.1 hc
    cases h
    exact ⟨(pkPush_bits (p := s.packer) hp.1 hw (Nat.mod_lt v (by positivity : 2 ^ w > 0))).1, hp.2⟩
  | flush => cases h; exact ⟨fresh_inv 0 [], hp.2⟩
  | pull w =>
    obtain ⟨hw, _⟩ := checkPull_eq_none.1 hc
    obtain ⟨r, u, hu, rfl⟩ := bodyPull_eq_ok.1 h
    exact ⟨hp.1, upkPull_inv (u := s.unpacker) hp.2 hw hu⟩
  | quant k => cases h; exact hp
  | dequant k => cases h; exact hp

theorem exec_packerInv {i : Instr} {s t : State} (hp : s.PackerInv) (h : exec i s = .next t) :
    t.PackerInv := by
  rcases exec_eq_next h with ⟨e, _, rfl⟩ | ⟨hc, u, hu, rfl⟩
  · exact hp
  · exact bodyOf_packerInv (t := u) hp hc hu

/-- R32, R43, R45: WSTATE and RSTATE are read-only, and a soft reset empties both buffers. -/
theorem regWrite_packerInv {s : State} (hp : s.PackerInv) (r : Reg) (data : Word) :
    (s.regWrite r data).PackerInv := by
  cases r
  case ctrl =>
    show (s.writeCtrl data).PackerInv
    unfold State.writeCtrl
    split
    · exact packerInv_resetWith s.params
    · exact hp
  all_goals exact hp

theorem elemWrite_samePackers (s : State) (m : MemId) (i : Nat) (data : Word) :
    SamePackers s (s.elemWrite m i data) := by
  cases m <;> exact ⟨rfl, rfl, rfl⟩

theorem busWrite_packerInv {s : State} (hp : s.PackerInv) (addr data : Word) :
    (s.busWrite addr data).2.PackerInv := by
  rcases busWrite_cases s addr data with h | ⟨_, ⟨r, h⟩ | ⟨m, i, h⟩⟩ <;> rw [h]
  · exact hp
  · exact regWrite_packerInv hp r data
  · exact hp.of_same (elemWrite_samePackers s m i data)

/-- Settles O56: the packer invariant is kept by each kind of step that `step_eq_next` lists. -/
theorem stepKeepsThePackerInvariant : Obligations.StepKeepsThePackerInvariant := by
  intro s t hp h
  obtain ⟨es, h⟩ := step_eq_next h
  have hp' : State.PackerInv { s with env := es } := hp
  rcases h with ⟨i, _, _, hx⟩ | ⟨e, _, _, rfl⟩ | ⟨_, rfl⟩ | ⟨r, rfl⟩ | ⟨a, d, rfl⟩ | rfl
  · exact exec_packerInv hp' hx
  · exact hp'
  · exact hp'
  · exact hp'
  · exact busWrite_packerInv hp' a d
  · exact packerInv_resetWith s.params

/-! The status invariant. -/

/-- R331: a command error has a nonzero code of at most 7. -/
theorem errorCode_range (e : CmdError) : e.code.toNat ≤ 7 ∧ e.code ≠ 0 := by
  cases e <;> decide

/-- R332: the error outcome keeps the status invariant. -/
theorem State.StatusInv.raiseError {s : State} (h : s.StatusInv) (e : CmdError) :
    (s.raiseError e).StatusInv := by
  obtain ⟨_, _, _, hpend⟩ := h
  exact ⟨(errorCode_range e).1, ⟨fun _ => (errorCode_range e).2, fun _ => rfl⟩, nofun, hpend⟩

/-- R54: so does a successful command, which leaves ERRV, ERRCODE, CMD and PEND alone. -/
theorem exec_statusInv {i : Instr} {s t : State} (hs : s.StatusInv) (h : exec i s = .next t) :
    t.StatusInv := by
  rcases exec_eq_next h with ⟨e, _, rfl⟩ | ⟨_, u, hu, rfl⟩
  · exact hs.raiseError e
  · obtain ⟨hcode, herr, _, hpend⟩ := hs
    have hframe := frame_body hu
    unfold State.StatusInv
    rw [State.complete_errcode, State.complete_errv, State.complete_pend, State.complete_cmd,
      hframe.errcode, hframe.errv, hframe.pend, hframe.cmd]
    exact ⟨hcode, herr, nofun, hpend⟩

/-- R53: the accept step clears DONE and the error part of STATUS, and puts the word in CMD and PEND. -/
theorem statusInv_accept (s : State) (data : Word) : (s.accept data).StatusInv := by
  simp [State.StatusInv]

/-- R36: an acknowledgement clears ERRV and ERRCODE together. -/
theorem State.StatusInv.acknowledge {s : State} (h : s.StatusInv) (data : Word) :
    (s.acknowledge data).StatusInv := by
  obtain ⟨hcode, herr, hbusy, hpend⟩ := h
  refine ⟨?_, ?_, fun hb => ?_, hpend⟩
  · rw [State.acknowledge_errcode]
    split
    · exact Nat.zero_le 7
    · exact hcode
  · rw [State.acknowledge_errv, State.acknowledge_errcode]
    cases data.getLsbD 2 <;> simp [herr]
  · simp [hbusy hb]

/-- R32, R53, R372: with BUSY = 0 no register write breaks the status invariant. -/
theorem regWrite_statusInv {s : State} (hs : s.StatusInv) (r : Reg) (data : Word) :
    (s.regWrite r data).StatusInv := by
  cases r
  case ctrl =>
    show (s.writeCtrl data).StatusInv
    unfold State.writeCtrl
    split
    · exact statusInv_resetWith s.params
    · exact hs
  case cmd => exact statusInv_accept s data
  case status => exact hs.acknowledge data
  all_goals exact hs

theorem elemWrite_statusInv {s : State} (hs : s.StatusInv) (m : MemId) (i : Nat) (data : Word) :
    (s.elemWrite m i data).StatusInv := by
  cases m <;> exact hs

theorem busWrite_statusInv {s : State} (hs : s.StatusInv) (addr data : Word) :
    (s.busWrite addr data).2.StatusInv := by
  rcases busWrite_cases s addr data with h | ⟨_, ⟨r, h⟩ | ⟨m, i, h⟩⟩ <;> rw [h]
  · exact hs
  · exact regWrite_statusInv hs r data
  · exact elemWrite_statusInv hs m i data

/-- Settles O58: the status invariant is kept by each kind of step that `step_eq_next` lists. -/
theorem stepKeepsTheStatusInvariant : Obligations.StepKeepsTheStatusInvariant := by
  intro s t hs h
  obtain ⟨es, h⟩ := step_eq_next h
  have hs' : State.StatusInv { s with env := es } := hs
  rcases h with ⟨i, _, _, hx⟩ | ⟨e, _, _, rfl⟩ | ⟨_, rfl⟩ | ⟨r, rfl⟩ | ⟨a, d, rfl⟩ | rfl
  · exact exec_statusInv hs' hx
  · exact hs'.raiseError e
  · exact hs'
  · exact hs'
  · exact busWrite_statusInv hs' a d
  · exact statusInv_resetWith s.params

end Sys2Proof.Machine

/-! PROOFS, family 10_state. The core's turn (R54, R135): it runs the command in PEND (O5), a fault names an
element that holds ⊥ (R65; O19), and otherwise the command completes (O7). -/

namespace Sys2Proof.Machine

/-! The core's turn. -/

/-- With no event left the core moves (log 1). -/
theorem step_of_env_nil {s : State} (h : s.env = []) : step s = coreStep s := by simp [step, h]

/-- A turn of the core is taken out of the schedule (log 1). -/
theorem step_of_env_core {s : State} {es : List Event} (h : s.env = .core :: es) :
    step s = coreStep { s with env := es } := by simp [step, h]

theorem coreStep_of_ok {s : State} {i : Instr} (hb : s.busy = true) (hd : decode s.pend = .ok i) :
    coreStep s = exec i s := by simp [coreStep, hb, hd]

theorem coreStep_of_error {s : State} {e : CmdError} (hb : s.busy = true) (hd : decode s.pend = .error e) :
    coreStep s = .next (s.raiseError e) := by simp [coreStep, hb, hd]

/-- Settles O5. -/
theorem stepRunsThePendingCommand : Obligations.StepRunsThePendingCommand := by
  intro s hb
  refine ⟨fun i hd => ⟨fun he => ?_, fun es he => ?_⟩, fun e hd => ⟨fun he => ?_, fun es he => ?_⟩⟩
  · rw [step_of_env_nil he, coreStep_of_ok hb hd]
  · rw [step_of_env_core he, coreStep_of_ok (s := { s with env := es }) hb hd]
  · rw [step_of_env_nil he, coreStep_of_error hb hd]; rfl
  · rw [step_of_env_core he, coreStep_of_error (s := { s with env := es }) hb hd]; rfl

/-! Faults. -/

/-- R65: the fault is UNINIT_READ of an element that holds ⊥ in `s`. -/
def NamesUnwritten (s : State) (f : Fault) : Prop :=
  (∃ n, f = .uninitRead .image n ∧ s.image.read n = none) ∨
    (∃ n, f = .uninitRead .plane n ∧ s.plane.read n = none) ∨
    ∃ n, f = .uninitRead .stream n ∧ s.stream.read n = none

theorem NamesUnwritten.of_image {s : State} {f : Fault}
    (h : ∃ n, s.image.read n = none ∧ f = .uninitRead .image n) : NamesUnwritten s f :=
  .inl (h.imp fun _ => And.symm)

theorem NamesUnwritten.of_plane {s : State} {f : Fault}
    (h : ∃ n, s.plane.read n = none ∧ f = .uninitRead .plane n) : NamesUnwritten s f :=
  .inr (.inl (h.imp fun _ => And.symm))

theorem NamesUnwritten.of_stream {s : State} {f : Fault}
    (h : ∃ n, s.stream.read n = none ∧ f = .uninitRead .stream n) : NamesUnwritten s f :=
  .inr (.inr (h.imp fun _ => And.symm))

/-- From `s` to `t` the plane has lost no value, and IMAGE and STREAM are the same: what the first stages of
ENCODE and DECODE do. -/
structure KeepsValues (s t : State) : Prop where
  image : t.image = s.image
  plane : ∀ n, t.plane.read n = none → s.plane.read n = none
  stream : t.stream = s.stream

theorem KeepsValues.trans {s t u : State} (h : KeepsValues s t) (h' : KeepsValues t u) : KeepsValues s u :=
  ⟨h'.image.trans h.image, fun n hn => h.plane n (h'.plane n hn), h'.stream.trans h.stream⟩

/-- An element that a later stage finds without a value had none at the start of the command. -/
theorem KeepsValues.namesUnwritten {s t : State} (h : KeepsValues s t) {f : Fault}
    (hf : NamesUnwritten t f) : NamesUnwritten s f := by
  rcases hf with ⟨n, hf, hn⟩ | ⟨n, hf, hn⟩ | ⟨n, hf, hn⟩
  · exact .of_image ⟨n, h.image ▸ hn, hf⟩
  · exact .of_plane ⟨n, h.plane n hn, hf⟩
  · exact .of_stream ⟨n, h.stream ▸ hn, hf⟩

/-- Writes take no value away. -/
theorem Memory.read_eq_none_of_writeAll {α : Type} {m : Memory α} {ws : List (Nat × α)} {n : Nat}
    (h : (m.writeAll ws).read n = none) : m.read n = none := by
  induction ws generalizing m with
  | nil => exact h
  | cons w ws ih =>
    have hw := ih h
    rw [Memory.read_write] at hw
    split at hw
    · cases hw
    · exact hw

theorem fwdLevels_keeps_values {w h c count n : Nat} {plane plane' : Memory Word}
    (hk : fwdLevels w h c count plane = .ok plane') (hn : plane'.read n = none) : plane.read n = none := by
  induction count generalizing c plane with
  | zero => cases hk; exact hn
  | succ count ih =>
    simp only [fwdLevels] at hk
    cases hr : fwdLevel w h c plane with
    | error f => rw [hr] at hk; cases hk
    | ok p => rw [hr] at hk; exact none_of_present (fwdLevel_present hr) (ih hk)

theorem invLevels_keeps_values {w h c n : Nat} {plane plane' : Memory Word}
    (hk : invLevels w h c plane = .ok plane') (hn : plane'.read n = none) : plane.read n = none := by
  induction c generalizing plane with
  | zero => cases hk; exact hn
  | succ c ih =>
    simp only [invLevels] at hk
    cases hr : invLevel w h (c + 1) plane with
    | error f => rw [hr] at hk; cases hk
    | ok p => rw [hr] at hk; exact none_of_present (invLevel_present (by omega) hr) (ih hk)

theorem bodyLoadImage_keepsValues {s t : State} (h : bodyLoadImage s = .ok t) : KeepsValues s t := by
  obtain ⟨_, rfl⟩ := bodyLoadImage_eq_ok.1 h
  exact ⟨rfl, fun _ => Memory.read_eq_none_of_writeAll, rfl⟩

theorem bodyFwdAll_keepsValues {s t : State} (h : bodyFwdAll s = .ok t) : KeepsValues s t := by
  obtain ⟨_, hp, rfl⟩ := bodyFwdAll_eq_ok.1 h
  exact ⟨rfl, fun _ => fwdLevels_keeps_values hp, rfl⟩

theorem bodyInvAll_keepsValues {s t : State} (h : bodyInvAll s = .ok t) : KeepsValues s t := by
  obtain ⟨_, hp, rfl⟩ := bodyInvAll_eq_ok.1 h
  exact ⟨rfl, fun _ => invLevels_keeps_values hp, rfl⟩

theorem bodyUnpackDq_keepsValues {s t : State} (h : bodyUnpackDq s = .ok t) : KeepsValues s t := by
  obtain ⟨_, _, hu, rfl⟩ := bodyUnpackDq_eq_ok.1 h
  obtain ⟨_, _, _, rfl⟩ := unpackSched_ok (entries_level s) (by decide : Unpacker.start.Inv) hu
  exact ⟨rfl, fun _ => Memory.read_eq_none_of_writeAll, rfl⟩

/-! What each body faults on. -/

theorem bodyLoadImage_fault {s : State} {f : Fault} (h : bodyLoadImage s = .error f) :
    NamesUnwritten s f := by
  unfold bodyLoadImage at h
  cases hr : requireAll .image s.image (List.range s.samples) with
  | ok _ => rw [hr] at h; cases h
  | error f' =>
    rw [hr] at h; cases h
    obtain ⟨n, _, hn⟩ := requireAll_eq_error hr
    exact .of_image ⟨n, hn⟩

theorem bodyStoreImage_fault {s : State} {f : Fault} (h : bodyStoreImage s = .error f) :
    NamesUnwritten s f := by
  unfold bodyStoreImage at h
  cases hr : requireAll .plane s.plane (List.range s.samples) with
  | ok _ => rw [hr] at h; cases h
  | error f' =>
    rw [hr] at h; cases h
    obtain ⟨n, _, hn⟩ := requireAll_eq_error hr
    exact .of_plane ⟨n, hn⟩

theorem bodyFwdLevel_fault {s : State} {f : Fault} (h : bodyFwdLevel s = .error f) : NamesUnwritten s f := by
  unfold bodyFwdLevel at h
  split at h
  · rename_i hr; cases h; exact .of_plane (fwdLevel_eq_error hr)
  · cases h

theorem bodyInvLevel_fault {s : State} {f : Fault} (h : bodyInvLevel s = .error f) : NamesUnwritten s f := by
  unfold bodyInvLevel at h
  split at h
  · rename_i hr; cases h; exact .of_plane (invLevel_eq_error hr)
  · cases h

theorem bodyFwdAll_fault {s : State} {f : Fault} (h : bodyFwdAll s = .error f) : NamesUnwritten s f := by
  unfold bodyFwdAll at h
  split at h
  · rename_i hr; cases h; exact .of_plane (fwdLevels_eq_error hr)
  · cases h

theorem bodyInvAll_fault {s : State} {f : Fault} (h : bodyInvAll s = .error f) : NamesUnwritten s f := by
  unfold bodyInvAll at h
  split at h
  · rename_i hr; cases h; exact .of_plane (invLevels_eq_error hr)
  · cases h

theorem bodyQpack_fault {s : State} {f : Fault} (h : bodyQpack s = .error f) : NamesUnwritten s f := by
  unfold bodyQpack at h
  split at h
  · rename_i hr
    cases h
    obtain ⟨e, _, he⟩ := packSched_eq_error hr
    exact .of_plane ⟨_, he⟩
  · cases h

theorem bodyUnpackDq_fault {s : State} {f : Fault} (h : bodyUnpackDq s = .error f) : NamesUnwritten s f := by
  unfold bodyUnpackDq at h
  split at h
  · rename_i hr
    cases h
    exact .of_stream (unpackSched_eq_error (entries_level s) (by decide : Unpacker.start.Inv) hr)
  · cases h

/-- R245, R65: a pull faults on the byte it fetches, from any state of RBUF. -/
theorem upkLoop_eq_error {stream : Memory Byte} {fuel need r : Nat} {u : Unpacker} {f : Fault}
    (h : upkLoop stream fuel need r u = .error f) :
    ∃ n, stream.read n = none ∧ f = .uninitRead .stream n := by
  induction fuel generalizing need r u with
  | zero => simp [upkLoop] at h
  | succ fuel ih =>
    unfold upkLoop upkFetch at h
    split at h
    · cases h
    · by_cases h0 : u.avail = 0
      · rw [if_pos h0] at h
        cases hr : fetchElem .stream stream u.ptr.toNat with
        | error f' => rw [hr] at h; cases h; exact ⟨_, fetchElem_eq_error.1 hr⟩
        | ok b => rw [hr] at h; exact ih h
      · rw [if_neg h0] at h; exact ih h

theorem bodyPull_fault {w : Nat} {s : State} {f : Fault} (h : bodyPull w s = .error f) :
    NamesUnwritten s f := by
  unfold bodyPull at h
  split at h
  · rename_i hr; cases h; exact .of_stream (upkLoop_eq_error hr)
  · cases h

/-- R65: a body that faults names an element that holds ⊥ at the start of the command, in a later stage of
a composite command too. -/
theorem bodyOf_fault {i : Instr} {s : State} {f : Fault} (h : bodyOf i s = .error f) :
    NamesUnwritten s f := by
  cases i with
  | nop => cases h
  | loadImage => exact bodyLoadImage_fault h
  | storeImage => exact bodyStoreImage_fault h
  | fwdLevel => exact bodyFwdLevel_fault h
  | invLevel => exact bodyInvLevel_fault h
  | fwdAll => exact bodyFwdAll_fault h
  | invAll => exact bodyInvAll_fault h
  | qpack => exact bodyQpack_fault h
  | unpackDq => exact bodyUnpackDq_fault h
  | encode =>
    rcases andThen_eq_error.1 h with h | ⟨v, hv, hpack⟩
    · rcases andThen_eq_error.1 h with hload | ⟨u, hload, hfwd⟩
      · exact bodyLoadImage_fault hload
      · exact (bodyLoadImage_keepsValues hload).namesUnwritten (bodyFwdAll_fault hfwd)
    · obtain ⟨u, hload, hfwd⟩ := andThen_eq_ok.1 hv
      exact ((bodyLoadImage_keepsValues hload).trans (bodyFwdAll_keepsValues hfwd)).namesUnwritten
        (bodyQpack_fault hpack)
  | decode =>
    rcases andThen_eq_error.1 h with h | ⟨v, hv, hstore⟩
    · rcases andThen_eq_error.1 h with hunpack | ⟨u, hunpack, hinv⟩
      · exact bodyUnpackDq_fault hunpack
      · exact (bodyUnpackDq_keepsValues hunpack).namesUnwritten (bodyInvAll_fault hinv)
    · obtain ⟨u, hunpack, hinv⟩ := andThen_eq_ok.1 hv
      exact ((bodyUnpackDq_keepsValues hunpack).trans (bodyInvAll_keepsValues hinv)).namesUnwritten
        (bodyStoreImage_fault hstore)
  | bpInit => cases h
  | push v w => cases h
  | flush => cases h
  | pull w => exact bodyPull_fault h
  | quant k => cases h
  | dequant k => cases h

theorem exec_fault {i : Instr} {s : State} {f : Fault} (h : exec i s = .fault f) : NamesUnwritten s f :=
  bodyOf_fault (exec_eq_fault h).2

/-- Settles O19. -/
theorem uninitReadNamesAnUnwrittenElement : Obligations.UninitReadNamesAnUnwrittenElement :=
  fun _ _ _ => exec_fault

/-! Completion. -/

/-- R54: a command that answers a next state has completed, with an error outcome or without. -/
theorem exec_completes {i : Instr} {s t : State} (h : exec i s = .next t) : t.busy = false ∧ t.done = true := by
  rcases exec_eq_next h with ⟨e, _, rfl⟩ | ⟨_, u, _, rfl⟩ <;> exact ⟨rfl, rfl⟩

/-- R54, R65: while BUSY = 1 the core's turn completes the command or stops on an element that holds ⊥. -/
theorem coreStep_of_busy {s : State} (hb : s.busy = true) :
    (∃ t, coreStep s = .next t ∧ t.busy = false ∧ t.done = true) ∨
      ∃ f, coreStep s = .fault f ∧ NamesUnwritten s f := by
  cases hd : decode s.pend with
  | error e => exact .inl ⟨s.raiseError e, coreStep_of_error hb hd, rfl, rfl⟩
  | ok i =>
    rw [coreStep_of_ok hb hd]
    cases hx : exec i s with
    | next t => exact .inl ⟨t, rfl, exec_completes hx⟩
    | fault f => exact .inr ⟨f, rfl, exec_fault hx⟩
    | refused r => exact absurd ((exec_eq i s).symm.trans hx) (runCommand_ne_refused _ _ s r)

/-- Settles O7. -/
theorem busyCommandCompletes : Obligations.BusyCommandCompletes := by
  intro s hb henv
  have hstep : (∃ t, step s = .next t ∧ t.busy = false ∧ t.done = true) ∨
      ∃ f, step s = .fault f ∧ NamesUnwritten s f := by
    rcases henv with he | ⟨es, he⟩
    · rw [step_of_env_nil he]; exact coreStep_of_busy hb
    · rw [step_of_env_core he]; exact coreStep_of_busy (s := { s with env := es }) hb
  rcases hstep with h | ⟨f, hf, ⟨n, rfl, hn⟩ | ⟨n, rfl, hn⟩ | ⟨n, rfl, hn⟩⟩
  · exact .inl h
  · exact .inr (.inl ⟨n, hf, hn⟩)
  · exact .inr (.inr (.inl ⟨n, hf, hn⟩))
  · exact .inr (.inr (.inr ⟨n, hf, hn⟩))

end Sys2Proof.Machine

/-! PROOFS, family 10_state. The irq output (R55; O15) and the flags (R52; O17). -/

namespace Sys2Proof.Machine

/-! The irq output. -/

/-- R55 after a completion, where DONE = 1. -/
theorem irq_of_done {s t : State} (hd : t.done = true) (he : t.ieDone = s.ieDone) (hr : t.ieErr = s.ieErr) :
    t.irq = (s.ieDone || (s.ieErr && t.errv)) := by
  rw [State.irq, hd, he, hr, Bool.and_true]

/-- Settles O15. -/
theorem irqLevel : Obligations.IrqLevel := by
  refine ⟨fun s => by simp [State.irq], fun i s t h => ?_⟩
  have hdone := (exec_completes h).2
  rcases exec_eq_next h with ⟨e, _, rfl⟩ | ⟨_, u, hu, rfl⟩
  · exact irq_of_done hdone rfl rfl
  · exact irq_of_done hdone (frame_body hu).ieDone (frame_body hu).ieErr

/-! Who writes the sticky flags. -/

/-- A flag changes only to 1, and only when `allowed`. -/
abbrev SetsOnly (allowed : Prop) (before after : Bool) : Prop := after ≠ before → after = true ∧ allowed

theorem SetsOnly.same {allowed : Prop} {b : Bool} : SetsOnly allowed b b := fun h => absurd rfl h

/-- A sticky flag, written by a command that may write it. -/
theorem SetsOnly.stick {allowed : Prop} (ha : allowed) {b c : Bool} : SetsOnly allowed b (b || c) := by
  intro h
  cases b
  · exact ⟨eq_true_of_ne_false h, ha⟩
  · exact absurd rfl h

/-- R52: the commands that may write each sticky flag. -/
structure StickyFlags (i : Instr) (s t : State) : Prop where
  qclamp : SetsOnly ((∃ k, i = .quant k) ∨ i = .qpack ∨ i = .encode) s.qclamp t.qclamp
  oclamp : SetsOnly (i = .storeImage ∨ i = .decode) s.oclamp t.oclamp
  vtrunc : SetsOnly (∃ v w, i = .push v w) s.vtrunc t.vtrunc

theorem bodyOf_stickyFlags {i : Instr} {s t : State} (h : bodyOf i s = .ok t) : StickyFlags i s t := by
  cases i with
  | nop => cases h; exact ⟨.same, .same, .same⟩
  | loadImage => obtain ⟨_, rfl⟩ := bodyLoadImage_eq_ok.1 h; exact ⟨.same, .same, .same⟩
  | storeImage => obtain ⟨_, rfl⟩ := bodyStoreImage_eq_ok.1 h; exact ⟨.same, .stick (.inl rfl), .same⟩
  | fwdLevel => obtain ⟨_, _, rfl⟩ := bodyFwdLevel_eq_ok.1 h; exact ⟨.same, .same, .same⟩
  | invLevel => obtain ⟨_, _, rfl⟩ := bodyInvLevel_eq_ok.1 h; exact ⟨.same, .same, .same⟩
  | fwdAll => obtain ⟨_, _, rfl⟩ := bodyFwdAll_eq_ok.1 h; exact ⟨.same, .same, .same⟩
  | invAll => obtain ⟨_, _, rfl⟩ := bodyInvAll_eq_ok.1 h; exact ⟨.same, .same, .same⟩
  | qpack => obtain ⟨_, _, _, rfl⟩ := bodyQpack_eq_ok.1 h; exact ⟨.stick (.inr (.inl rfl)), .same, .same⟩
  | unpackDq => obtain ⟨_, _, _, rfl⟩ := bodyUnpackDq_eq_ok.1 h; exact ⟨.same, .same, .same⟩
  | encode =>
    obtain ⟨u, v, hload, hfwd, hpack⟩ := bodyEncode_eq_ok.1 h
    obtain ⟨_, rfl⟩ := bodyLoadImage_eq_ok.1 hload
    obtain ⟨_, _, rfl⟩ := bodyFwdAll_eq_ok.1 hfwd
    obtain ⟨_, _, _, rfl⟩ := bodyQpack_eq_ok.1 hpack
    exact ⟨.stick (.inr (.inr rfl)), .same, .same⟩
  | decode =>
    obtain ⟨u, v, hunpack, hinv, hstore⟩ := bodyDecode_eq_ok.1 h
    obtain ⟨_, _, _, rfl⟩ := bodyUnpackDq_eq_ok.1 hunpack
    obtain ⟨_, _, rfl⟩ := bodyInvAll_eq_ok.1 hinv
    obtain ⟨_, rfl⟩ := bodyStoreImage_eq_ok.1 hstore
    exact ⟨.same, .stick (.inr rfl), .same⟩
  | bpInit => cases h; exact ⟨.same, .same, .same⟩
  | push v w => cases h; exact ⟨.same, .same, .stick ⟨v, w, rfl⟩⟩
  | flush => cases h; exact ⟨.same, .same, .same⟩
  | pull w => obtain ⟨_, _, _, rfl⟩ := bodyPull_eq_ok.1 h; exact ⟨.same, .same, .same⟩
  | quant k => cases h; exact ⟨.stick (.inl ⟨k, rfl⟩), .same, .same⟩
  | dequant k => cases h; exact ⟨.same, .same, .same⟩

/-! No command reads a flag. -/

/-- R52: the checks of a command give the same on states that differ in the flags alone. -/
theorem checksOf_congr_flags {i : Instr} {s s' : State} (h : s.forgetFlags = s'.forgetFlags) :
    checksOf i s = checksOf i s' := by
  rw [← checksOf_forgetFlags i s, h, checksOf_forgetFlags]

theorem bodyOf_congr_flags_ok {i : Instr} {s s' t : State} (h : s.forgetFlags = s'.forgetFlags)
    (hb : bodyOf i s = .ok t) : ∃ t', bodyOf i s' = .ok t' ∧ t.forgetFlags = t'.forgetFlags := by
  have hmap := (bodyOf_forgetFlags i).of_eq h
  rw [hb] at hmap
  cases hb' : bodyOf i s' with
  | error f => rw [hb'] at hmap; cases hmap
  | ok t' => rw [hb'] at hmap; exact ⟨t', rfl, Except.ok.inj hmap⟩

theorem bodyOf_congr_flags_error {i : Instr} {s s' : State} {f : Fault} (h : s.forgetFlags = s'.forgetFlags)
    (hb : bodyOf i s = .error f) : bodyOf i s' = .error f := by
  have hmap := (bodyOf_forgetFlags i).of_eq h
  rw [hb] at hmap
  cases hb' : bodyOf i s' with
  | error f' => rw [hb'] at hmap; exact congrArg _ (Except.error.inj hmap).symm
  | ok t' => rw [hb'] at hmap; cases hmap

/-- But for the flags a completion only clears BUSY (R54), with an error outcome or without (R332). -/
theorem forgetFlags_complete {s s' : State} (h : s.forgetFlags = s'.forgetFlags) :
    s.complete.forgetFlags = s'.complete.forgetFlags :=
  congrArg (fun t : State => { t with busy := false }) h

theorem forgetFlags_raiseError {s s' : State} (h : s.forgetFlags = s'.forgetFlags) (e : CmdError) :
    (s.raiseError e).forgetFlags = (s'.raiseError e).forgetFlags :=
  congrArg (fun t : State => { t with busy := false }) h

theorem exec_congr_flags {i : Instr} {s s' t : State} (h : s.forgetFlags = s'.forgetFlags)
    (hx : exec i s = .next t) : ∃ t', exec i s' = .next t' ∧ t.forgetFlags = t'.forgetFlags := by
  have hchecks := checksOf_congr_flags (i := i) h
  rcases exec_eq_next hx with ⟨e, hc, rfl⟩ | ⟨hc, u, hu, rfl⟩
  · exact ⟨_, exec_of_check (hchecks ▸ hc), forgetFlags_raiseError h e⟩
  · obtain ⟨u', hu', hsame⟩ := bodyOf_congr_flags_ok h hu
    exact ⟨_, exec_of_ok (hchecks ▸ hc) hu', forgetFlags_complete hsame⟩

theorem exec_congr_flags_fault {i : Instr} {s s' : State} {f : Fault} (h : s.forgetFlags = s'.forgetFlags)
    (hx : exec i s = .fault f) : exec i s' = .fault f := by
  obtain ⟨hc, hb⟩ := exec_eq_fault hx
  rw [exec_eq, ← checksOf_congr_flags h, hc]
  exact runCommand_error (bodyOf_congr_flags_error h hb)

/-- Settles O17. -/
theorem flagsAreWrittenByTheirCommandsAndNeverRead :
    Obligations.FlagsAreWrittenByTheirCommandsAndNeverRead := by
  refine ⟨fun i s t h => ?_, fun i s s' h => ⟨fun t => exec_congr_flags h, fun f => exec_congr_flags_fault h⟩⟩
  rcases exec_eq_next h with ⟨e, _, rfl⟩ | ⟨_, u, hu, rfl⟩
  · exact ⟨rfl, .inr ⟨e, rfl⟩, SetsOnly.same, SetsOnly.same, SetsOnly.same⟩
  · have hframe := frame_body hu
    have hflags := bodyOf_stickyFlags hu
    exact ⟨rfl, .inl ⟨hframe.errv, hframe.errcode⟩, hflags.qclamp, hflags.oclamp, hflags.vtrunc⟩

end Sys2Proof.Machine

/-! PROOFS, family 10_state. The registers as the host reads and writes them (R31 to R49): accept (R53; O8),
the two resets (R370, R372; O13) and the access types (R32; O12). -/

namespace Sys2Proof.Machine

/-! Register writes on the bus. -/

/-- R96: an idle register write is `regWrite` of that register. -/
theorem busWrite_regAddr {s : State} (hb : s.busy = false) (r : Reg) (data : Word) :
    s.busWrite (regAddr r) data = (.write .okay, s.regWrite r data) := by
  simp [State.busWrite, busTarget_regAddr, hb]

/-- R380: a register write while BUSY = 1 is discarded. -/
theorem busWrite_regAddr_of_busy {s : State} (hb : s.busy = true) (r : Reg) (data : Word) :
    s.busWrite (regAddr r) data = (.write .okay, s) := by
  simp [State.busWrite, busTarget_regAddr, hb]

/-- R32: a write to a reserved offset is ignored. -/
theorem busWrite_reserved {s : State} {a : Word} (hlo : 0x4C ≤ a.toNat) (hhi : a.toNat < 0x1000)
    (hal : a.toNat % 4 = 0) (data : Word) : s.busWrite a data = (.write .okay, s) := by
  simp [State.busWrite, busTarget_reserved hlo hhi hal]

theorem writeCtrl_of_srst {s : State} {data : Word} (h : data.getLsbD 0 = true) :
    s.writeCtrl data = s.softReset := by simp only [State.writeCtrl, h, if_true]

theorem writeCtrl_of_enables {s : State} {data : Word} (h : data.getLsbD 0 = false) :
    s.writeCtrl data = { s with ieDone := data.getLsbD 1, ieErr := data.getLsbD 2 } := by
  simp only [State.writeCtrl, h, Bool.false_eq_true, if_false]

/-- Settles O8. -/
theorem commandWordAccepted : Obligations.CommandWordAccepted :=
  fun _ data => ⟨fun hb => busWrite_regAddr hb .cmd data, fun hb => busWrite_regAddr_of_busy hb .cmd data⟩

/-- Settles O13. -/
theorem resets : Obligations.Resets := by
  refine ⟨fun s es he => by simp [step, he, State.hardwareReset], fun s data hsrst => ⟨fun hb => ?_, fun hb => ?_⟩⟩
  · have hw := busWrite_regAddr hb .ctrl data
    rw [State.regWrite, writeCtrl_of_srst hsrst] at hw
    exact hw
  · exact busWrite_regAddr_of_busy hb .ctrl data

/-! The packed words. -/

/-- A field at bit 8 above a number of 8 bits: the layout of STATUS, WSTATE and RSTATE. -/
theorem ofNat_or_shift_eight {n : Nat} {lo : Nat} (hlo : lo < 256) (hi : BitVec n) :
    BitVec.ofNat 32 lo ||| (hi.setWidth 32 <<< 8) = BitVec.ofNat 32 (lo + 256 * hi.toNat) := by
  have hnat : lo + 256 * hi.toNat = lo ||| hi.toNat <<< 8 := by
    rw [Nat.lor_comm, Nat.shiftLeft_eq, Nat.mul_comm hi.toNat, ← Nat.two_pow_add_eq_or_of_lt (i := 8) hlo,
      Nat.add_comm]
  rw [hnat, BitVec.ofNat_or, ← BitVec.ofNat_toNat]
  congr 1
  apply BitVec.eq_of_toNat_eq
  simp [Nat.shiftLeft_eq, Nat.mod_mul_mod]

theorem ctrlWord_eq (s : State) : s.ctrlWord = BitVec.ofNat 32 (2 * s.ieDone.toNat + 4 * s.ieErr.toNat) := by
  unfold State.ctrlWord
  cases s.ieDone <;> cases s.ieErr <;> rfl

/-- R36: the flags of STATUS, below ERRCODE. -/
def State.flagsWord (s : State) : Word :=
  flagBit s.busy 0 ||| flagBit s.done 1 ||| flagBit s.errv 2 ||| flagBit s.qclamp 3 |||
    flagBit s.oclamp 4 ||| flagBit s.vtrunc 5

theorem statusWord_eq_flagsWord (s : State) :
    s.statusWord = s.flagsWord ||| (s.errcode.setWidth 32 <<< 8) := rfl

theorem flagsWord_eq (s : State) : s.flagsWord = BitVec.ofNat 32 (s.busy.toNat + 2 * s.done.toNat +
    4 * s.errv.toNat + 8 * s.qclamp.toNat + 16 * s.oclamp.toNat + 32 * s.vtrunc.toNat) := by
  unfold State.flagsWord
  generalize s.busy = busy, s.done = done, s.errv = errv, s.qclamp = qclamp, s.oclamp = oclamp,
    s.vtrunc = vtrunc
  revert busy done errv qclamp oclamp vtrunc
  decide

theorem statusWord_eq (s : State) : s.statusWord = BitVec.ofNat 32 (s.busy.toNat + 2 * s.done.toNat +
    4 * s.errv.toNat + 8 * s.qclamp.toNat + 16 * s.oclamp.toNat + 32 * s.vtrunc.toNat +
    256 * s.errcode.toNat) := by
  rw [statusWord_eq_flagsWord, flagsWord_eq, ofNat_or_shift_eight]
  have := s.busy.toNat_le
  have := s.done.toNat_le
  have := s.errv.toNat_le
  have := s.qclamp.toNat_le
  have := s.oclamp.toNat_le
  have := s.vtrunc.toNat_le
  omega

theorem wstateWord_eq (s : State) : s.wstateWord = BitVec.ofNat 32 (s.wbuf.toNat + 256 * s.wfree.toNat) := by
  rw [State.wstateWord, ← BitVec.ofNat_toNat 32 s.wbuf, ofNat_or_shift_eight s.wbuf.isLt]

theorem rstateWord_eq (s : State) : s.rstateWord = BitVec.ofNat 32 (s.rbuf.toNat + 256 * s.ravail.toNat) := by
  rw [State.rstateWord, ← BitVec.ofNat_toNat 32 s.rbuf, ofNat_or_shift_eight s.rbuf.isLt]

/-! Read-write registers that are one field. -/

/-- R37 to R48: the mask of the field a register stores, for the registers a write stores into and does
nothing else. -/
def Reg.storedMask : Reg → Option Word
  | .width => some 0x0000FFFF
  | .height => some 0x0000FFFF
  | .levels => some 0x00000007
  | .curLevel => some 0x00000007
  | .streamLen => some 0xFFFFFFFF
  | .wptr => some 0xFFFFFFFF
  | .rptr => some 0xFFFFFFFF
  | .qCoef => some 0xFFFFFFFF
  | .qIndex => some 0x000000FF
  | .id | .ctrl | .cmd | .status | .wstate | .rstate | .pullData | .pWmax | .pHmax | .pBscap => none

/-- A field of the low `n` bits reads back as the word masked to it. -/
theorem setWidth_setWidth_mask (data : Word) (n : Nat) :
    (data.setWidth n).setWidth 32 = data &&& BitVec.ofNat 32 (2 ^ n - 1) := by
  apply BitVec.eq_of_getLsbD_eq
  intro i hi
  rw [BitVec.getLsbD_setWidth, BitVec.getLsbD_setWidth, BitVec.getLsbD_and, BitVec.getLsbD_ofNat,
    Nat.testBit_two_pow_sub_one, decide_eq_true hi, Bool.true_and, Bool.true_and, Bool.and_comm]

theorem regRead_regWrite_same {r : Reg} {m : Word} (hr : r.storedMask = some m) (s : State) (data : Word) :
    (s.regWrite r data).regRead r = data &&& m := by
  have hall : data = data &&& 0xFFFFFFFF := (BitVec.and_allOnes).symm
  cases r <;> cases hr
  case width | height => exact setWidth_setWidth_mask data 16
  case levels | curLevel => exact setWidth_setWidth_mask data 3
  case qIndex => exact setWidth_setWidth_mask data 8
  all_goals exact hall

/-- R32: such a write changes one field, which no other register reads. -/
theorem regRead_regWrite_ne {r q : Reg} {m : Word} (hr : r.storedMask = some m) (hq : q ≠ r) (s : State)
    (data : Word) : (s.regWrite r data).regRead q = s.regRead q := by
  cases r <;> cases hr <;> cases q <;> trivial

theorem regWrite_busy {r : Reg} {m : Word} (hr : r.storedMask = some m) (s : State) (data : Word) :
    (s.regWrite r data).busy = s.busy := by
  cases r <;> cases hr <;> rfl

/-- R32: the effect of a write to such a register, as the host sees it. -/
theorem busWrite_stored {s : State} (hb : s.busy = false) {r : Reg} {m : Word} (hr : r.storedMask = some m)
    (data : Word) :
    ∃ t, s.busWrite (regAddr r) data = (.write .okay, t) ∧
      t.busRead (regAddr r) = .ok (.read (data &&& m) .okay) ∧
      t.image = s.image ∧ t.plane = s.plane ∧ t.stream = s.stream ∧ t.busy = false ∧
      ∀ q : Reg, regAddr q ≠ regAddr r → t.busRead (regAddr q) = s.busRead (regAddr q) := by
  have hsame := regWrite_sameMemories s r data
  have hidle : (s.regWrite r data).busy = false := (regWrite_busy hr s data).trans hb
  refine ⟨_, busWrite_regAddr hb r data, ?_, hsame.image, hsame.plane, hsame.stream, hidle, fun q hq => ?_⟩
  · rw [busRead_regAddr hidle, regRead_regWrite_same hr]
  · rw [busRead_regAddr hidle, busRead_regAddr hb, regRead_regWrite_ne hr (fun h => hq (congrArg _ h))]

/-! CTRL and STATUS. -/

/-- A flag masked by a word. -/
theorem flagBit_and (b : Bool) (p : Nat) (x : Word) : flagBit b p &&& x = flagBit (b && x.getLsbD p) p := by
  cases b
  · exact BitVec.zero_and
  · exact BitVec.twoPow_and x p

/-- R34: CTRL reads back as the enables written. -/
theorem ctrlWord_writeCtrl {s : State} {data : Word} (h : data.getLsbD 0 = false) :
    (s.writeCtrl data).ctrlWord = data &&& 0x00000006 := by
  rw [writeCtrl_of_enables h]
  have hbit := fun p => flagBit_and true p data
  simp only [Bool.true_and] at hbit
  show flagBit (data.getLsbD 1) 1 ||| flagBit (data.getLsbD 2) 2 = _
  rw [← hbit, ← hbit, ← BitVec.and_or_distrib_right, BitVec.and_comm]
  rfl

/-- R36, R341: an idle acknowledgement masks the flags by any word that has the complement of `data` in the
W1C bits. -/
theorem flagsWord_acknowledge {s : State} (hb : s.busy = false) {data x : Word}
    (hx : ∀ p, 1 ≤ p → p ≤ 5 → x.getLsbD p = !data.getLsbD p) :
    (s.acknowledge data).flagsWord = s.flagsWord &&& x := by
  simp [State.flagsWord, BitVec.and_or_distrib_right, flagBit_and, hb, hx, -BitVec.getLsbD_eq_getElem]

/-- ERRCODE stands clear of the W1C bits. -/
theorem errcode_and_not_w1c (e : BitVec 4) (data : Word) :
    (e.setWidth 32 <<< 8) &&& ~~~(data &&& 0x0000003E) = e.setWidth 32 <<< 8 := by
  have hclear : (e.setWidth 32 <<< 8) &&& (0x0000003E : Word) = 0 := by revert e; decide
  ext i hi
  have hbit := congrArg (·[i]) hclear
  grind

theorem errcode_and_not_field (e : BitVec 4) (data : Word) :
    (e.setWidth 32 <<< 8) &&& ~~~(data ||| 0x00000F00) = 0 := by
  have hfield : (e.setWidth 32 <<< 8) &&& ~~~(0x00000F00 : Word) = 0 := by revert e; decide
  rw [BitVec.not_or, BitVec.and_comm (~~~data), ← BitVec.and_assoc, hfield]
  exact BitVec.zero_and

/-- R36: STATUS after an acknowledgement: the W1C bits written 1 are cleared, and ERRCODE with ERRV. -/
theorem statusWord_acknowledge {s : State} (hb : s.busy = false) (data : Word) :
    (s.acknowledge data).statusWord =
      if data.getLsbD 2 then s.statusWord &&& ~~~((data &&& 0x0000003E) ||| 0x00000F00)
      else s.statusWord &&& ~~~(data &&& 0x0000003E) := by
  rw [statusWord_eq_flagsWord, statusWord_eq_flagsWord, State.acknowledge_errcode]
  split
  · rw [BitVec.and_or_distrib_right, errcode_and_not_field, flagsWord_acknowledge hb]
    · rfl
    · intro p h1 h5
      interval_cases p <;> simp
  · rw [BitVec.and_or_distrib_right, errcode_and_not_w1c, flagsWord_acknowledge hb]
    intro p h1 h5
    interval_cases p <;> simp

/-! The access types. -/

/-- The registers of R31. -/
abbrev Reg.all : List Reg :=
  [.id, .ctrl, .cmd, .status, .width, .height, .levels, .curLevel, .streamLen, .wptr, .wstate, .rptr, .rstate,
    .pullData, .qCoef, .qIndex, .pWmax, .pHmax, .pBscap]

/-- The read-only registers of R31. -/
abbrev Reg.readOnly : List Reg := [.id, .wstate, .rstate, .pullData, .pWmax, .pHmax, .pBscap]

/-- R32: a write to a read-only register is ignored. -/
theorem regWrite_readOnly {r : Reg} (hr : r ∈ Reg.readOnly) (s : State) (data : Word) :
    s.regWrite r data = s := by
  simp only [List.mem_cons, List.not_mem_nil, or_false] at hr
  rcases hr with rfl | rfl | rfl | rfl | rfl | rfl | rfl <;> rfl

/-- Settles O12: the addresses of the statement are `regAddr` of their registers. -/
theorem registerAccessTypes : Obligations.RegisterAccessTypes := by
  intro s data hb
  have hread := busRead_regAddr hb
  have hwrite := fun r => busWrite_regAddr hb r data
  refine ⟨?reads, ?writes, ?stored, ?ctrl, ?readOnly, ?reserved, ?status⟩
  case reads =>
    have hstatus := statusWord_eq s
    rw [hb, Bool.toNat_false, Nat.zero_add] at hstatus
    simp only [BitVec.ofNat_toNat]
    exact ⟨hread .id, ctrlWord_eq s ▸ hread .ctrl, hread .cmd, hstatus ▸ hread .status, hread .width,
      hread .height, hread .levels, hread .curLevel, hread .streamLen, hread .wptr,
      wstateWord_eq s ▸ hread .wstate, hread .rptr, rstateWord_eq s ▸ hread .rstate, hread .pullData,
      hread .qCoef, hread .qIndex, hread .pWmax, hread .pHmax, hread .pBscap⟩
  case writes =>
    rw [← BitVec.setWidth_eq_extractLsb' (by norm_num), ← BitVec.setWidth_eq_extractLsb' (by norm_num),
      ← BitVec.setWidth_eq_extractLsb' (by norm_num)]
    exact ⟨hwrite .width, hwrite .height, hwrite .levels, hwrite .curLevel, hwrite .streamLen, hwrite .wptr,
      hwrite .rptr, hwrite .qCoef, hwrite .qIndex⟩
  case stored =>
    intro p hp
    obtain ⟨r, _, hp⟩ := List.mem_filterMap.1 (show p ∈ Reg.all.filterMap fun r =>
      r.storedMask.map fun m => (regAddr r, m) from hp)
    obtain ⟨m, hr, rfl⟩ := Option.map_eq_some_iff.1 hp
    obtain ⟨t, ht, hsame, himage, hplane, hstream, hidle, hother⟩ := busWrite_stored hb hr data
    refine ⟨t, ht, hsame, himage, hplane, hstream, hidle, fun q hq hne => ?_⟩
    obtain ⟨q, _, rfl⟩ := List.mem_map.1 (show q ∈ Reg.all.map regAddr from hq)
    exact hother q hne
  case ctrl =>
    intro hsrst
    have hw : s.busWrite 0x04 data = (.write .okay, s.writeCtrl data) := hwrite .ctrl
    have hidle : (s.writeCtrl data).busy = false := by rw [writeCtrl_of_enables hsrst]; exact hb
    rw [hw]
    exact ⟨by rw [writeCtrl_of_enables hsrst], ctrlWord_writeCtrl hsrst ▸ busRead_regAddr hidle .ctrl⟩
  case readOnly =>
    intro a ha
    obtain ⟨r, hr, rfl⟩ := List.mem_map.1 (show a ∈ Reg.readOnly.map regAddr from ha)
    rw [hwrite, regWrite_readOnly hr]
  case reserved =>
    exact fun a hlo hhi hal => ⟨busWrite_reserved hlo hhi hal data, busRead_reserved hlo hhi hal⟩
  case status =>
    intro w hw
    obtain rfl : s.statusWord = w := (Reply.read.inj (Except.ok.inj ((hread .status).symm.trans hw))).1
    exact ⟨s.acknowledge data, hwrite .status, rfl,
      statusWord_acknowledge hb data ▸ busRead_regAddr (s := s.acknowledge data) hb .status⟩

end Sys2Proof.Machine

/-! PROOFS, family 20_memory. Turns of an idle core and host transactions as steps (O6), bus errors (R97; O9)
and the memory windows (R92 to R95; O11). -/

namespace Sys2Proof.Machine

/-! Steps. -/

/-- R355: while BUSY = 0 the core's turn does nothing. -/
theorem coreStep_of_idle {s : State} (hb : s.busy = false) : coreStep s = .next s := by simp [coreStep, hb]

theorem step_of_env_read {s : State} {addr : Word} {es : List Event} (h : s.env = .read addr :: es) :
    step s = State.readEvent { s with env := es } addr := by simp [step, h]

theorem step_of_env_write {s : State} {addr data : Word} {es : List Event}
    (h : s.env = .write addr data :: es) :
    step s = .next (State.writeEvent { s with env := es } addr data) := by simp [step, h]

theorem readEvent_of_ok {s : State} {addr : Word} {r : Reply} (h : s.busRead addr = .ok r) :
    s.readEvent addr = .next (s.record r) := by simp [State.readEvent, h]

theorem readEvent_of_error {s : State} {addr : Word} {f : Fault} (h : s.busRead addr = .error f) :
    s.readEvent addr = .fault f := by simp [State.readEvent, h]

/-- Settles O6. A read does not look at the schedule (log 1), so its outcome is that of the state without the
event. -/
theorem stepTakesTheNextEvent : Obligations.StepTakesTheNextEvent := by
  refine fun s => ⟨fun hb => ⟨fun he => ?_, fun es he => ?_⟩,
    fun addr es he => ⟨fun r hr => ?_, fun f hf => ?_⟩, fun addr data es he => ⟨_, _, rfl, ?_⟩⟩
  · rw [step_of_env_nil he, coreStep_of_idle hb]
  · rw [step_of_env_core he]; exact coreStep_of_idle hb
  · rw [step_of_env_read he, readEvent_of_ok (s := { s with env := es }) hr]; rfl
  · rw [step_of_env_read he, readEvent_of_error (s := { s with env := es }) hf]
  · rw [step_of_env_write he]; rfl

/-! Bus errors. -/

theorem windowTarget_eq_busError {m : MemId} {base size addr : Nat} :
    windowTarget m base size addr = .busError ↔ size ≤ (addr - base) / 4 := by
  simp [windowTarget]

/-- R97: the address map answers a bus error exactly on the addresses that R97 lists. -/
theorem busTarget_eq_busError {p : Params} {addr : Word} :
    busTarget p addr = .busError ↔ BusError p addr := by
  unfold busTarget BusError Params.planeSize
  generalize p.wMax * p.hMax = size
  simp only
  split
  case isTrue => simp; omega
  split
  case isTrue =>
    cases regAt addr.toNat <;> simp only [reduceCtorEq, false_iff] <;> omega
  split
  case isTrue => simp; omega
  split
  case isTrue => rw [windowTarget_eq_busError]; omega
  split
  case isTrue => rw [windowTarget_eq_busError]; omega
  split
  case isTrue => rw [windowTarget_eq_busError]; omega
  case isFalse => simp; omega

theorem busRead_of_busError {s : State} {addr : Word} (h : busTarget s.params addr = .busError) :
    s.busRead addr = .ok (.read 0 .error) := by simp [State.busRead, h]

theorem busWrite_of_busError {s : State} {addr : Word} (h : busTarget s.params addr = .busError)
    (data : Word) : s.busWrite addr data = (.write .error, s) := by simp [State.busWrite, h]

/-- R93 to R96: a read that reaches a register or an element and answers, answers OKAY. -/
theorem busRead_ne_error {s : State} {addr : Word} (h : busTarget s.params addr ≠ .busError) (d : Word) :
    s.busRead addr ≠ .ok (.read d .error) := by
  unfold State.busRead
  cases ht : busTarget s.params addr with
  | busError => exact absurd ht h
  | reserved => simp
  | reg r => simp
  | elem m i =>
    cases s.busy
    · cases hr : s.elemRead m i <;> simp [hr, Except.map]
    · simp

theorem busWrite_okay {s : State} {addr : Word} (h : busTarget s.params addr ≠ .busError) (data : Word) :
    (s.busWrite addr data).1 = .write .okay := by
  unfold State.busWrite
  cases ht : busTarget s.params addr with
  | busError => exact absurd ht h
  | reserved => rfl
  | reg r => rfl
  | elem m i => rfl

/-- Settles O9: `BusError` is what the address map answers with a bus error. -/
theorem busErrorsChangeNothing : Obligations.BusErrorsChangeNothing := by
  intro s addr data
  rw [← busTarget_eq_busError]
  exact ⟨fun h => ⟨busRead_of_busError h, busWrite_of_busError h data⟩,
    fun h => ⟨busRead_ne_error h, busWrite_okay h data⟩⟩

/-! The memory windows. -/

/-- R7: no memory is larger than its window. -/
theorem MemId.count_le {p : Params} (hl : p.Legal) (m : MemId) : m.count p ≤ 2 ^ 26 := by
  obtain ⟨_, _, ⟨_, hcap⟩, hsize⟩ := hl
  cases m
  · exact hsize
  · exact hsize
  · exact hcap

/-- R91: an aligned address in the window of a memory goes to that memory. -/
theorem busTarget_window {p : Params} {addr : Word} (m : MemId) (hal : addr.toNat % 4 = 0)
    (hlo : windowBase m ≤ addr.toNat) (hhi : addr.toNat < windowBase m + 0x10000000) :
    busTarget p addr = windowTarget m (windowBase m) (m.count p) addr.toNat := by
  unfold busTarget
  cases m with
  | image =>
    have hbase : windowBase .image = 0x10000000 := rfl
    rw [if_neg (by omega), if_neg (by omega), if_neg (by omega), if_pos (by omega)]
    rfl
  | plane =>
    have hbase : windowBase .plane = 0x20000000 := rfl
    rw [if_neg (by omega), if_neg (by omega), if_neg (by omega), if_neg (by omega), if_pos (by omega)]
    rfl
  | stream =>
    have hbase : windowBase .stream = 0x30000000 := rfl
    rw [if_neg (by omega), if_neg (by omega), if_neg (by omega), if_neg (by omega), if_neg (by omega),
      if_pos (by omega)]
    rfl

theorem windowBase_mod_four (m : MemId) : windowBase m % 4 = 0 := by cases m <;> rfl

theorem windowBase_le (m : MemId) : windowBase m ≤ 0x30000000 := by cases m <;> decide

/-- R91, R92: the address of an element reaches that element. -/
theorem busTarget_elemAddr {p : Params} (hl : p.Legal) {m : MemId} {i : Nat} (hi : i < m.count p) :
    busTarget p (elemAddr m i) = .elem m i := by
  have hcount := m.count_le hl
  have hbase := windowBase_le m
  have halign := windowBase_mod_four m
  have haddr : (elemAddr m i).toNat = windowBase m + 4 * i := Nat.mod_eq_of_lt (by omega)
  rw [busTarget_window m (by omega) (by omega) (by omega), haddr]
  simp [windowTarget, hi]

section

variable {s : State} (hl : s.params.Legal) (hb : s.busy = false) {m : MemId} {i : Nat}
  (hi : i < m.count s.params)

include hl hb hi

/-- R93 to R95: an idle write in a window is a write to its element. -/
theorem busWrite_elemAddr (data : Word) :
    s.busWrite (elemAddr m i) data = (.write .okay, s.elemWrite m i data) := by
  simp [State.busWrite, busTarget_elemAddr hl hi, hb]

theorem busRead_elemAddr_of_ok {d : Word} (h : s.elemRead m i = .ok d) :
    s.busRead (elemAddr m i) = .ok (.read d .okay) := by
  simp [State.busRead, busTarget_elemAddr hl hi, hb, h, Except.map]

theorem busRead_elemAddr_of_error {f : Fault} (h : s.elemRead m i = .error f) :
    s.busRead (elemAddr m i) = .error f := by
  simp [State.busRead, busTarget_elemAddr hl hi, hb, h, Except.map]

end

/-- A byte read zero-extended. -/
theorem fetchElem_setWidth_of_some {id : MemId} {m : Memory Byte} {i : Nat} {b : Byte}
    (h : m.read i = some b) : (fetchElem id m i).map (·.setWidth 32) = .ok (b.setWidth 32) := by
  rw [fetchElem_eq_ok.2 h]; rfl

theorem fetchElem_setWidth_of_none {id : MemId} {m : Memory Byte} {i : Nat} (h : m.read i = none) :
    (fetchElem id m i).map (·.setWidth 32) = .error (.uninitRead id i) := by
  rw [fetchElem_eq_error.2 ⟨h, rfl⟩]; rfl

/-- What a memory holds after a write, from the side of the element read. -/
theorem Memory.read_write_eq_ite {α : Type} (m : Memory α) (i : Nat) (v : α) (j : Nat) :
    (m.write i v).read j = if j = i then some v else m.read j := by
  rw [Memory.read_write]; simp only [eq_comm]

theorem byte_eq_extractLsb' (data : Word) : data.setWidth 8 = data.extractLsb' 0 8 :=
  BitVec.setWidth_eq_extractLsb' (by norm_num)

/-- Settles O11: the addresses of the statement are `elemAddr` of their elements. -/
theorem memoryWindows : Obligations.MemoryWindows := by
  intro s hl hb
  refine ⟨fun i hi data => ?image, fun i hi data => ?plane, fun i hi data => ?stream⟩
  case image =>
    rw [← byte_eq_extractLsb']
    exact ⟨⟨_, busWrite_elemAddr (m := .image) hl hb hi data, Memory.read_write_eq_ite _ _ _⟩,
      fun b h => busRead_elemAddr_of_ok (m := .image) hl hb hi (fetchElem_setWidth_of_some h),
      fun h => busRead_elemAddr_of_error (m := .image) hl hb hi (fetchElem_setWidth_of_none h)⟩
  case plane =>
    exact ⟨⟨_, busWrite_elemAddr (m := .plane) hl hb hi data, Memory.read_write_eq_ite _ _ _⟩,
      fun v h => busRead_elemAddr_of_ok (m := .plane) hl hb hi (fetchElem_eq_ok.2 h),
      fun h => busRead_elemAddr_of_error (m := .plane) hl hb hi (fetchElem_eq_error.2 ⟨h, rfl⟩)⟩
  case stream =>
    rw [← byte_eq_extractLsb']
    exact ⟨⟨_, busWrite_elemAddr (m := .stream) hl hb hi data, Memory.read_write_eq_ite _ _ _⟩,
      fun b h => busRead_elemAddr_of_ok (m := .stream) hl hb hi (fetchElem_setWidth_of_some h),
      fun h => busRead_elemAddr_of_error (m := .stream) hl hb hi (fetchElem_setWidth_of_none h)⟩

end Sys2Proof.Machine

/-! PROOFS, family 20_memory. The frame of every command (R103; O18): which parts of the state it may write,
and which elements of a memory it leaves as they were. -/

namespace Sys2Proof.Machine

/-! The parts of the state that a command may write. -/

/-- What commands write beside STREAM_LEN and the flags: registers of R37 to R48 and memories. -/
inductive Part where
  | curLevel
  | plane
  | image
  /-- WPTR, WSTATE and the STREAM memory. -/
  | packer
  /-- RPTR and RSTATE. -/
  | unpacker
  | pullData
  | qCoef
  | qIndex

/-- A part holds the same in both states. -/
def Part.Same (s t : State) : Part → Prop
  | .curLevel => t.curLevel = s.curLevel
  | .plane => t.plane = s.plane
  | .image => t.image = s.image
  | .packer => t.packer = s.packer
  | .unpacker => t.unpacker = s.unpacker
  | .pullData => t.pullData = s.pullData
  | .qCoef => t.qCoef = s.qCoef
  | .qIndex => t.qIndex = s.qIndex

/-- R103: the commands that write a part. -/
def Part.WrittenBy (i : Instr) : Part → Prop
  | .curLevel | .plane =>
    i ∈ [.loadImage, .fwdLevel, .invLevel, .fwdAll, .invAll, .unpackDq, .encode, .decode]
  | .image => i ∈ [.storeImage, .decode]
  | .packer => i ∈ [.bpInit, .flush, .qpack, .encode] ∨ ∃ v w, i = .push v w
  | .unpacker => i ∈ [.bpInit, .unpackDq, .decode] ∨ ∃ w, i = .pull w
  | .pullData => ∃ w, i = .pull w
  | .qCoef => ∃ k, i = .dequant k
  | .qIndex => ∃ k, i = .quant k

/-- R103: a command leaves alone every part it does not write: the updates of its body do not mention it. -/
theorem bodyOf_same {i : Instr} {s t : State} (h : bodyOf i s = .ok t) {p : Part} (hp : ¬ p.WrittenBy i) :
    p.Same s t := by
  cases i
  case' loadImage => obtain ⟨_, rfl⟩ := bodyLoadImage_eq_ok.1 h
  case' storeImage => obtain ⟨_, rfl⟩ := bodyStoreImage_eq_ok.1 h
  case' fwdLevel => obtain ⟨_, _, rfl⟩ := bodyFwdLevel_eq_ok.1 h
  case' invLevel => obtain ⟨_, _, rfl⟩ := bodyInvLevel_eq_ok.1 h
  case' fwdAll => obtain ⟨_, _, rfl⟩ := bodyFwdAll_eq_ok.1 h
  case' invAll => obtain ⟨_, _, rfl⟩ := bodyInvAll_eq_ok.1 h
  case' qpack => obtain ⟨_, _, _, rfl⟩ := bodyQpack_eq_ok.1 h
  case' unpackDq => obtain ⟨_, _, _, rfl⟩ := bodyUnpackDq_eq_ok.1 h
  case' encode =>
    obtain ⟨u, v, hload, hfwd, hpack⟩ := bodyEncode_eq_ok.1 h
    obtain ⟨_, rfl⟩ := bodyLoadImage_eq_ok.1 hload
    obtain ⟨_, _, rfl⟩ := bodyFwdAll_eq_ok.1 hfwd
    obtain ⟨_, _, _, rfl⟩ := bodyQpack_eq_ok.1 hpack
  case' decode =>
    obtain ⟨u, v, hunpack, hinv, hstore⟩ := bodyDecode_eq_ok.1 h
    obtain ⟨_, _, _, rfl⟩ := bodyUnpackDq_eq_ok.1 hunpack
    obtain ⟨_, _, rfl⟩ := bodyInvAll_eq_ok.1 hinv
    obtain ⟨_, rfl⟩ := bodyStoreImage_eq_ok.1 hstore
  case' pull => obtain ⟨_, _, _, rfl⟩ := bodyPull_eq_ok.1 h
  case' nop | bpInit | push | flush | quant | dequant => cases h
  all_goals cases p <;> simp [Part.WrittenBy] at hp <;> rfl

/-! Elements of PLANE. -/

/-- R170: an element at no position of the region `A_c` is outside it. -/
theorem not_inRegion_dimAt {w h c n : Nat} (hn : ∀ r < h / 2 ^ c, ∀ k < w / 2 ^ c, n ≠ r * w + k) :
    ¬ InRegion w (dimAt h c) (dimAt w c) n := by
  rw [not_inRegion_iff (dimAt_le w c), dimAt_eq, dimAt_eq]
  exact hn

/-- An element beyond the plane is outside every region `A_c`. -/
theorem not_inRegion_dimAt_of_le {w h n : Nat} (hn : w * h ≤ n) (c : Nat) :
    ¬ InRegion w (dimAt h c) (dimAt w c) n :=
  fun hin => (lt_of_inRegion (dimAt_le h c) (dimAt_le w c) hin).not_ge hn

/-- R176: the region of an inverse level, which is that of the level below. -/
theorem two_dimAt_le_pred {d c : Nat} (hc : 1 ≤ c) : 2 * dimAt d c ≤ dimAt d (c - 1) := by
  obtain ⟨k, rfl⟩ := Nat.exists_eq_add_of_le' hc
  rw [dimAt_succ, Nat.add_sub_cancel]
  exact Nat.mul_div_le _ _

theorem SameFrame.samples {s t : State} (h : SameFrame s t) : t.samples = s.samples := by
  simp [State.samples, h.width, h.height]

section

variable {s t : State} {n : Nat}

theorem bodyFwdLevel_plane_outside (h : bodyFwdLevel s = .ok t)
    (hn : ¬ InRegion s.width.toNat (dimAt s.height.toNat s.curLevel.toNat)
      (dimAt s.width.toNat s.curLevel.toNat) n) : t.plane.read n = s.plane.read n := by
  obtain ⟨p, hp, rfl⟩ := bodyFwdLevel_eq_ok.1 h
  exact (read_fwdLevel hp n).trans (if_neg hn)

theorem bodyFwdAll_plane_outside (h : bodyFwdAll s = .ok t)
    (hn : ¬ InRegion s.width.toNat (dimAt s.height.toNat s.curLevel.toNat)
      (dimAt s.width.toNat s.curLevel.toNat) n) : t.plane.read n = s.plane.read n := by
  obtain ⟨p, hp, rfl⟩ := bodyFwdAll_eq_ok.1 h
  exact fwdLevels_outside hp hn

theorem bodyInvLevel_plane_outside (h : bodyInvLevel s = .ok t) (hc : 1 ≤ s.curLevel.toNat)
    (hn : ¬ InRegion s.width.toNat (dimAt s.height.toNat (s.curLevel.toNat - 1))
      (dimAt s.width.toNat (s.curLevel.toNat - 1)) n) : t.plane.read n = s.plane.read n := by
  obtain ⟨p, hp, rfl⟩ := bodyInvLevel_eq_ok.1 h
  refine (read_invLevel hc hp n).trans (if_neg fun ⟨hrow, hcol⟩ => hn ?_)
  exact ⟨hrow.trans_le (two_dimAt_le_pred hc), hcol.trans_le (two_dimAt_le_pred hc)⟩

theorem bodyInvAll_plane_beyond (h : bodyInvAll s = .ok t) (hn : s.samples ≤ n) :
    t.plane.read n = s.plane.read n := by
  obtain ⟨p, hp, rfl⟩ := bodyInvAll_eq_ok.1 h
  exact invLevels_outside hp hn

theorem bodyLoadImage_plane_beyond (h : bodyLoadImage s = .ok t) (hn : s.samples ≤ n) :
    t.plane.read n = s.plane.read n := by
  obtain ⟨_, rfl⟩ := bodyLoadImage_eq_ok.1 h
  exact (Memory.read_writeAll_range _ _ _ n).trans (if_neg hn.not_gt)

/-- R292: UNPACK_DQ writes at the positions of SCHED, which are all in the plane. -/
theorem bodyUnpackDq_plane_beyond (h : bodyUnpackDq s = .ok t) (hc : s.CfgOk) (hn : s.samples ≤ n) :
    t.plane.read n = s.plane.read n := by
  obtain ⟨_, p, hp, rfl⟩ := bodyUnpackDq_eq_ok.1 h
  obtain ⟨_, qs, _, rfl⟩ := unpackSched_ok (entries_level s) (by decide : Unpacker.start.Inv) hp
  refine Memory.read_writeAll_of_notMem _ _ _ fun w hw => ?_
  obtain ⟨qe, hqe, rfl⟩ := List.mem_map.1 hw
  obtain ⟨hrow, hcol⟩ := entries_pos hc (List.of_mem_zip hqe).2
  exact ((planeIndex_lt hrow hcol).trans_le hn).ne

/-- R103: no command writes an element of PLANE beyond WIDTH·HEIGHT. -/
theorem bodyOf_plane_beyond {i : Instr} (hc : checksOf i s = none) (h : bodyOf i s = .ok t)
    (hn : s.samples ≤ n) : t.plane.read n = s.plane.read n := by
  cases i
  case loadImage => exact bodyLoadImage_plane_beyond h hn
  case fwdLevel => exact bodyFwdLevel_plane_outside h (not_inRegion_dimAt_of_le hn _)
  case invLevel =>
    obtain ⟨_, hlevel, _⟩ := checkInvLevel_eq_none.1 hc
    exact bodyInvLevel_plane_outside h hlevel (not_inRegion_dimAt_of_le hn _)
  case fwdAll => exact bodyFwdAll_plane_outside h (not_inRegion_dimAt_of_le hn _)
  case invAll => exact bodyInvAll_plane_beyond h hn
  case unpackDq => exact bodyUnpackDq_plane_beyond h (checkDecode_eq_none.1 hc).1 hn
  case encode =>
    obtain ⟨u, v, hload, hfwd, hpack⟩ := bodyEncode_eq_ok.1 h
    obtain ⟨_, _, _, rfl⟩ := bodyQpack_eq_ok.1 hpack
    have hnu := (frame_load hload).samples ▸ hn
    exact (bodyFwdAll_plane_outside hfwd (not_inRegion_dimAt_of_le hnu _)).trans
      (bodyLoadImage_plane_beyond hload hn)
  case decode =>
    obtain ⟨u, v, hunpack, hinv, hstore⟩ := bodyDecode_eq_ok.1 h
    obtain ⟨_, rfl⟩ := bodyStoreImage_eq_ok.1 hstore
    exact (bodyInvAll_plane_beyond hinv ((frame_unpackDq hunpack).samples ▸ hn)).trans
      (bodyUnpackDq_plane_beyond hunpack (checkDecode_eq_none.1 hc).1 hn)
  all_goals exact congrArg (Memory.read · n) (bodyOf_same h (p := .plane) (by simp [Part.WrittenBy]))

/-! Elements of IMAGE. -/

theorem bodyStoreImage_image_beyond (h : bodyStoreImage s = .ok t) (hn : s.samples ≤ n) :
    t.image.read n = s.image.read n := by
  obtain ⟨_, rfl⟩ := bodyStoreImage_eq_ok.1 h
  exact (Memory.read_writeAll_range _ _ _ n).trans (if_neg hn.not_gt)

/-- R103: no command writes an element of IMAGE beyond WIDTH·HEIGHT. -/
theorem bodyOf_image_beyond {i : Instr} (h : bodyOf i s = .ok t) (hn : s.samples ≤ n) :
    t.image.read n = s.image.read n := by
  cases i
  case storeImage => exact bodyStoreImage_image_beyond h hn
  case decode =>
    obtain ⟨u, v, hunpack, hinv, hstore⟩ := bodyDecode_eq_ok.1 h
    obtain ⟨_, _, _, rfl⟩ := bodyUnpackDq_eq_ok.1 hunpack
    obtain ⟨_, _, rfl⟩ := bodyInvAll_eq_ok.1 hinv
    exact (bodyStoreImage_image_beyond hstore hn :)
  all_goals exact congrArg (Memory.read · n) (bodyOf_same h (p := .image) (by simp [Part.WrittenBy]))

/-! Elements of STREAM. -/

/-- R246: a PUSH emits at most one byte, at WPTR. -/
theorem bodyPush_stream_ne {v w : Nat} (hp : s.PackerInv) (hw : 1 ≤ w ∧ w ≤ 8)
    (h : bodyPush v w s = .ok t) (hn : n ≠ s.wptr.toNat) : t.stream.read n = s.stream.read n := by
  cases h
  have hbits := (pkPush_bits (p := s.packer) hp.1 hw (Nat.mod_lt v (by positivity : 2 ^ w > 0))).2
  show (pkPush (v % 2 ^ w) w s.packer).out.read n = _
  rcases hbits with ⟨_, _, hout, _⟩ | ⟨_, _, b, hout, _⟩ <;> rw [hout]
  · rfl
  · exact Memory.read_write_ne _ _ hn.symm

theorem bodyFlush_stream_ne (h : bodyFlush s = .ok t) (hn : n ≠ s.wptr.toNat) :
    t.stream.read n = s.stream.read n := by
  cases h
  exact Memory.read_write_ne _ _ hn.symm

/-- R290: QPACK writes the first ENC_LEN bytes of STREAM. -/
theorem bodyQpack_stream_beyond (h : bodyQpack s = .ok t) (hn : s.encLen ≤ n) :
    t.stream.read n = s.stream.read n := by
  obtain ⟨p, cl, hp, rfl⟩ := bodyQpack_eq_ok.1 h
  have hwrote := qpack_wrote (entries_level s) rfl (by rw [entries_encLen]; exact s.encLen_lt) hp
  rw [entries_encLen] at hwrote
  exact hwrote.other n (.inr (by omega))

theorem bodyEncode_stream_beyond (h : bodyEncode s = .ok t) (hn : s.encLen ≤ n) :
    t.stream.read n = s.stream.read n := by
  obtain ⟨u, v, hload, hfwd, hpack⟩ := bodyEncode_eq_ok.1 h
  obtain ⟨_, rfl⟩ := bodyLoadImage_eq_ok.1 hload
  obtain ⟨_, _, rfl⟩ := bodyFwdAll_eq_ok.1 hfwd
  exact (bodyQpack_stream_beyond hpack hn :)

end

/-- Settles O18. A failed command (R332) changes neither a part nor the frame; a completed one is its body's
state, of which `frame_body`, `bodyOf_same` and the lemmas on elements speak. -/
theorem commandFrame : Obligations.CommandFrame := by
  intro i s t hp h
  rcases exec_eq_next h with ⟨e, _, rfl⟩ | ⟨hc, u, hu, rfl⟩
  · exact ⟨⟨rfl, rfl, rfl, rfl, rfl, rfl, rfl, rfl, rfl, rfl⟩, fun _ => rfl,
      fun _ _ => ⟨rfl, rfl, rfl, rfl⟩, fun _ _ => ⟨rfl, rfl, rfl⟩, fun _ => rfl, fun _ => rfl, fun _ => rfl,
      fun _ => rfl, fun _ _ => rfl, fun _ => rfl, fun _ _ => rfl, fun _ _ _ => rfl, fun _ _ _ => rfl,
      fun _ _ _ => rfl, fun _ => rfl, fun _ _ _ => rfl⟩
  · have hframe := frame_body hu
    have hsame := fun p => bodyOf_same hu (p := p)
    refine ⟨⟨hframe.params, hframe.ieDone, hframe.ieErr, hframe.cmd, hframe.pend, hframe.width,
      hframe.height, hframe.levels, hframe.env, hframe.replies⟩, hsame .curLevel, fun hi hpush => ?packer,
      fun hi hpull => ?unpacker, fun hi => hsame .pullData (not_exists.2 hi),
      fun hi => hsame .qCoef (not_exists.2 hi), fun hi => hsame .qIndex (not_exists.2 hi), hsame .image,
      fun _ => bodyOf_image_beyond (t := u) hu, hsame .plane, fun _ => bodyOf_plane_beyond (t := u) hc hu,
      ?forward, ?inverse, ?pushed, ?bpInit, ?packed⟩
    case packer =>
      have hpk := hsame .packer (not_or.2 ⟨hi, fun ⟨v, w, hvw⟩ => hpush v w hvw⟩)
      obtain ⟨hbuf, hfree, hptr, hout⟩ := Packer.mk.inj hpk
      exact ⟨hptr, hbuf, hfree, hout⟩
    case unpacker =>
      have hupk := hsame .unpacker (not_or.2 ⟨hi, not_exists.2 hpull⟩)
      obtain ⟨hbuf, havail, hptr⟩ := Unpacker.mk.inj hupk
      exact ⟨hptr, hbuf, havail⟩
    case forward =>
      rintro (rfl | rfl) n hn
      · exact bodyFwdLevel_plane_outside (t := u) hu (not_inRegion_dimAt hn)
      · exact bodyFwdAll_plane_outside (t := u) hu (not_inRegion_dimAt hn)
    case inverse =>
      rintro rfl n hn
      obtain ⟨_, hlevel, _⟩ := checkInvLevel_eq_none.1 hc
      exact bodyInvLevel_plane_outside (t := u) hu hlevel (not_inRegion_dimAt hn)
    case pushed =>
      rintro (rfl | ⟨v, w, rfl⟩) n hn
      · exact bodyFlush_stream_ne (t := u) hu hn
      · exact bodyPush_stream_ne (t := u) hp (checkPush_eq_none.1 hc).1 hu hn
    case bpInit =>
      rintro rfl
      cases hu
      rfl
    case packed =>
      rintro (rfl | rfl) n hn
      · exact bodyQpack_stream_beyond (t := u) hu hn
      · exact bodyEncode_stream_beyond (t := u) hu hn

end Sys2Proof.Machine

/-! PROOFS, family 30_encoding. Decoding, the rows of the opcode table and encoding (R130 to R139; O1, O2, O3).
A word decodes to a command exactly when it is in the command's row and holds its fields. -/

namespace Sys2Proof.Machine

/-! The fields of a word. -/

theorem fieldOp_eq (word : Word) : fieldOp word = word.toNat % 2 ^ 8 := by
  simp [fieldOp]

theorem fieldW_eq (word : Word) : fieldW word = word.toNat / 2 ^ 8 % 2 ^ 4 := by
  simp [fieldW, Nat.shiftRight_eq_div_pow]

theorem fieldK_eq (word : Word) : fieldK word = word.toNat / 2 ^ 12 % 2 ^ 3 := by
  simp [fieldK, Nat.shiftRight_eq_div_pow]

theorem fieldV_eq (word : Word) : fieldV word = word.toNat / 2 ^ 16 % 2 ^ 8 := by
  simp [fieldV, Nat.shiftRight_eq_div_pow]

/-- A number put above a word that it does not overlap. -/
theorem toNat_shiftLeft_or {x k : Nat} {low : Word} (hlow : low.toNat < 2 ^ k) (hx : x * 2 ^ k < 2 ^ 32) :
    (BitVec.ofNat 32 x <<< k ||| low).toNat = x * 2 ^ k + low.toNat := by
  rw [Nat.mul_comm] at hx ⊢
  rw [Nat.two_pow_add_eq_or_of_lt hlow, BitVec.toNat_or, BitVec.toNat_shiftLeft, BitVec.toNat_ofNat,
    Nat.shiftLeft_eq, Nat.mod_mul_mod, Nat.mul_comm, Nat.mod_eq_of_lt hx]

/-- A number put at the place of a field reads back as the field. -/
theorem field_shiftLeft_or {x k n : Nat} {low : Word} (hx : x < 2 ^ n) (hk : n + k ≤ 32)
    (hlow : low.toNat < 2 ^ k) : (BitVec.ofNat 32 x <<< k ||| low).toNat / 2 ^ k % 2 ^ n = x := by
  have hfit : x * 2 ^ k < 2 ^ 32 :=
    calc x * 2 ^ k < 2 ^ n * 2 ^ k := Nat.mul_lt_mul_of_pos_right hx (Nat.two_pow_pos k)
      _ = 2 ^ (n + k) := (Nat.pow_add 2 n k).symm
      _ ≤ 2 ^ 32 := Nat.pow_le_pow_right (by decide) hk
  rw [toNat_shiftLeft_or hlow hfit, Nat.mul_comm, Nat.mul_add_div (Nat.two_pow_pos k), Nat.div_eq_of_lt hlow,
    Nat.add_zero, Nat.mod_eq_of_lt hx]

/-- A field of a word, back at its place. -/
theorem field_shiftLeft (word : Word) (k n : Nat) :
    BitVec.ofNat 32 (word.toNat / 2 ^ k % 2 ^ n) <<< k = word &&& (BitVec.ofNat 32 (2 ^ n - 1) <<< k) := by
  apply BitVec.eq_of_getLsbD_eq
  intro i hi
  simp only [BitVec.getLsbD_shiftLeft, BitVec.getLsbD_and, BitVec.getLsbD_ofNat, Nat.testBit_mod_two_pow,
    Nat.testBit_div_two_pow, Nat.testBit_two_pow_sub_one, BitVec.testBit_toNat]
  by_cases hk : i < k
  · simp [hk]
  · rw [Nat.sub_add_cancel (not_lt.1 hk)]
    simp [hi, hk, Bool.and_comm, show i - k < 32 by omega, -BitVec.getLsbD_eq_getElem]

/-! The opcode table. -/

/-- R134: the opcodes of the table. -/
def LegalOp (op : Nat) : Prop := op ≤ 0x0A ∨ (0x10 ≤ op ∧ op ≤ 0x13) ∨ op = 0x20 ∨ op = 0x21

theorem legalOp_op (i : Instr) : LegalOp i.op.toNat := by
  unfold LegalOp; cases i <;> simp [Instr.op]

theorem instrOf_eq_none {op : Nat} (h : ¬ LegalOp op) (w k v : Nat) : instrOf op w k v = none := by
  unfold LegalOp at h
  unfold instrOf
  split
  case h_18 => rfl
  all_goals omega

theorem exists_instrOf_of_legalOp {op : Nat} (h : LegalOp op) (w k v : Nat) :
    ∃ i, instrOf op w k v = some i := by
  rcases h with h | ⟨hlo, hhi⟩ | rfl | rfl
  · interval_cases op <;> exact ⟨_, rfl⟩
  · interval_cases op <;> exact ⟨_, rfl⟩
  · exact ⟨_, rfl⟩
  · exact ⟨_, rfl⟩

theorem usedMask_eq (op : Nat) : usedMask op = if op = 0x11 then 0x00FF0F00 else if op = 0x13 then 0x00000F00
    else if op = 0x20 ∨ op = 0x21 then 0x00007000 else 0x00000000 := by
  unfold usedMask
  split <;> simp_all

theorem instrOf_eq_some_iff {word : Word} {i : Instr} :
    instrOf (fieldOp word) (fieldW word) (fieldK word) (fieldV word) = some i ↔
      fieldOp word = i.op.toNat ∧ FieldsOf word i := by
  constructor
  · intro h
    unfold instrOf at h
    split at h
    case h_18 => cases h
    all_goals
      rename_i hop
      obtain rfl := Option.some.inj h
      exact ⟨hop, by simp [FieldsOf, fieldW_eq, fieldK_eq, fieldV_eq]⟩
  · rintro ⟨hop, hf⟩
    rw [hop, fieldW_eq, fieldK_eq, fieldV_eq]
    cases i
    case push => obtain ⟨rfl, rfl⟩ := hf; rfl
    case pull => obtain rfl := hf; rfl
    case quant => obtain rfl := hf; rfl
    case dequant => obtain rfl := hf; rfl
    all_goals rfl

/-! Rows of the opcode table (R134). -/

/-- R135: the bits of a word that its opcode does not use. -/
def reservedBits (word : Word) : Word := word &&& ~~~(0x000000FF ||| usedMask (fieldOp word))

/-- R134, R135: the mask of a row is OP and the bits its command does not use. -/
theorem rowMask_eq (i : Instr) : i.rowMask = 0x000000FF ||| ~~~(0x000000FF ||| usedMask i.op.toNat) := by
  cases i <;> simp [Instr.rowMask, Instr.op, usedMask]

theorem rowMatch_eq_op (i : Instr) : i.rowMatch = i.op := by
  cases i <;> rfl

theorem op_and_ff (i : Instr) : i.op &&& 0x000000FF = i.op := by
  cases i <;> simp [Instr.op]

theorem and_ff_eq_op_iff {word : Word} {i : Instr} :
    word &&& 0x000000FF = i.op ↔ fieldOp word = i.op.toNat := by
  rw [BitVec.toNat_eq, BitVec.toNat_and, fieldOp_eq]
  exact iff_of_eq (congrArg (· = _) (Nat.and_two_pow_sub_one_eq_mod word.toNat 8))

/-- A word matches under two disjoint masks when it matches under the one and is 0 under the other. -/
theorem and_or_eq_iff {word a r m : Word} (har : a &&& r = 0) (hm : m &&& a = m) :
    word &&& (a ||| r) = m ↔ word &&& a = m ∧ word &&& r = 0 := by
  simp only [BitVec.eq_of_getElem_eq_iff, BitVec.getElem_and, BitVec.getElem_or, BitVec.ofNat_eq_ofNat,
    BitVec.getElem_zero] at har hm ⊢
  grind

theorem rowMatches_iff {word : Word} {i : Instr} : i.rowMatches word ↔
    fieldOp word = i.op.toNat ∧ reservedBits word = 0 := by
  have hdisjoint : (0x000000FF : Word) &&& ~~~(0x000000FF ||| usedMask i.op.toNat) = 0 := by grind
  rw [Instr.rowMatches, rowMatch_eq_op, rowMask_eq, and_or_eq_iff hdisjoint (op_and_ff i), and_ff_eq_op_iff]
  exact and_congr_right fun h => by rw [reservedBits, h]

theorem decode_of_none {word : Word}
    (h : instrOf (fieldOp word) (fieldW word) (fieldK word) (fieldV word) = none) :
    decode word = .error .illegalOp := by
  rw [decode, h]

theorem decode_of_some {word : Word} {i : Instr}
    (h : instrOf (fieldOp word) (fieldW word) (fieldK word) (fieldV word) = some i) :
    decode word = if reservedBits word = 0 then .ok i else .error .rsvdField := by
  rw [decode, h, ← reservedBits, ← ite_not]

/-- R135: a word is the command whose row it is in and whose fields are its own. -/
theorem decode_eq_ok_iff {word : Word} {i : Instr} :
    decode word = .ok i ↔ i.rowMatches word ∧ FieldsOf word i := by
  rw [rowMatches_iff, and_right_comm, ← instrOf_eq_some_iff]
  cases h : instrOf (fieldOp word) (fieldW word) (fieldK word) (fieldV word) with
  | none => simp [decode_of_none h]
  | some j =>
    rw [decode_of_some h]
    split
    case isTrue hr => simp [hr]
    case isFalse hr => exact iff_of_false nofun fun hj => hr hj.2

theorem decode_illegalOp {word : Word} (h : ¬ LegalOp (fieldOp word)) : decode word = .error .illegalOp :=
  decode_of_none (instrOf_eq_none h _ _ _)

theorem decode_rsvdField {word : Word} (h : LegalOp (fieldOp word)) (hr : reservedBits word ≠ 0) :
    decode word = .error .rsvdField := by
  obtain ⟨i, hi⟩ := exists_instrOf_of_legalOp h (fieldW word) (fieldK word) (fieldV word)
  rw [decode_of_some hi, if_neg hr]

theorem exists_decode_eq_ok {word : Word} (h : LegalOp (fieldOp word)) (hr : reservedBits word = 0) :
    ∃ i, decode word = .ok i := by
  obtain ⟨i, hi⟩ := exists_instrOf_of_legalOp h (fieldW word) (fieldK word) (fieldV word)
  exact ⟨i, by rw [decode_of_some hi, if_pos hr]⟩

/-! Encoding. -/

theorem toNat_encode_push {v w : Nat} (hv : v ≤ 255) (hw : w ≤ 15) :
    (encode (.push v w)).toNat = v * 2 ^ 16 + (w * 2 ^ 8 + 0x11) := by
  have hlow : (BitVec.ofNat 32 w <<< 8 ||| (0x11 : Word)).toNat = w * 2 ^ 8 + 0x11 :=
    toNat_shiftLeft_or (by decide) (by omega)
  rw [encode, Instr.fieldBits, Instr.op, BitVec.or_assoc, toNat_shiftLeft_or (by omega) (by omega), hlow]

/-- R130, R132: the fields of an encoding are those of its command. -/
theorem fieldsOf_encode {i : Instr} (h : i.wellFormed = true) : FieldsOf (encode i) i := by
  cases i
  case push v w =>
    obtain ⟨hv, hw⟩ : v ≤ 255 ∧ w ≤ 15 := by simpa [Instr.wellFormed] using h
    rw [FieldsOf, toNat_encode_push hv hw]
    omega
  case pull w =>
    have hw : w ≤ 15 := of_decide_eq_true h
    exact (field_shiftLeft_or (low := 0x13) (k := 8) (n := 4) (by omega) (by decide) (by decide)).symm
  case quant k =>
    have hk : k ≤ 7 := of_decide_eq_true h
    exact (field_shiftLeft_or (low := 0x20) (k := 12) (n := 3) (by omega) (by decide) (by decide)).symm
  case dequant k =>
    have hk : k ≤ 7 := of_decide_eq_true h
    exact (field_shiftLeft_or (low := 0x21) (k := 12) (n := 3) (by omega) (by decide) (by decide)).symm
  all_goals trivial

theorem rowMatches_encode {i : Instr} (h : i.wellFormed = true) : i.rowMatches (encode i) := by
  cases i
  case push v w => exact Laws.Encoding.push v w h
  case pull w => exact Laws.Encoding.pull w h
  case quant k => exact Laws.Encoding.quant k h
  case dequant k => exact Laws.Encoding.dequant k h
  all_goals rfl

/-- Settles O1: the word of a command is in the command's row and holds its fields. -/
theorem decodeEncodeRoundTrip : Obligations.DecodeEncodeRoundTrip :=
  fun _ h => decode_eq_ok_iff.2 ⟨rowMatches_encode h, fieldsOf_encode h⟩

/-- R132, R139: the fields of a word fit their bits. -/
theorem wellFormed_of_fieldsOf {word : Word} {i : Instr} (h : FieldsOf word i) : i.wellFormed = true := by
  cases i
  case push v w =>
    obtain ⟨rfl, rfl⟩ := h
    simp only [Instr.wellFormed, Bool.and_eq_true, decide_eq_true_eq]
    omega
  case pull w => obtain rfl := h; exact decide_eq_true (by omega)
  case quant k => obtain rfl := h; exact decide_eq_true (by omega)
  case dequant k => obtain rfl := h; exact decide_eq_true (by omega)
  all_goals rfl

/-- R130: the used fields of a word at their places are its bits outside the mask of the row. -/
theorem fieldBits_of_fieldsOf {word : Word} {i : Instr} (h : FieldsOf word i) :
    i.fieldBits = word &&& ~~~i.rowMask := by
  cases i
  case push v w =>
    obtain ⟨rfl, rfl⟩ := h
    rw [Instr.fieldBits, Instr.rowMask, field_shiftLeft, field_shiftLeft, ← BitVec.and_or_distrib_left]
    rfl
  case pull w => obtain rfl := h; rw [Instr.fieldBits, Instr.rowMask, field_shiftLeft]; rfl
  case quant k => obtain rfl := h; rw [Instr.fieldBits, Instr.rowMask, field_shiftLeft]; rfl
  case dequant k => obtain rfl := h; rw [Instr.fieldBits, Instr.rowMask, field_shiftLeft]; rfl
  all_goals exact BitVec.and_zero.symm

/-- R139: a word in the row of a command with its fields is the encoding of the command. -/
theorem encode_of_rowMatches {word : Word} {i : Instr} (hrow : i.rowMatches word) (hf : FieldsOf word i) :
    encode i = word := by
  rw [encode, fieldBits_of_fieldsOf hf, ← rowMatch_eq_op, ← show word &&& i.rowMask = i.rowMatch from hrow,
    ← BitVec.and_or_distrib_left, BitVec.or_comm, BitVec.or_not_self, BitVec.and_allOnes]

/-- R134: a word decodes exactly when it is in a row, to the command of that row with the word's fields. -/
theorem exists_decode_iff {word : Word} : (∃ i, decode word = .ok i) ↔ ∃ i : Instr, i.rowMatches word := by
  refine ⟨fun ⟨i, hi⟩ => ⟨i, (decode_eq_ok_iff.1 hi).1⟩, fun ⟨i, hi⟩ => ?_⟩
  obtain ⟨hop, hr⟩ := rowMatches_iff.1 hi
  exact exists_decode_eq_ok (hop ▸ legalOp_op i) hr

/-- Settles O2. A word in two rows has one OP field, so the rows are of one opcode. -/
theorem decodedWordIsInItsRow : Obligations.DecodedWordIsInItsRow := by
  refine ⟨fun _ => exists_decode_iff, fun word i h => ?_, fun word i j hi hj => ?_⟩
  · obtain ⟨hrow, hf⟩ := decode_eq_ok_iff.1 h
    exact ⟨wellFormed_of_fieldsOf hf, hrow, encode_of_rowMatches hrow hf⟩
  · exact BitVec.eq_of_toNat_eq ((rowMatches_iff.1 hi).1.symm.trans (rowMatches_iff.1 hj).1)

/-- Settles O3: the statement's OP, used bits and legal opcodes are those of `decode`. -/
theorem decodingFollowsTheFields : Obligations.DecodingFollowsTheFields := by
  intro word op used legal
  have hop : op = fieldOp word := (fieldOp_eq word).symm
  have hused : used = usedMask (fieldOp word) := by rw [← hop]; exact (usedMask_eq op).symm
  have hlegal : legal ↔ LegalOp (fieldOp word) := by rw [← hop]; exact Iff.rfl
  clear_value op used legal
  rw [hlegal, hused, ← reservedBits]
  refine ⟨decode_illegalOp, decode_rsvdField, fun h hr => ?_⟩
  obtain ⟨i, hi⟩ := exists_decode_eq_ok h hr
  obtain ⟨hrow, hf⟩ := decode_eq_ok_iff.1 hi
  exact ⟨i, hi, by rw [hop, (rowMatches_iff.1 hrow).1], hf⟩

end Sys2Proof.Machine


/-! PROOFS, family 30_encoding. The encoding examples (R142; O4). -/

namespace Sys2Proof.Machine

/-- R142, R246: the word 0x00000011 has W = 0. -/
theorem exec_push_zero (s : State) : exec (.push 0 0) s = .next (s.failedWith 5) :=
  exec_of_check (e := .badWidth) rfl

/-- Settles O4. -/
theorem encodingExamples : Obligations.EncodingExamples := by
  refine ⟨?decoded, ?encoded, ?errors, ?width, exec_push_zero⟩
  all_goals decide

end Sys2Proof.Machine

/-! PROOFS, family 30_encoding. Host programs (R140, R141; O60): WAIT, RUN, SETCFG, CLRST and FILL. -/

namespace Sys2Proof.Machine

/-! Runs of turns. -/

theorem HostSystem.run_cons_of_next {h h' : HostSystem} {t : Turn} (ht : h.turn t = .next h')
    (ts : List Turn) : HostSystem.run (t :: ts) h = HostSystem.run ts h' := by
  rw [HostSystem.run, ht]

theorem HostSystem.run_cons_of_fault {h : HostSystem} {t : Turn} {f : Fault} (ht : h.turn t = .fault f)
    (ts : List Turn) : HostSystem.run (t :: ts) h = .fault f := by
  rw [HostSystem.run, ht]

/-! WAIT. -/

/-- R36: BUSY is bit 0 of STATUS. -/
theorem getLsbD_zero_statusWord (s : State) : s.statusWord.getLsbD 0 = s.busy := by
  rw [statusWord_eq, BitVec.getLsbD_ofNat, Nat.testBit_zero]
  cases s.busy <;> simp <;> omega

/-- R380: STATUS reads as usual while BUSY = 1. -/
theorem busRead_status (s : State) : s.busRead (regAddr .status) = .ok (.read s.statusWord .okay) := by
  simp [State.busRead, busTarget_regAddr, Reg.readableWhileBusy, State.regRead]

/-! RUN. -/

/-- R53, R141: RUN's first line on an idle machine is the accept step. -/
theorem turn_wr_cmd {s : State} (hb : s.busy = false) (word : Word) (ops : List HostOp) :
    HostSystem.turn { prog := .wr (regAddr .cmd) word :: ops, mach := s } .host =
      .next { prog := ops, mach := (s.accept word).record (.write .okay) } := by
  rw [HostSystem.turn_wr, State.writeEvent, busWrite_regAddr hb, State.regWrite]

/-- R54: the core's turn on a busy machine ends with BUSY = 0. -/
theorem busy_of_stepOn_core {s t : State} (hb : s.busy = true) (h : s.stepOn .core = .next t) :
    t.busy = false := by
  rw [State.stepOn, step_of_env_core rfl] at h
  rcases coreStep_of_busy hb with ⟨u, hu, hidle, _⟩ | ⟨f, hf, _⟩
  · obtain rfl := Host.Outcome.next.inj (hu.symm.trans h)
    exact hidle
  · cases hf.symm.trans h

/-- R53, R141: an idle machine after the accept step and `n` polls of STATUS. -/
def State.polled (s : State) (word : Word) (n : Nat) : State :=
  { s.accept word with
    replies := s.replies ++ .write .okay :: List.replicate n (.read (s.accept word).statusWord .okay) }

/-- R141: RUN up to the core's turn. -/
theorem run_hostRun_polls {s : State} (hb : s.busy = false) (word : Word) (ops : List HostOp) (n : Nat)
    (ts : List Turn) :
    HostSystem.run (.host :: List.replicate n .host ++ ts) { prog := hostRun word ++ ops, mach := s } =
      HostSystem.run ts { prog := hostWait ++ ops, mach := s.polled word n } := by
  calc _ = HostSystem.run (List.replicate n .host ++ ts)
        { prog := hostWait ++ ops, mach := (s.accept word).record (.write .okay) } :=
        HostSystem.run_cons_of_next (turn_wr_cmd hb word (hostWait ++ ops)) _
    _ = _ := by
        refine (HostSystem.run_polls ops ts n _ rfl).trans ?_
        simp [State.polled, State.record, State.statusWord, hostWait]

/-- R54, R141: RUN whose command completes: the next poll reads BUSY = 0 and ends WAIT. -/
theorem run_hostRun_of_next {s t : State} (hb : s.busy = false) (word : Word) (ops : List HostOp) (n : Nat)
    (h : (s.polled word n).stepOn .core = .next t) :
    HostSystem.run (.host :: List.replicate n .host ++ [.core, .host])
        { prog := hostRun word ++ ops, mach := s } =
      .next { prog := ops, mach := t.record (.read t.statusWord .okay) } := by
  have hcore : HostSystem.turn { prog := hostWait ++ ops, mach := s.polled word n } .core =
      .next { prog := hostWait ++ ops, mach := t } := by rw [HostSystem.turn_core, h, HostSystem.lift]
  have hlast := HostSystem.turn_wait t ops
  rw [busy_of_stepOn_core (s := s.polled word n) rfl h, if_neg Bool.false_ne_true] at hlast
  rw [run_hostRun_polls hb, HostSystem.run_cons_of_next hcore]
  exact HostSystem.run_cons_of_next hlast []

/-- R65, R141: RUN whose command stops on an element that holds ⊥. -/
theorem run_hostRun_of_fault {s : State} {f : Fault} (hb : s.busy = false) (word : Word) (ops : List HostOp)
    (n : Nat) (h : (s.polled word n).stepOn .core = .fault f) :
    HostSystem.run (.host :: List.replicate n .host ++ [.core, .host])
      { prog := hostRun word ++ ops, mach := s } = .fault f := by
  rw [run_hostRun_polls hb]
  exact HostSystem.run_cons_of_fault (by rw [HostSystem.turn_core, h, HostSystem.lift]) _

/-- Settles O60: RUN's machine before the core's turn is `State.polled`. -/
theorem hostProgramPseudoInstructions : Obligations.HostProgramPseudoInstructions := by
  refine ⟨fun s ops => ?wait, fun s word ops n hb => ?run, fun _ => rfl, fun _ _ _ => rfl, rfl,
    fun ds i => ?fill⟩
  case wait =>
    exact ⟨s.statusWord, getLsbD_zero_statusWord s, busRead_status s, HostSystem.turn_wait s ops⟩
  case run =>
    refine ⟨List.replicate n (.read (s.accept word).statusWord .okay), List.length_replicate,
      fun r hr => ⟨_, List.eq_of_mem_replicate hr, getLsbD_zero_statusWord _⟩, fun t ht => ?_,
      fun f hf => run_hostRun_of_fault hb word ops n hf⟩
    have hidle : t.busy = false := busy_of_stepOn_core (s := s.polled word n) rfl ht
    exact ⟨t.statusWord, (getLsbD_zero_statusWord t).trans hidle, busRead_status t,
      run_hostRun_of_next hb word ops n ht⟩
  case fill =>
    simp only [getElem?_hostFill, elemAddr, windowBase, Nat.zero_add, and_self]

end Sys2Proof.Machine

/-! PROOFS, family 40_transform. Illegal levels (R331; O21), one level as an exact next state and element by
element (R172, R176; O42, O43), and all levels as repeated ones (R180, R182; O44). -/

namespace Sys2Proof.Machine

/-! Illegal levels. -/

/-- R333, R331: with CFG_OK the check of the configuration passes, so a level test that comes next and holds
is the one reported. -/
theorem exec_of_badLevel {i : Instr} {s : State} {bad : Prop} [Decidable bad] {cs : List (Bool × CmdError)}
    (hc : s.CfgOk) (hi : checksOf i s = firstError ((!s.cfgOk, .badConfig) :: (decide bad, .badLevel) :: cs))
    (hbad : bad) : exec i s = .next (s.failedWith 4) := by
  refine exec_of_check (e := .badLevel) (hi.trans ?_)
  simp [(cfgOk_iff s).2 hc, hbad]

/-- Settles O21: the level test is the second check of each of the five commands. -/
theorem illegalLevelFails : Obligations.IllegalLevelFails := fun _ hc =>
  ⟨exec_of_badLevel hc rfl, exec_of_badLevel hc rfl,
    fun h => ⟨exec_of_badLevel hc rfl h, exec_of_badLevel hc rfl h⟩, exec_of_badLevel hc rfl⟩

/-! The transform commands as exact next states. -/

/-- The state with another plane and another CUR_LEVEL: all that a transform command changes before it
completes. -/
def State.transformed (s : State) (p : Memory Word) (c : BitVec 3) : State :=
  { s with plane := p, curLevel := c }

/-- Two transforms that end with the plane and the level they started from only complete. -/
theorem State.transformed_back {s : State} (p : Memory Word) (c : BitVec 3) {c' : BitVec 3}
    (hc : c' = s.curLevel) : ((s.transformed p c).complete.transformed s.plane c').complete = s.complete := by
  rw [hc]; rfl

section

variable {s : State} {p : Memory Word}

theorem exec_fwdLevel_of_ok (hc : s.CfgOk) (hlt : s.curLevel.toNat < s.levels.toNat)
    (hp : fwdLevel s.width.toNat s.height.toNat s.curLevel.toNat s.plane = .ok p) :
    exec .fwdLevel s = .next (s.transformed p (s.curLevel + 1)).complete :=
  exec_of_ok (checkFwdLevel_eq_none.2 ⟨hc, hlt⟩) (bodyFwdLevel_eq_ok.2 ⟨p, hp, rfl⟩)

theorem exec_invLevel_of_ok (hc : s.CfgOk) (h1 : 1 ≤ s.curLevel.toNat)
    (hle : s.curLevel.toNat ≤ s.levels.toNat)
    (hp : invLevel s.width.toNat s.height.toNat s.curLevel.toNat s.plane = .ok p) :
    exec .invLevel s = .next (s.transformed p (s.curLevel - 1)).complete :=
  exec_of_ok (checkInvLevel_eq_none.2 ⟨hc, h1, hle⟩) (bodyInvLevel_eq_ok.2 ⟨p, hp, rfl⟩)

theorem exec_fwdAll_of_ok (hc : s.CfgOk) (hle : s.curLevel.toNat ≤ s.levels.toNat)
    (hp : fwdLevels s.width.toNat s.height.toNat s.curLevel.toNat
      (s.levels.toNat - s.curLevel.toNat) s.plane = .ok p) :
    exec .fwdAll s = .next (s.transformed p s.levels).complete :=
  exec_of_ok (checkAllLevels_eq_none.2 ⟨hc, hle⟩) (bodyFwdAll_eq_ok.2 ⟨p, hp, rfl⟩)

theorem exec_invAll_of_ok (hc : s.CfgOk) (hle : s.curLevel.toNat ≤ s.levels.toNat)
    (hp : invLevels s.width.toNat s.height.toNat s.curLevel.toNat s.plane = .ok p) :
    exec .invAll s = .next (s.transformed p 0).complete :=
  exec_of_ok (checkAllLevels_eq_none.2 ⟨hc, hle⟩) (bodyInvAll_eq_ok.2 ⟨p, hp, rfl⟩)

end

/-- R170: the region `A_c` holds values, said with R16's dimensions. -/
theorem regionPresent_iff {s : State} {c : Nat} : s.RegionPresent c ↔
    Present s.plane s.width.toNat (dimAt s.height.toNat c) (dimAt s.width.toNat c) := by
  rw [dimAt_eq, dimAt_eq]; rfl

/-- R172: a forward level runs on a region that holds values. -/
theorem State.RegionPresent.fwdLevel_runs {s : State} {c : Nat} (h : s.RegionPresent c) :
    ∃ p, fwdLevel s.width.toNat s.height.toNat c s.plane = .ok p :=
  ⟨_, fwdLevel_eq_ok.2 ⟨regionPresent_iff.1 h, rfl⟩⟩

/-- R176: an inverse level runs when the region of the level below holds values. -/
theorem State.RegionPresent.invLevel_runs {s : State} {c : Nat} (h1 : 1 ≤ c) (h : s.RegionPresent (c - 1)) :
    ∃ p, invLevel s.width.toNat s.height.toNat c s.plane = .ok p :=
  ⟨_, invLevel_eq_ok.2
    ⟨(regionPresent_iff.1 h).mono (two_dimAt_le_pred h1) (two_dimAt_le_pred h1), rfl⟩⟩

/-! One level, element by element. -/

/-- Settles O42: the region's dimensions are twice those of the next level's subbands (`dimAt_double`), and
`fwdLevel_elem` gives each subband. -/
theorem fwdLevelTransformsTheRegion : Obligations.FwdLevelTransformsTheRegion := by
  rintro s _ _ _ hc hlt hreg rfl rfl rfl
  obtain ⟨p, hp⟩ := hreg.fwdLevel_runs
  have ⟨_, _, _, hw, hh⟩ := hc
  simp only [← dimAt_eq, ← dimAt_succ]
  refine ⟨p, exec_fwdLevel_of_ok hc hlt hp, fun i hi j hj a b c d ha hb hc' hd => ?_, fun x hx => ?_⟩
  · have helem := fun b => fwdLevel_elem (dimAt_double hw hlt) (dimAt_double hh hlt) hp b hi hj
    simp only [fwdSubband_eq, planeAt_eq ha, planeAt_eq hb, planeAt_eq hc', planeAt_eq hd] at helem
    exact ⟨helem .ll, helem .lh, helem .hl, helem .hh⟩
  · exact (read_fwdLevel hp x).trans (if_neg ((not_inRegion_iff (dimAt_le _ _)).2 hx))

/-- Settles O43: `invLevel_elem` gives the four values of each block. -/
theorem invLevelRestoresTheRegion : Obligations.InvLevelRestoresTheRegion := by
  rintro s _ _ _ hc h1 hle hreg rfl rfl rfl
  obtain ⟨p, hp⟩ := hreg.invLevel_runs h1
  simp only [← dimAt_eq]
  refine ⟨p, exec_invLevel_of_ok hc h1 hle hp, fun i hi j hj ll lh hl hh hll hlh hhl hhh => ?_,
    fun x hx => ?_⟩
  · exact invLevel_elem h1 hp hi hj (planeAt_eq hll) (planeAt_eq hlh) (planeAt_eq hhl) (planeAt_eq hhh)
  · exact (read_invLevel h1 hp x).trans (if_neg ((not_inRegion_iff (two_dimAt_le h1)).2 hx))

/-! All levels. -/

/-- One command of a sequence completes without an error. -/
theorem runCommands_cons_of_next {i : Instr} {is : List Instr} {s t : State} (h : exec i s = .next t)
    (ht : t.errv = false) : runCommands (i :: is) s = runCommands is t := by
  simp [runCommands, h, ht]

theorem fwdLevels_succ_eq_ok {w h c n : Nat} {p p' : Memory Word} : fwdLevels w h c (n + 1) p = .ok p' ↔
    ∃ q, fwdLevel w h c p = .ok q ∧ fwdLevels w h (c + 1) n q = .ok p' := by
  rw [fwdLevels]; cases fwdLevel w h c p <;> simp

theorem invLevels_succ_eq_ok {w h c : Nat} {p p' : Memory Word} : invLevels w h (c + 1) p = .ok p' ↔
    ∃ q, invLevel w h (c + 1) p = .ok q ∧ invLevels w h c q = .ok p' := by
  rw [invLevels]; cases invLevel w h (c + 1) p <;> simp

/-- R40: below LEVELS, CUR_LEVEL + 1 does not wrap. -/
theorem toNat_level_succ {c l : BitVec 3} (h : c.toNat < l.toNat) : (c + 1).toNat = c.toNat + 1 := by
  bv_omega

/-- R180: `n` commands FWD_LEVEL leave what `n` forward levels leave; BUSY and DONE are as the last
completion left them. -/
theorem runCommands_fwdLevel {n : Nat} {s : State} {p : Memory Word} (hv : s.errv = false) (hc : s.CfgOk)
    (hn : s.curLevel.toNat + n = s.levels.toNat)
    (hp : fwdLevels s.width.toNat s.height.toNat s.curLevel.toNat n s.plane = .ok p) :
    ∃ t, runCommands (List.replicate n .fwdLevel) s = some t ∧
      t.complete = (s.transformed p s.levels).complete := by
  induction n generalizing s with
  | zero =>
    obtain rfl := Except.ok.inj hp
    exact ⟨s, rfl, by rw [← BitVec.eq_of_toNat_eq hn]; rfl⟩
  | succ n ih =>
    obtain ⟨q, hq, hrest⟩ := fwdLevels_succ_eq_ok.1 hp
    have hlt : s.curLevel.toNat < s.levels.toNat := by omega
    have hlevel := toNat_level_succ hlt
    obtain ⟨t, ht, hcomp⟩ := ih (s := (s.transformed q (s.curLevel + 1)).complete) hv hc
      (show (s.curLevel + 1).toNat + n = s.levels.toNat by omega)
      (show fwdLevels s.width.toNat s.height.toNat (s.curLevel + 1).toNat n q = .ok p by rwa [hlevel])
    exact ⟨t, (runCommands_cons_of_next (exec_fwdLevel_of_ok hc hlt hq) hv).trans ht, hcomp⟩

/-- R182: CUR_LEVEL commands INV_LEVEL leave what the inverse levels down to level 1 leave. -/
theorem runCommands_invLevel {n : Nat} {s : State} {p : Memory Word} (hv : s.errv = false) (hc : s.CfgOk)
    (hn : s.curLevel.toNat = n) (hle : n ≤ s.levels.toNat)
    (hp : invLevels s.width.toNat s.height.toNat n s.plane = .ok p) :
    ∃ t, runCommands (List.replicate n .invLevel) s = some t ∧
      t.complete = (s.transformed p 0).complete := by
  induction n generalizing s with
  | zero =>
    obtain rfl := Except.ok.inj hp
    have hcur : s.curLevel = 0 := BitVec.eq_of_toNat_eq hn
    exact ⟨s, rfl, by rw [← hcur]; rfl⟩
  | succ n ih =>
    obtain ⟨q, hq, hrest⟩ := invLevels_succ_eq_ok.1 hp
    obtain ⟨t, ht, hcomp⟩ := ih (s := (s.transformed q (s.curLevel - 1)).complete) hv hc
      (show (s.curLevel - 1).toNat = n by bv_omega) (Nat.le_of_succ_le hle) hrest
    exact ⟨t, (runCommands_cons_of_next
      (exec_invLevel_of_ok hc (by omega) (by omega) (by rwa [hn])) hv).trans ht, hcomp⟩

/-- R180: with no level to do no element is read; with one, the region holds values. -/
theorem State.fwdAll_runs {s : State} (h : s.curLevel ≠ s.levels → s.RegionPresent s.curLevel.toNat) :
    ∃ p, fwdLevels s.width.toNat s.height.toNat s.curLevel.toNat (s.levels.toNat - s.curLevel.toNat)
      s.plane = .ok p := by
  by_cases heq : s.curLevel = s.levels
  · rw [heq, Nat.sub_self]; exact ⟨s.plane, rfl⟩
  · exact fwdLevels_runs (regionPresent_iff.1 (h heq))

/-- R182: the same of the inverse levels, which start at CUR_LEVEL and end with the whole plane. -/
theorem State.invAll_runs {s : State} (h : s.curLevel ≠ 0 → s.RegionPresent 0) :
    ∃ p, invLevels s.width.toNat s.height.toNat s.curLevel.toNat s.plane = .ok p := by
  by_cases heq : s.curLevel = 0
  · rw [heq]; exact ⟨s.plane, rfl⟩
  · have hp := regionPresent_iff.1 (h heq)
    rw [dimAt_zero, dimAt_zero] at hp
    exact invLevels_runs hp

/-- Settles O44: the commands one by one and the composite one leave the same completed state. -/
theorem allLevelsAreRepeatedLevels : Obligations.AllLevelsAreRepeatedLevels := by
  refine fun s hv hc hle => ⟨fun hreg => ?fwd, fun hreg => ?inv⟩
  case fwd =>
    obtain ⟨p, hp⟩ := State.fwdAll_runs hreg
    obtain ⟨t, ht, hcomp⟩ := runCommands_fwdLevel hv hc (by omega) hp
    exact ⟨t, ht, congrArg State.curLevel hcomp,
      (exec_fwdAll_of_ok hc hle hp).trans (congrArg _ hcomp.symm)⟩
  case inv =>
    obtain ⟨p, hp⟩ := State.invAll_runs hreg
    obtain ⟨t, ht, hcomp⟩ := runCommands_invLevel hv hc rfl hle hp
    exact ⟨t, ht, congrArg State.curLevel hcomp,
      (exec_invAll_of_ok hc hle hp).trans (congrArg _ hcomp.symm)⟩

end Sys2Proof.Machine

/-! PROOFS, family 40_transform. In the codec domain a level is exact (R174, R177; O45, O46) and the inverse
levels give the plane back bit for bit (R178, R184; O47, O48). -/

namespace Sys2Proof.Machine

/-! The closed forms. -/

/-- R174: the closed form of a forward level, on LL values of level `k`. -/
theorem fwd_codec_val {k : Nat} (hk : k ≤ 6) {a b c d : Word} (ha : CodecLow k a) (hb : CodecLow k b)
    (hc : CodecLow k c) (hd : CodecLow k d) :
    f32Val (fwdQuad .ll a b c d) = (f32Val a + f32Val b + f32Val c + f32Val d) / 4 ∧
    f32Val (fwdQuad .lh a b c d) = (f32Val a + f32Val b - f32Val c - f32Val d) / 4 ∧
    f32Val (fwdQuad .hl a b c d) = (f32Val a - f32Val b + f32Val c - f32Val d) / 4 ∧
    f32Val (fwdQuad .hh a b c d) = (f32Val a - f32Val b - f32Val c + f32Val d) / 4 := by
  obtain ⟨x, hx, ha⟩ := (codecLow_iff (by omega)).1 ha
  obtain ⟨y, hy, hb⟩ := (codecLow_iff (by omega)).1 hb
  obtain ⟨z, hz, hc⟩ := (codecLow_iff (by omega)).1 hc
  obtain ⟨t, ht, hd⟩ := (codecLow_iff (by omega)).1 hd
  have hp : (4 : Nat) ^ k ≤ 4 ^ 6 := Nat.pow_le_pow_right (by omega) hk
  rw [show 149 - 2 * k = 147 - 2 * k + 2 by omega] at ha hb hc hd
  obtain ⟨hll, hlh, hhl, hhh⟩ :=
    fwd_dyadic ⟨by omega, by omega, by omega, by omega⟩ (by omega) ha hb hc hd
  rw [ha.val, hb.val, hc.val, hd.val, pow_add]
  refine ⟨hll.val.trans ?_, hlh.val.trans ?_, hhl.val.trans ?_, hhh.val.trans ?_⟩ <;> push_cast <;> ring

/-- R177: the closed form of an inverse level, on values of the decode side. -/
theorem inv_codec_val {ll lh hl hh : Word} (hll : CodecHalf ll) (hlh : CodecHalf lh) (hhl : CodecHalf hl)
    (hhh : CodecHalf hh) :
    f32Val (add32 (add32 ll lh) (add32 hl hh)) = f32Val ll + f32Val lh + f32Val hl + f32Val hh ∧
    f32Val (sub32 (add32 ll lh) (add32 hl hh)) = f32Val ll + f32Val lh - f32Val hl - f32Val hh ∧
    f32Val (add32 (sub32 ll lh) (sub32 hl hh)) = f32Val ll - f32Val lh + f32Val hl - f32Val hh ∧
    f32Val (sub32 (sub32 ll lh) (sub32 hl hh)) = f32Val ll - f32Val lh - f32Val hl + f32Val hh := by
  obtain ⟨x, hx, hll⟩ := codecHalf_iff.1 hll
  obtain ⟨y, hy, hlh⟩ := codecHalf_iff.1 hlh
  obtain ⟨z, hz, hhl⟩ := codecHalf_iff.1 hhl
  obtain ⟨t, ht, hhh⟩ := codecHalf_iff.1 hhh
  obtain ⟨ha, hb, hc, hd⟩ :=
    inv_dyadic ⟨by omega, by omega, by omega, by omega⟩ (by omega) hll hlh hhl hhh
  rw [hll.val, hlh.val, hhl.val, hhh.val]
  refine ⟨ha.val.trans ?_, hb.val.trans ?_, hc.val.trans ?_, hd.val.trans ?_⟩ <;> push_cast <;> ring

/-- An element known to hold a value with a property, read as `v`. -/
theorem holds_of_read {P : Word → Prop} {m : Memory Word} {x : Nat} {v : Word}
    (h : ∃ u, m.read x = some u ∧ P u) (hv : m.read x = some v) : P v := by
  obtain ⟨u, hu, hP⟩ := h
  obtain rfl := Option.some.inj (hu.symm.trans hv)
  exact hP

/-- Settles O45: O42's elements, whose values and domains are those of R174 and R19. -/
theorem forwardLevelIsExactInTheCodecDomain : Obligations.ForwardLevelIsExactInTheCodecDomain := by
  rintro s _ n m _ hc rfl hlt rfl hn hm hdom
  have hreg : s.RegionPresent s.curLevel.toNat := by
    intro r hr k hk
    exact (hdom r (hm ▸ hr) k (hn ▸ hk)).imp fun _ hv => hv.1
  obtain ⟨p, hexec, helem, _⟩ := fwdLevelTransformsTheRegion s _ n m hc hlt hreg rfl hn hm
  refine ⟨_, hexec, fun i hi j hj a b c d ha hb hc' hd => ?_⟩
  have h6 : s.curLevel.toNat ≤ 6 := by have := hc.1.2; omega
  have hca := holds_of_read (hdom (2 * i) (by omega) (2 * j) (by omega)) ha
  have hcb := holds_of_read (hdom (2 * i) (by omega) (2 * j + 1) (by omega)) hb
  have hcc := holds_of_read (hdom (2 * i + 1) (by omega) (2 * j) (by omega)) hc'
  have hcd := holds_of_read (hdom (2 * i + 1) (by omega) (2 * j + 1) (by omega)) hd
  obtain ⟨hll, hlh, hhl, hhh⟩ := helem i hi j hj a b c d ha hb hc' hd
  obtain ⟨vll, vlh, vhl, vhh⟩ := fwd_codec_val h6 hca hcb hcc hcd
  exact ⟨_, _, _, _, hll, hlh, hhl, hhh, vll, vlh, vhl, vhh, fwd_codec h6 hca hcb hcc hcd⟩

/-- Settles O46: O43's elements, whose values are those of R177. -/
theorem inverseLevelIsExactInTheCodecDomain : Obligations.InverseLevelIsExactInTheCodecDomain := by
  rintro s _ n m _ hc rfl h1 hle rfl hn hm hdom
  have ⟨_, _, _, hwidth, hheight⟩ := hc
  have hreg : s.RegionPresent (s.curLevel.toNat - 1) := by
    rw [regionPresent_iff, dimAt_double hwidth (by omega), dimAt_double hheight (by omega),
      Nat.sub_add_cancel h1, dimAt_eq, dimAt_eq, ← hn, ← hm]
    exact fun r hr k hk => (hdom r hr k hk).imp fun _ hv => hv.1
  obtain ⟨p, hexec, helem, _⟩ := invLevelRestoresTheRegion s _ n m hc h1 hle hreg rfl hn hm
  refine ⟨_, hexec, fun i hi j hj ll lh hl hh hll hlh hhl hhh => ?_⟩
  have hval := inv_codec_val (holds_of_read (hdom i (by omega) j (by omega)) hll)
    (holds_of_read (hdom (m + i) (by omega) j (by omega)) hlh)
    (holds_of_read (hdom i (by omega) (n + j) (by omega)) hhl)
    (holds_of_read (hdom (m + i) (by omega) (n + j) (by omega)) hhh)
  obtain ⟨ha, hb, hc', hd⟩ := helem i hi j hj ll lh hl hh hll hlh hhl hhh
  exact ⟨_, _, _, _, ha, hb, hc', hd, hval⟩

/-! Round trips. -/

/-- Settles O47: `inv_fwdLevel` gives the plane back, and CUR_LEVEL + 1 − 1 is CUR_LEVEL. -/
theorem oneLevelRoundTrip : Obligations.OneLevelRoundTrip := by
  rintro s _ hwf hc rfl hlt hdom
  have ⟨⟨_, hl⟩, _, _, hw, hh⟩ := hc
  have hlevel := toNat_level_succ hlt
  have hlow : LowRegion s.width.toNat s.height.toNat s.curLevel.toNat s.plane := by
    intro r hr k hk
    rw [dimAt_eq] at hr hk
    exact hdom r hr k hk
  obtain ⟨p, hfwd, _, _, hinv⟩ := inv_fwdLevel hw hh hlt hl hlow
  refine ⟨_, exec_fwdLevel_of_ok hc hlt hfwd, hlevel, ?_⟩
  have hback := exec_invLevel_of_ok (s := (s.transformed p (s.curLevel + 1)).complete) (p := s.plane) hc
    (show 1 ≤ (s.curLevel + 1).toNat by omega) (show (s.curLevel + 1).toNat ≤ s.levels.toNat by omega)
    (show invLevel s.width.toNat s.height.toNat (s.curLevel + 1).toNat p = .ok s.plane by
      rw [hlevel]; exact hinv hwf)
  exact hback.trans (congrArg Host.Outcome.next (State.transformed_back p _ (BitVec.add_sub_cancel _ _)))

/-- Settles O48: `invLevels_fwdLevels` from level 0 to LEVELS and back. -/
theorem transformRoundTrip : Obligations.TransformRoundTrip := by
  intro s hwf hc hcur hint
  have ⟨⟨_, hl⟩, _, _, hw, hh⟩ := hc
  have hlow : LowRegion s.width.toNat s.height.toNat 0 s.plane := by
    intro r hr k hk
    rw [dimAt_zero] at hr hk
    obtain ⟨b, hb, hread⟩ := hint _ (planeIndex_lt (rc := (r, k)) hr hk)
    exact ⟨_, hread, codecLow_cvt32 hb⟩
  have h0 : s.curLevel.toNat = 0 := by rw [hcur]; rfl
  obtain ⟨p, hfwd, _, _, hinv⟩ := invLevels_fwdLevels hw hh le_rfl hl hlow
  refine ⟨_, exec_fwdAll_of_ok hc (by omega) (by rw [h0]; exact hfwd), rfl, ?_⟩
  have hback := exec_invAll_of_ok (s := (s.transformed p s.levels).complete) (p := s.plane) hc le_rfl
    (hinv hwf)
  exact hback.trans (congrArg Host.Outcome.next (State.transformed_back p _ hcur.symm))

end Sys2Proof.Machine

/-! PROOFS, family 41_quantizer. `sat_trunc8` and `qdet` as one exact integer, clamped (R210, R212; O28, O29),
and the order of truncating and dividing (R213; O32). -/

namespace Sys2Proof.Machine

/-! Clamping. -/

/-- R210, R212: an exact integer as an index of [0, mx], and whether it was clamped. -/
def clampIndex (mx : Nat) (t : Int) : Nat × Bool :=
  if t < 0 then (0, true) else if mx < t then (mx, true) else (t.toNat, false)

theorem clampIndex_of_neg {mx : Nat} {t : Int} (h : t < 0) : clampIndex mx t = (0, true) := if_pos h

theorem clampIndex_of_mem {mx : Nat} {t : Int} (h0 : 0 ≤ t) (h : t ≤ mx) :
    clampIndex mx t = (t.toNat, false) := by
  unfold clampIndex
  rw [if_neg (by omega), if_neg (by omega)]

theorem clampIndex_eq_false_iff {mx : Nat} {t : Int} {q : Nat} :
    clampIndex mx t = (q, false) ↔ t = q ∧ q ≤ mx := by
  constructor
  · intro h
    unfold clampIndex at h
    split_ifs at h
    all_goals simp only [Prod.mk.injEq, Bool.true_eq_false, and_false, and_true] at h
    omega
  · rintro ⟨rfl, h⟩
    rw [clampIndex_of_mem (Int.natCast_nonneg q) (by exact_mod_cast h), Int.toNat_natCast]

theorem natCast_two_pow_sub_one {R : Type} [Ring R] (n : Nat) : ((2 ^ n - 1 : Nat) : R) = 2 ^ n - 1 := by
  rw [Nat.cast_pred (by positivity), Nat.cast_pow, Nat.cast_ofNat]

/-! Special values. -/

theorem satTrunc8_of_nan {v : Word} (h : f32IsNaN v = true) : satTrunc8 v = (0, true) := if_pos h

theorem satTrunc8_of_inf {v : Word} (h : f32IsInf v = true) :
    satTrunc8 v = if f32Sign v then (0, true) else (255, true) := by
  unfold satTrunc8
  rw [if_neg (by simp [not_nan_of_inf h]), if_pos h]

theorem qdet_of_nan (k : Nat) {v : Word} (h : f32IsNaN v = true) : qdet k v = (0, true) := if_pos h

theorem qdet_of_inf (k : Nat) {v : Word} (h : f32IsInf v = true) :
    qdet k v = if f32Sign v then (0, true) else (2 ^ (8 - k) - 1, true) := by
  unfold qdet
  rw [if_neg (by simp [not_nan_of_inf h]), if_pos h]

/-! Finite values. -/

/-- R210: the integer quotient of `sat_trunc8` is the exact value rounded toward zero. -/
theorem satTrunc8_quotient (v : Word) : (f32Units v).tdiv (2 ^ 149) =
    if 0 ≤ f32Val v then ⌊f32Val v⌋ else ⌈f32Val v⌉ := by
  have hval : f32Val v = (f32Units v : Rat) / ((2 ^ 149 : Nat) : Rat) := by
    unfold f32Val; push_cast; rfl
  have hsign : 0 ≤ f32Val v ↔ 0 ≤ f32Units v := by
    unfold f32Val
    rw [le_div_iff₀ (by positivity), zero_mul, Int.cast_nonneg_iff]
  simp only [hsign]
  rw [hval, Rat.floor_intCast_div_natCast, Rat.ceil_intCast_div_natCast]
  split_ifs with h
  · exact Int.tdiv_eq_ediv_of_nonneg h
  · have hneg : (f32Units v).tdiv (2 ^ 149) = -((-f32Units v).tdiv (2 ^ 149)) := by
      rw [Int.neg_tdiv, Int.neg_neg]
    rw [hneg, Int.tdiv_eq_ediv_of_nonneg (by omega)]
    rfl

/-- R210 on a finite value. -/
theorem satTrunc8_of_finite {v : Word} (h : f32IsFinite v = true) :
    satTrunc8 v = clampIndex 255 (if 0 ≤ f32Val v then ⌊f32Val v⌋ else ⌈f32Val v⌉) := by
  unfold satTrunc8 clampIndex
  simp only [not_nan_of_finite h, not_inf_of_finite h, Bool.false_eq_true, if_false, satTrunc8_quotient]
  rfl

/-- R212 on a finite value. -/
theorem qdet_of_finite (k : Nat) {v : Word} (h : f32IsFinite v = true) :
    qdet k v = clampIndex (2 ^ (8 - k) - 1) ⌊(f32Val v + 255 / 2) / 2 ^ k⌋ := by
  unfold qdet clampIndex
  simp only [not_nan_of_finite h, not_inf_of_finite h, Bool.false_eq_true, if_false, qdet_quotient]

/-- Settles O28, from one lemma a class of encodings. -/
theorem satTruncTruncatesAndSaturates : Obligations.SatTruncTruncatesAndSaturates := by
  refine fun v => ⟨satTrunc8_of_nan, ?_, ?_, ?_⟩
  · rintro rfl; exact satTrunc8_of_inf (by decide)
  · rintro rfl; exact satTrunc8_of_inf (by decide)
  · rintro h _ rfl; exact satTrunc8_of_finite h

/-- Settles O29, from one lemma a class of encodings. -/
theorem qdetFloorsAndClamps : Obligations.QdetFloorsAndClamps := by
  refine fun k v _ _ => ⟨qdet_of_nan k, ?_, ?_, ?_⟩
  · rintro rfl; exact qdet_of_inf k (by decide)
  · rintro rfl; exact qdet_of_inf k (by decide)
  · rintro h _ rfl
    rw [qdet_of_finite k h, clampIndex, natCast_two_pow_sub_one]

/-! Truncating before dividing. -/

/-- R213: below 256 the quotient by 2^k is an index of level `k`. -/
theorem ediv_two_pow_le {k : Nat} (hk : k ≤ 8) {n : Int} (h : n < 256) :
    n / 2 ^ k ≤ ((2 ^ (8 - k) - 1 : Nat) : Int) := by
  rw [natCast_two_pow_sub_one]
  have hlt : n / 2 ^ k < 2 ^ (8 - k) := by
    rw [Int.ediv_lt_iff_lt_mul (by positivity), ← pow_add, Nat.sub_add_cancel hk]
    exact h
  omega

/-- Settles O32. Dividing by 2^k commutes with the floor (`Int.floor_div_natCast`), so from 0 on the two
orders agree and nothing clamps; between −1 and 0 the floor clamps to the 0 that truncation gives. -/
theorem truncationOrderDoesNotMatter : Obligations.TruncationOrderDoesNotMatter := by
  rintro k v x _ hk hfin rfl hlo hhi
  have hfloor : ⌊(f32Val v + 255 / 2) / 2 ^ k⌋ = ⌊f32Val v + 255 / 2⌋ / 2 ^ k := by
    exact_mod_cast Int.floor_div_natCast (f32Val v + 255 / 2) (2 ^ k)
  rw [qdet_of_finite k hfin, hfloor]
  generalize f32Val v + 255 / 2 = x at *
  by_cases h0 : 0 ≤ x
  · have hnonneg : 0 ≤ ⌊x⌋ / 2 ^ k := Int.ediv_nonneg (Int.floor_nonneg.2 h0) (by positivity)
    have hlt : ⌊x⌋ < 256 := Int.floor_lt.2 (by exact_mod_cast hhi)
    rw [clampIndex_of_mem hnonneg (ediv_two_pow_le (by omega) hlt), if_pos h0]
    exact ⟨Int.toNat_of_nonneg hnonneg, by simp [h0]⟩
  · have hneg : ⌊x⌋ / 2 ^ k < 0 :=
      Int.ediv_neg_of_neg_of_pos (Int.floor_lt.2 (by simpa using h0)) (by positivity)
    have hceil : ⌈x⌉ = 0 := Int.ceil_eq_zero_iff.2 ⟨hlo, (not_le.1 h0).le⟩
    rw [clampIndex_of_neg hneg, if_neg h0, hceil]
    exact ⟨by simp, by simpa using h0⟩

end Sys2Proof.Machine

/-! PROOFS, family 41_quantizer. Reconstruction: the value of `deq` (R214; O30) and its distance from the value
quantized (R215; O31). -/

namespace Sys2Proof.Machine

/-- R214: `deq` is exact, as half of an integer. -/
theorem deq_val_half {k q : Nat} (hk : k ≤ 7) (hq : q ≤ 255) :
    f32Val (deq k q) = (((q : Int) * 2 ^ (k + 1) + 2 ^ k - 255 : Int) : Rat) / 2 := by
  have hval := (f32Val_eq_iff (e := 1) (by omega)).2 (deq_dyadic hk hq).units
  rwa [pow_one] at hval

/-- R214: the value of `deq`, at the midpoint of bin `q`. -/
theorem deq_val {k q : Nat} (h1 : 1 ≤ k) (hk : k ≤ 7) (hq : q ≤ 255) :
    f32Val (deq k q) = (q : Rat) * 2 ^ k + 2 ^ (k - 1) - 255 / 2 := by
  obtain ⟨j, rfl⟩ : ∃ j, k = j + 1 := ⟨k - 1, by omega⟩
  rw [deq_val_half hk hq, Nat.add_sub_cancel]
  push_cast
  ring

/-- A power of two from its predecessor, for a level. -/
theorem two_pow_level {k : Nat} (h1 : 1 ≤ k) : (2 : Rat) ^ k = 2 * 2 ^ (k - 1) := by
  rw [← pow_succ', Nat.sub_add_cancel h1]

/-- R212: the bins of level `k` fill [0, 256). -/
theorem bins_mul_width {k : Nat} (hk : k ≤ 8) : (2 : Rat) ^ (8 - k) * 2 ^ k = 256 := by
  rw [← pow_add, Nat.sub_add_cancel hk]; norm_num

/-- Settles O30, from the exact value `deq_val`. -/
theorem deqIsTheBinMidpoint : Obligations.DeqIsTheBinMidpoint := by
  intro k q h1 hk hq
  have hmid := two_pow_level h1
  have hone : (1 : Rat) ≤ 2 ^ (k - 1) := one_le_pow₀ (by norm_num)
  have hle : (2 : Rat) ^ k ≤ 2 ^ 7 := pow_le_pow_right₀ (by norm_num) hk
  have hq0 : (0 : Rat) ≤ q * 2 ^ k := by positivity
  refine ⟨(deq_dyadic hk hq).finite, deq_val h1 hk hq, ⟨_, deq_val_half hk hq⟩, ?_, fun hreal => ?_⟩
  · have hqk : (q : Rat) * 2 ^ k ≤ 255 * 2 ^ 7 :=
      mul_le_mul (by exact_mod_cast hq) hle (by positivity) (by norm_num)
    rw [deq_val h1 hk hq, abs_lt]
    constructor <;> linarith
  · have hbin : ((q : Rat) + 1) * 2 ^ k ≤ 2 ^ (8 - k) * 2 ^ k := by
      refine mul_le_mul_of_nonneg_right ?_ (by positivity)
      have hpos : 0 < 2 ^ (8 - k) := by positivity
      exact_mod_cast (show q + 1 ≤ 2 ^ (8 - k) by omega)
    rw [bins_mul_width (by omega)] at hbin
    rw [deq_val h1 hk hq]
    constructor <;> linarith

/-- R212, R215: a value that is not clamped lies in the bin of its index. -/
theorem mem_bin_of_qdet {k q : Nat} {v : Word} (hfin : f32IsFinite v = true) (h : qdet k v = (q, false)) :
    q ≤ 255 ∧ (q : Rat) * 2 ^ k - 255 / 2 ≤ f32Val v ∧ f32Val v < ((q : Rat) + 1) * 2 ^ k - 255 / 2 := by
  rw [qdet_of_finite k hfin, clampIndex_eq_false_iff, Int.floor_eq_iff, le_div_iff₀ (by positivity),
    div_lt_iff₀ (by positivity)] at h
  obtain ⟨⟨hlo, hhi⟩, hmax⟩ := h
  have hcap : 2 ^ (8 - k) ≤ 2 ^ 8 := Nat.pow_le_pow_right (by norm_num) (Nat.sub_le 8 k)
  push_cast at hlo hhi
  exact ⟨by omega, by linarith, by linarith⟩

theorem f32Val_zero : f32Val 0x00000000 = 0 := by
  have hunits : f32Units 0x00000000 = 0 := by decide
  rw [f32Val, hunits, Int.cast_zero, zero_div]

/-- R215: the bins below the middle one fill [0, 128). -/
theorem half_bins_mul_width {k : Nat} (hk : k ≤ 7) : (2 : Rat) ^ (7 - k) * 2 ^ k = 128 := by
  rw [← pow_add, Nat.sub_add_cancel hk]; norm_num

/-- R215: zero lies in the bin just below the middle one, since 127.5 / 2^k is less than 2^(7−k) by half a
unit at most. -/
theorem qdet_zero {k : Nat} (hk : k ≤ 7) : qdet k 0x00000000 = (2 ^ (7 - k) - 1, false) := by
  have hmul := half_bins_mul_width hk
  have hone : (1 : Rat) ≤ 2 ^ k := one_le_pow₀ (by norm_num)
  rw [qdet_of_finite k (by decide), f32Val_zero, clampIndex_eq_false_iff, Int.floor_eq_iff,
    le_div_iff₀ (by positivity), div_lt_iff₀ (by positivity), Int.cast_natCast,
    natCast_two_pow_sub_one]
  exact ⟨⟨by linarith, by linarith⟩,
    Nat.sub_le_sub_right (Nat.pow_le_pow_right (by norm_num) (by omega)) 1⟩

/-- Settles O31: `deq` is the midpoint of the bin (`deq_val`), half a bin from its ends. -/
theorem quantizationErrorBound : Obligations.QuantizationErrorBound := by
  refine ⟨fun k v q h1 hk hfin h => ?_, fun k h1 hk => ⟨qdet_zero hk, ?_⟩⟩
  · obtain ⟨hq, hlo, hhi⟩ := mem_bin_of_qdet hfin h
    have hmid := two_pow_level h1
    rw [deq_val h1 hk hq]
    exact ⟨⟨hlo, hhi⟩, by linarith, by linarith⟩
  · have hle : 2 ^ (7 - k) ≤ 2 ^ 7 := Nat.pow_le_pow_right (by norm_num) (Nat.sub_le 7 k)
    have hmul := half_bins_mul_width hk
    have hmid := two_pow_level h1
    rw [deq_val h1 hk (by omega), natCast_two_pow_sub_one]
    linarith

end Sys2Proof.Machine

/-! PROOFS, family 41_quantizer. QUANT and DEQUANT (R216, R218; O33). -/

namespace Sys2Proof.Machine

/-- Settles O33: neither command has a check, and an index fits its width (`quantize_lt`). -/
theorem quantizerCommands : Obligations.QuantizerCommands := by
  refine fun s k hk => ⟨fun q cl hq => ⟨?_, ?_⟩, rfl⟩
  · have hlt := quantize_lt hk s.qCoef
    rw [quantize, ← hq] at hlt
    split
    · next h0 => subst h0; exact Nat.le_of_lt_succ hlt
    · exact Nat.le_sub_one_of_lt hlt
  · refine (exec_of_ok rfl rfl).trans ?_
    simp only [quantize, ← hq]
    rfl

end Sys2Proof.Machine

/-! PROOFS, family 41_quantizer. UNPACK_DQ undoes QPACK but for the rounding of each value (R294, R215; O52). -/

namespace Sys2Proof.Machine

/-- The indices QPACK's loop pushes. -/
def schedIndices (w : Nat) (plane : Memory Word) (es : List SchedEntry) : List Nat :=
  es.map fun e => (quantize e.level (planeAt w plane e.pos.1 e.pos.2)).1

theorem schedPushes_eq_zip (w : Nat) (plane : Memory Word) (es : List SchedEntry) :
    schedPushes w plane es = (schedIndices w plane es).zip (es.map SchedEntry.bits) :=
  List.zip_map'.symm

/-- R290: each pushed index fits the width of its entry. -/
theorem schedIndices_lt {w : Nat} {plane : Memory Word} {es : List SchedEntry} (hl : ∀ e ∈ es, e.level ≤ 7) :
    ∀ xw ∈ (schedIndices w plane es).zip (es.map SchedEntry.bits), xw.1 < 2 ^ xw.2 := by
  intro xw hxw
  rw [← schedPushes_eq_zip] at hxw
  obtain ⟨e, he, rfl⟩ := List.mem_map.1 hxw
  exact quantize_lt_bits (hl e he) _

/-- Indices that fit their entries fit the entries' widths. -/
theorem lt_two_pow_of_zip_map_bits {qs : List Nat} {es : List SchedEntry}
    (h : ∀ qe ∈ qs.zip es, qe.1 < 2 ^ qe.2.bits) :
    ∀ xw ∈ qs.zip (es.map SchedEntry.bits), xw.1 < 2 ^ xw.2 := by
  intro xw hxw
  rw [List.zip_map_right] at hxw
  obtain ⟨qe, hqe, rfl⟩ := List.mem_map.1 hxw
  exact h qe hqe

theorem mem_zip_schedIndices {w : Nat} {plane : Memory Word} {es : List SchedEntry} {e : SchedEntry}
    (he : e ∈ es) : ((quantize e.level (planeAt w plane e.pos.1 e.pos.2)).1, e) ∈
      (schedIndices w plane es).zip es := by
  have hmem : ((quantize e.level (planeAt w plane e.pos.1 e.pos.2)).1, e) ∈
      (schedIndices w plane es).zip (es.map id) := by
    rw [schedIndices, List.zip_map']
    exact List.mem_map.2 ⟨e, he, rfl⟩
  rwa [List.map_id] at hmem

/-- R294: UNPACK_DQ's loop, over the stream that QPACK's loop and a flush left, reads back the indices that
were pushed. -/
theorem unpackSched_of_packSched {w : Nat} {src out : Memory Word} {es : List SchedEntry}
    (hl : ∀ e ∈ es, e.level ≤ 7) (hroom : (es.map SchedEntry.bits).sum / 8 + 1 < 2 ^ 32)
    {stream : Memory Byte} {p : Packer} {cl : Bool}
    (h : packSched w src es (Packer.start stream) false = .ok (p, cl)) :
    ∃ u, unpackSched w (pkFlush p).out es Unpacker.start out =
      .ok (u, out.writeAll (schedWrites w (schedIndices w src es) es)) := by
  have hwrote := qpack_wrote hl rfl hroom h
  obtain ⟨qs, u, n', hrun, hlen, hlt, _, _, _, hahead⟩ :=
    unpackSched_ahead (w := w) (stream := (pkFlush p).out) hl (u := Unpacker.start) (Nat.zero_le 7)
      (n := (es.map SchedEntry.bits).sum / 8 + 1) (by omega) hwrote.present (by simpa [Unpacker.start]) out
  -- an unpacker at its start has the whole stream ahead, and a flushed packer has no bit pending
  have hpushed := hahead.trans ((List.append_nil _).symm.trans hwrote.bits)
  rw [schedPushes_eq_zip] at hpushed
  obtain ⟨rfl, _⟩ := pushedBits_inj (by simpa using hlen) (by simp [schedIndices])
    (lt_two_pow_of_zip_map_bits hlt) (schedIndices_lt hl) hpushed
  exact ⟨u, hrun⟩

/-- R294: QPACK and then UNPACK_DQ, as one run: both complete, and the plane is written with the
reconstruction of each index. -/
theorem exec_unpackDq_of_qpack {s : State} (hl : s.params.Legal) (hc : s.CfgOk) (hcur : s.curLevel = s.levels)
    (hp : s.plane.PresentBelow (s.width.toNat * s.height.toNat)) :
    ∃ t u, exec .qpack s = .next t ∧ exec .unpackDq t = .next u ∧ u.curLevel = s.levels ∧
      u.plane = s.plane.writeAll
        (schedWrites s.width.toNat (schedIndices s.width.toNat s.plane s.entries) s.entries) := by
  have hcap := encLen_le_cap hl hc
  have hroom : (s.entries.map SchedEntry.bits).sum / 8 + 1 < 2 ^ 32 := by
    rw [entries_encLen]; exact s.encLen_lt
  have hpack := (packSched_eq_ok (p := Packer.start s.stream) (cl := false)).2
    ⟨entries_present hc hp, rfl, rfl⟩
  have hptr := (qpack_wrote (entries_level s) rfl hroom hpack).ptr
  obtain ⟨u, hunpack⟩ := unpackSched_of_packSched (out := s.plane) (entries_level s) hroom hpack
  rw [entries_encLen, Nat.zero_add] at hptr
  refine ⟨_, _, exec_of_ok (checkQpack_eq_none.2 ⟨hc, hcur, hcap⟩) (bodyQpack_eq_ok.2 ⟨_, _, hpack, rfl⟩),
    exec_of_ok (checkDecode_eq_none.2 ⟨hc, ?_⟩) (bodyUnpackDq_eq_ok.2 ⟨u, _, hunpack, rfl⟩), rfl, rfl⟩
  exact (decLen_le_encLen _ _ _).trans (le_min hptr.ge hcap)

/-- Settles O52: the writes of UNPACK_DQ go to distinct places (`nodup_sched`), so each place holds the
reconstruction of its own index. -/
theorem unpackAfterPackReconstructs : Obligations.UnpackAfterPackReconstructs := by
  intro s hl hc hcur hp
  obtain ⟨t, u, ht, hu, hlevel, hplane⟩ := exec_unpackDq_of_qpack hl hc hcur hp
  have ⟨_, _, _, hw, hh⟩ := hc
  refine ⟨t, u, ht, hu, hlevel.trans hcur.symm, fun e he v hv => ?_⟩
  have hread := (read_schedWrites (w := s.width.toNat) (by simp [schedIndices])
    (fun e he => (entries_pos hc he).2) (nodup_sched hw hh) s.plane).1 _
    (mem_zip_schedIndices (w := s.width.toNat) (plane := s.plane) he)
  rw [← hplane, planeAt_of_read hv] at hread
  refine hread.trans (congrArg some ?_)
  unfold dequantize quantize
  split <;> rfl

end Sys2Proof.Machine

/-! PROOFS, family 42_bitpacker. The checks of W and of the STREAM bounds (R248, R256, R260; O22, O23). -/

namespace Sys2Proof.Machine

theorem firstError_append {cs : List (Bool × CmdError)} (h : firstError cs = none)
    (ds : List (Bool × CmdError)) : firstError (cs ++ ds) = firstError ds := by
  induction cs with
  | nil => rfl
  | cons c cs ih =>
    obtain ⟨hc, hcs⟩ := firstError_cons_eq_none.1 h
    rw [List.cons_append, firstError_cons, hc]
    exact ih hcs

/-- R333, R332: a command whose checks `cs` pass and whose next check does not ends with that error and has
no other effect. -/
theorem exec_of_failing {i : Instr} {s : State} {b : Bool} {cs ds : List (Bool × CmdError)} (e : CmdError)
    (hcs : firstError cs = none) (hb : b = true) (hi : checksOf i s = firstError (cs ++ (b, e) :: ds)) :
    exec i s = .next (s.failedWith e.code) := by
  refine exec_of_check (e := e) ?_
  rw [hi, firstError_append hcs, hb]
  rfl

theorem not_widthOk {w : Nat} (h : w = 0 ∨ 9 ≤ w) : (!widthOk w) = true := by
  rw [Bool.not_eq_true', ← Bool.not_eq_true, widthOk_iff]
  omega

/-- Settles O22: the width test is the first check of both commands. -/
theorem illegalWidthFails : Obligations.IllegalWidthFails := fun _ _ _ hw =>
  ⟨exec_of_failing .badWidth firstError_nil (not_widthOk hw) rfl,
    exec_of_failing .badWidth firstError_nil (not_widthOk hw) rfl⟩

/-- R248: a legal width passes the width test. -/
theorem width_passes {w : Nat} (h1 : 1 ≤ w) (h8 : w ≤ 8) :
    firstError [(!widthOk w, .badWidth)] = none := by
  rw [firstError_cons, widthOk_iff.2 ⟨h1, h8⟩]
  rfl

/-- R15: CFG_OK passes the test of the configuration. -/
theorem State.CfgOk.passes {s : State} (hc : s.CfgOk) : firstError [(!s.cfgOk, .badConfig)] = none :=
  checkConfig_eq_none.2 hc

/-- R290: QPACK's test of CUR_LEVEL, too. -/
theorem State.CfgOk.level_passes {s : State} (hc : s.CfgOk) (hl : s.curLevel = s.levels) :
    firstError [(!s.cfgOk, .badConfig), (decide (s.curLevel ≠ s.levels), .badLevel)] = none :=
  (firstError_append hc.passes _).trans (by simp [hl])

/-- Settles O23: the test against BS_CAP or against min(STREAM_LEN, BS_CAP) is the last check of each
command, and the premises pass the checks before it. -/
theorem streamBoundsFail : Obligations.StreamBoundsFail := by
  intro s
  refine ⟨fun v w h1 h8 h => ?push, fun h => ?flush, fun hc h => ⟨?encode, fun hl => ?qpack⟩,
    fun hc hl => encLen_le_cap hl hc, fun w h1 h8 h => ?pull, fun hc h => ⟨?unpackDq, ?decode⟩⟩
  case push => exact exec_of_failing .streamOverflow (width_passes h1 h8) (decide_eq_true h) rfl
  case flush => exact exec_of_failing .streamOverflow firstError_nil (decide_eq_true h) rfl
  case encode => exact exec_of_failing .streamOverflow hc.passes (decide_eq_true h) rfl
  case qpack => exact exec_of_failing .streamOverflow (hc.level_passes hl) (decide_eq_true h) rfl
  case pull => exact exec_of_failing .streamUnderrun (width_passes h1 h8) (decide_eq_true h) rfl
  case unpackDq => exact exec_of_failing .streamUnderrun hc.passes (decide_eq_true h) rfl
  case decode => exact exec_of_failing .streamUnderrun hc.passes (decide_eq_true h) rfl

end Sys2Proof.Machine

/-! PROOFS, family 42_bitpacker. PUSH, FLUSH and PULL as exact next states (R246, R250, R254; O35, O36). -/

namespace Sys2Proof.Machine

/-! A push in terms of WBUF. -/

/-- R43: the free bits of WBUF are 0, so WBUF is its pending value, left-justified. -/
theorem Packer.Inv.buf_eq {p : Packer} (hp : p.Inv) :
    p.buf.toNat / 2 ^ p.free.toNat * 2 ^ p.free.toNat = p.buf.toNat :=
  Nat.div_mul_cancel (Nat.dvd_of_mod_eq_zero hp.2.2)

/-- R243: a push that leaves free bits adds `x` below the pending bits. -/
theorem Packer.pushed_of_lt {p : Packer} {w : Nat} (hp : p.Inv) (hw : w < p.free.toNat) (x : Nat) :
    p.pushed x w =
      { p with
        buf := BitVec.ofNat 8 (p.buf.toNat + x * 2 ^ (p.free.toNat - w))
        free := BitVec.ofNat 4 (p.free.toNat - w) } := by
  have h8 := hp.2.1
  have hpow : (2 : Nat) ^ p.free.toNat = 2 ^ w * 2 ^ (p.free.toNat - w) := by
    rw [← pow_add, Nat.add_sub_cancel' hw.le]
  have hbuf : (p.buf.toNat / 2 ^ p.free.toNat * 2 ^ w + x) * 2 ^ (p.free.toNat - w) =
      p.buf.toNat + x * 2 ^ (p.free.toNat - w) := by
    rw [Nat.add_mul, Nat.mul_assoc, ← hpow, hp.buf_eq]
  unfold Packer.pushed
  rw [if_pos (by omega), Nat.sub_sub_self h8, hbuf]

/-- R243: a push that fills WBUF puts the top bits of `x` into the byte it emits and the others,
left-justified, into the fresh buffer. -/
theorem Packer.pushed_of_le {p : Packer} {w : Nat} (hp : p.Inv) (hw : p.free.toNat ≤ w) (x : Nat) :
    p.pushed x w =
      { buf := BitVec.ofNat 8 (x % 2 ^ (w - p.free.toNat) * 2 ^ (8 - (w - p.free.toNat)))
        free := BitVec.ofNat 4 (8 - (w - p.free.toNat))
        ptr := p.ptr + 1
        out := p.out.write p.ptr.toNat
          (BitVec.ofNat 8 (p.buf.toNat + x / 2 ^ (w - p.free.toNat))) } := by
  have h8 := hp.2.1
  have htotal : p.buf.toNat / 2 ^ p.free.toNat * 2 ^ w + x = x + p.buf.toNat * 2 ^ (w - p.free.toNat) := by
    rw [Nat.add_comm]
    conv_rhs => rw [← hp.buf_eq, Nat.mul_assoc, ← pow_add, Nat.add_sub_cancel' hw]
  have hleft : 8 - p.free.toNat + w - 8 = w - p.free.toNat := by omega
  have hfree : 16 - (8 - p.free.toNat) - w = 8 - (w - p.free.toNat) := by omega
  unfold Packer.pushed
  rw [if_neg (by omega), htotal, hleft, hfree, Nat.add_mul_mod_self_right,
    Nat.add_mul_div_right _ _ (by positivity), Nat.add_comm (x / _)]

/-! A pull from the bits at hand, and one that fetches. -/

theorem upkPull_of_le {stream : Memory Byte} {w : Nat} {u : Unpacker} (hu : u.Inv) (hw : 1 ≤ w ∧ w ≤ 8)
    (hle : w ≤ u.avail.toNat) : upkPull stream w u = .ok (u.pulledHeld w) :=
  (upkPull_eq hu hw).trans (if_pos hle)

theorem upkPull_of_lt {stream : Memory Byte} {w : Nat} {u : Unpacker} {b : Byte} (hu : u.Inv)
    (hw : 1 ≤ w ∧ w ≤ 8) (hlt : u.avail.toNat < w) (hb : stream.read u.ptr.toNat = some b) :
    upkPull stream w u = .ok (u.pulledFetched w b) := by
  rw [upkPull_eq hu hw, if_neg (not_le.2 hlt), hb]

/-! The commands. -/

/-- R254: the state with another unpacker and a value in PULL_DATA: all that PULL changes before it
completes. -/
def State.pulled (s : State) (r : Nat) (u : Unpacker) : State :=
  { s.withUnpacker u with pullData := BitVec.ofNat 8 r }

section

variable {s : State}

/-- R246: PUSH with its checks passed: the packer after the push of the low bits, STREAM_LEN and VTRUNC. -/
theorem exec_push_of_ok {v w : Nat} (hp : s.PackerInv) (hc : checkPush w s = none) :
    exec (.push v w) s = .next
      ((s.withPacker (s.packer.pushed (v % 2 ^ w) w)).setStreamLen.stickVtrunc
        (decide (2 ^ w ≤ v))).complete := by
  rw [← pkPush_eq (p := s.packer) hp.1 (checkPush_eq_none.1 hc).1 (Nat.mod_lt v (by positivity))]
  exact exec_of_ok hc rfl

/-- R250: FLUSH with its check passed. -/
theorem exec_flush_of_ok (hc : checkFlush s = none) :
    exec .flush s = .next (s.withPacker (pkFlush s.packer)).setStreamLen.complete :=
  exec_of_ok hc rfl

/-- R254: PULL with its checks passed and the bits it needs at hand. -/
theorem exec_pull_of_ok {w r : Nat} {u : Unpacker} (hc : checkPull w s = none)
    (hu : upkPull s.stream w s.unpacker = .ok (r, u)) :
    exec (.pull w) s = .next (s.pulled r u).complete :=
  exec_of_ok hc (bodyPull_eq_ok.2 ⟨r, u, hu, rfl⟩)

end

/-- Settles O35: R246's count of emitted bytes is 0 or 1 as WFREE exceeds w or not. -/
theorem pushAndFlush : Obligations.PushAndFlush := by
  intro s hp
  have hfree := hp.1.1
  have h8 := hp.1.2.1
  refine ⟨?keep, ?fill, fun hcap => ?flush⟩
  case keep =>
    rintro v w x h1 hw8 rfl hlt hcap
    have hemit : pushEmits w s = 0 := by unfold pushEmits; omega
    rw [exec_push_of_ok hp (checkPush_eq_none.2 ⟨⟨h1, hw8⟩, by omega⟩),
      Packer.pushed_of_lt (p := s.packer) hp.1 hlt]
    rfl
  case fill =>
    rintro v w x h1 hw8 rfl hle hcap
    have hemit : pushEmits w s = 1 := by unfold pushEmits; omega
    rw [exec_push_of_ok hp (checkPush_eq_none.2 ⟨⟨h1, hw8⟩, by omega⟩),
      Packer.pushed_of_le (p := s.packer) hp.1 hle]
    exact ⟨_, rfl, Memory.read_write_eq_ite _ _ _⟩
  case flush =>
    rw [exec_flush_of_ok (checkFlush_eq_none.2 hcap)]
    exact ⟨_, rfl, Memory.read_write_eq_ite _ _ _⟩

/-- Settles O36: R254's count of fetched bytes is 0 or 1 as RAVAIL suffices or not. -/
theorem pullTakesTheNextBits : Obligations.PullTakesTheNextBits := by
  intro s w hp h1 h8
  refine ⟨fun hle hbound => ?held, fun b hlt hbound hb => ?fetched⟩
  case held =>
    have hfetch : pullFetches w s = 0 := if_neg (not_lt.2 hle)
    exact exec_pull_of_ok (checkPull_eq_none.2 ⟨⟨h1, h8⟩, by rw [hfetch]; exact hbound⟩)
      (upkPull_of_le (u := s.unpacker) hp.2 ⟨h1, h8⟩ hle)
  case fetched =>
    have hfetch : pullFetches w s = 1 := if_pos hlt
    exact exec_pull_of_ok (checkPull_eq_none.2 ⟨⟨h1, h8⟩, by rw [hfetch]; exact hbound⟩)
      (upkPull_of_lt (u := s.unpacker) hp.2 ⟨h1, h8⟩ hlt hb)

end Sys2Proof.Machine

/-! PROOFS, family 42_bitpacker. What pushes and a flush leave in STREAM, and that PULLs read it back (R252,
R262; O37, O38). -/

namespace Sys2Proof.Machine

/-! Fitting pushes. -/

/-- R246, R262: pushes `(x, w)` with legal widths and values that fit them. -/
def PushesFit (ps : List (Nat × Nat)) : Prop := ∀ xw ∈ ps, 1 ≤ xw.2 ∧ xw.2 ≤ 8 ∧ xw.1 < 2 ^ xw.2

theorem pushesFit_cons {x w : Nat} {ps : List (Nat × Nat)} :
    PushesFit ((x, w) :: ps) ↔ ((1 ≤ w ∧ w ≤ 8) ∧ x < 2 ^ w) ∧ PushesFit ps := by
  simp [PushesFit, and_assoc]

/-- The packer after pushes. -/
def Packer.pushAll (p : Packer) (ps : List (Nat × Nat)) : Packer :=
  ps.foldl (fun p xw => pkPush xw.1 xw.2 p) p

/-- R43, R242: a packer has nothing pending after a flush. -/
theorem pending_pkFlush (p : Packer) : (pkFlush p).pending = [] := rfl

/-- Settles O37: `Packer.Wrote.foldl_flush`, read off field by field. -/
theorem streamHoldsThePushedBits : Obligations.StreamHoldsThePushedBits := by
  rintro p q ps total hfree hbuf hps htotal hroom rfl
  have hwrote := Packer.Wrote.foldl_flush hps hfree hbuf htotal hroom
  have hbits := hwrote.bits
  rw [pending_pkFlush, List.append_nil] at hbits
  exact ⟨hbits, hwrote.present, hwrote.ptr, hwrote.other⟩

/-! The commands that pack. -/

/-- R7: indices of STREAM fit a word. -/
theorem bsCap_lt_of_legal {p : Params} (hl : p.Legal) : p.bsCap < 2 ^ 32 := by
  obtain ⟨_, _, ⟨_, hcap⟩, _⟩ := hl
  omega

theorem runCommands_append {is js : List Instr} {s t : State} (h : runCommands is s = some t) :
    runCommands (is ++ js) s = runCommands js t := by
  induction is generalizing s with
  | nil => cases h; rfl
  | cons i is ih =>
    simp only [List.cons_append, runCommands] at h ⊢
    cases hi : exec i s with
    | fault f => rw [hi] at h; cases h
    | refused r => rw [hi] at h; cases h
    | next u =>
      rw [hi] at h
      cases hu : u.errv with
      | true => simp [hu] at h
      | false => simpa [hu] using ih (by simpa [hu] using h)

/-- R246: the byte a push emits is the one it completes, so WPTR then counts the whole bytes. -/
theorem wptr_add_pushEmits {s : State} {out₀ : Memory Byte} {n w : Nat} {seq : List Bool}
    (hw : s.packer.Wrote out₀ 0 n seq) : s.wptr.toNat + pushEmits w s = (seq.length + w) / 8 := by
  have hptr : s.wptr.toNat = 0 + n := hw.ptr
  obtain ⟨hcount, hfree⟩ := hw.count
  have hemit : pushEmits w s = (8 - s.packer.free.toNat + w) / 8 := rfl
  rw [hfree] at hemit
  omega

/-- R262: pushes of a sequence that fits BS_CAP all succeed, and do to the packer what `pk_push` does. -/
theorem runCommands_pushes {ps : List (Nat × Nat)} (hps : PushesFit ps) {s : State} {out₀ : Memory Byte}
    {n : Nat} {seq : List Bool} (hv : s.errv = false) (hr : s.ravail.toNat ≤ 7)
    (hcap : s.params.bsCap < 2 ^ 32) (hw : s.packer.Wrote out₀ 0 n seq)
    (hfits : (seq.length + (ps.map Prod.snd).sum) / 8 + 1 ≤ s.params.bsCap) :
    ∃ t, runCommands (ps.map fun xw => .push xw.1 xw.2) s = some t ∧ t.packer = s.packer.pushAll ps ∧
      t.unpacker = s.unpacker ∧ t.params = s.params ∧ t.errv = false := by
  induction ps generalizing s n seq with
  | nil => exact ⟨s, rfl, rfl, rfl, rfl, hv⟩
  | cons xw ps ih =>
    obtain ⟨x, w⟩ := xw
    obtain ⟨⟨hwidth, hx⟩, hfit⟩ := pushesFit_cons.1 hps
    rw [List.map_cons, List.sum_cons] at hfits
    have hcheck : checkPush w s = none := by
      refine checkPush_eq_none.2 ⟨hwidth, ?_⟩
      rw [wptr_add_pushEmits hw]
      omega
    have hpush := exec_push_of_ok (v := x) ⟨hw.inv, hr⟩ hcheck
    rw [Nat.mod_eq_of_lt hx, ← pkPush_eq hw.inv hwidth hx] at hpush
    have hroom : 0 + n + 1 < 2 ^ 32 := by
      have := hw.count.1
      omega
    obtain ⟨n', _, hw'⟩ := hw.push hroom hwidth hx
    obtain ⟨t, ht, hpk, hupk, hparams, herr⟩ := ih hfit
      (s := ((s.withPacker (pkPush x w s.packer)).setStreamLen.stickVtrunc (decide (2 ^ w ≤ x))).complete)
      hv hr hcap hw' (by
        rw [List.length_append, length_bitsOf, Nat.add_assoc]
        exact hfits)
    exact ⟨t, (runCommands_cons_of_next hpush hv).trans ht, hpk, hupk, hparams, herr⟩

/-- R262: BP_INIT, the pushes and a FLUSH succeed and leave the unpacker at its start and what `pk_push` and
`pk_flush` leave, with STREAM_LEN at its end. -/
theorem runCommands_pack {ps : List (Nat × Nat)} (hps : PushesFit ps) {s : State} (hv : s.errv = false)
    (hl : s.params.Legal) (hfits : (ps.map Prod.snd).sum / 8 + 1 ≤ s.params.bsCap) :
    ∃ t, runCommands ((.bpInit :: ps.map fun xw => .push xw.1 xw.2) ++ [.flush]) s = some t ∧
      t.packer = pkFlush ((Packer.start s.stream).pushAll ps) ∧ t.unpacker = Unpacker.start ∧
      t.params = s.params ∧ t.errv = false ∧ t.streamLen = t.wptr := by
  have hinit : exec .bpInit s =
      .next ((s.withPacker (Packer.start s.stream)).withUnpacker Unpacker.start).complete :=
    exec_of_ok rfl rfl
  obtain ⟨t, ht, hpk, hupk, hparams, herr⟩ := runCommands_pushes hps
    (s := ((s.withPacker (Packer.start s.stream)).withUnpacker Unpacker.start).complete)
    hv (Nat.zero_le 7) (bsCap_lt_of_legal hl) (Packer.wrote_start s.stream) (by simpa using hfits)
  have hpack := (runCommands_cons_of_next hinit hv).trans ht
  obtain ⟨n, _, hw⟩ := (Packer.wrote_start s.stream).foldl hps
    (by simpa using lt_of_le_of_lt hfits (bsCap_lt_of_legal hl))
  have hcheck : checkFlush t = none := by
    have hptr : t.wptr.toNat = 0 + n := (congrArg (·.ptr.toNat) hpk).trans hw.ptr
    have hcount := hw.count.1
    rw [List.nil_append, length_pushedBits] at hcount
    rw [checkFlush_eq_none, hparams]
    show _ ≤ s.params.bsCap
    omega
  exact ⟨_, (runCommands_append hpack).trans (runCommands_cons_of_next (exec_flush_of_ok hcheck) herr),
    congrArg pkFlush hpk, hupk, hparams, herr, rfl⟩

/-! The commands that read back. -/

theorem pullAll_cons_of_next {w : Nat} {ws : List Nat} {s t : State} (h : exec (.pull w) s = .next t)
    (ht : t.errv = false) : pullAll (w :: ws) s = (pullAll ws t).map (t.pullData.toNat :: ·) := by
  simp [pullAll, h, ht]

/-- R254: with `n` whole bytes to read below the bound, a pull of no more bits than are ahead passes its
checks. -/
theorem checkPull_of_ahead {s : State} {w n : Nat} (hw : 1 ≤ w ∧ w ≤ 8) (hn : w ≤ s.ravail.toNat + 8 * n)
    (hbound : s.rptr.toNat + n ≤ s.streamBound) : checkPull w s = none := by
  refine checkPull_eq_none.2 ⟨hw, ?_⟩
  unfold pullFetches
  split <;> omega

/-- R262: PULLs return the values whose bits lie ahead of the unpacker, in order. -/
theorem pullAll_ahead {ps : List (Nat × Nat)} (hps : PushesFit ps) {s : State} {n : Nat} {rest : List Bool}
    (hv : s.errv = false) (hu : s.unpacker.Inv)
    (hp : ∀ j < n, ∃ b, s.stream.read (s.rptr.toNat + j) = some b) (hbound : s.rptr.toNat + n ≤ s.streamBound)
    (hahead : s.unpacker.ahead s.stream n = pushedBits ps ++ rest) :
    pullAll (ps.map Prod.snd) s = some (ps.map Prod.fst) := by
  induction ps generalizing s n with
  | nil => rfl
  | cons xw ps ih =>
    obtain ⟨x, w⟩ := xw
    obtain ⟨⟨hw, hx⟩, hfit⟩ := pushesFit_cons.1 hps
    rw [pushedBits_cons, List.append_assoc] at hahead
    have hn : w ≤ s.ravail.toNat + 8 * n := by
      have hlen := congrArg List.length hahead
      simp only [Unpacker.ahead, List.length_append, length_bitsOf, length_streamBits] at hlen
      exact (Nat.le_add_right _ _).trans hlen.ge
    have hroom : s.rptr.toNat + n < 2 ^ 32 :=
      lt_of_le_of_lt (hbound.trans (min_le_left _ _)) s.streamLen.isLt
    obtain ⟨r, u, m, hpull, hu', hr, hm, hptr, hbits⟩ := upkPull_ahead hu hw hn hp hroom
    -- the bits read are the first `w` bits ahead, so the value read is `x`
    obtain ⟨hhead, htail⟩ := List.append_inj (hbits.trans hahead) (by simp)
    obtain rfl := bitsOf_inj hr hx hhead
    have hdata : (BitVec.ofNat 8 r).toNat = r := by
      have h256 : (2 : Nat) ^ w ≤ 2 ^ 8 := Nat.pow_le_pow_right (by omega) hw.2
      rw [BitVec.toNat_ofNat, Nat.mod_eq_of_lt (by omega)]
    have hpresent : ∀ j < m, ∃ b, s.stream.read (u.ptr.toNat + j) = some b := fun j hj => by
      obtain ⟨b, hb⟩ := hp (n - m + j) (by omega)
      have hindex : u.ptr.toNat + j = s.unpacker.ptr.toNat + (n - m + j) := by omega
      exact ⟨b, (congrArg s.stream.read hindex).trans hb⟩
    have hnext := exec_pull_of_ok (checkPull_of_ahead hw hn hbound) hpull
    have hrest := ih hfit (s := (s.pulled r u).complete) hv hu' hpresent (hptr.trans_le hbound) htail
    rw [List.map_cons, pullAll_cons_of_next hnext hv, hrest]
    exact congrArg (fun y => some (y :: ps.map Prod.fst)) hdata

/-- Settles O38: the flushed stream holds the pushed bits (`Packer.Wrote.foldl_flush`), all of them ahead of
an unpacker at its start. -/
theorem packedValuesPullBack : Obligations.PackedValuesPullBack := by
  rintro s ps total hv hl hps rfl hfits
  obtain ⟨t, ht, hpk, hupk, hparams, herr, hlen⟩ := runCommands_pack hps hv hl hfits
  have hwrote := Packer.Wrote.foldl_flush hps (p := Packer.start s.stream) rfl rfl rfl
    (by simpa [Packer.start] using lt_of_le_of_lt hfits (bsCap_lt_of_legal hl))
  rw [← Packer.pushAll, ← hpk] at hwrote
  have hahead : t.unpacker.ahead t.stream ((ps.map Prod.snd).sum / 8 + 1) = pushedBits ps ++
      List.replicate (8 * ((ps.map Prod.snd).sum / 8 + 1) - (ps.map Prod.snd).sum) false := by
    have hbits := hwrote.bits
    rw [hpk, pending_pkFlush, List.append_nil, ← hpk] at hbits
    rw [hupk]
    exact hbits
  obtain ⟨_, havail, hptr⟩ := Unpacker.mk.inj hupk
  have hlength : t.streamLen.toNat = (ps.map Prod.snd).sum / 8 + 1 :=
    (congrArg BitVec.toNat hlen).trans (hwrote.ptr.trans (Nat.zero_add _))
  refine ⟨t, ht, hptr, havail, hlength,
    pullAll_ahead hps herr (hupk ▸ Nat.zero_le 7) (fun j hj => ?present) ?bound hahead⟩
  case present =>
    rw [hptr]
    exact hwrote.present j hj
  case bound =>
    rw [hptr, State.streamBound, hlength, hparams]
    simpa using hfits

end Sys2Proof.Machine

/-! PROOFS, family 42_bitpacker. Which commands set STREAM_LEN (R258; O39). -/

namespace Sys2Proof.Machine

/-- R258: the commands that set STREAM_LEN. -/
def SetsStreamLen (i : Instr) : Prop := (∃ v w, i = .push v w) ∨ i = .flush ∨ i = .qpack ∨ i = .encode

theorem bodyOf_streamLen_eq_wptr {i : Instr} {s t : State} (h : bodyOf i s = .ok t) (hi : SetsStreamLen i) :
    t.streamLen = t.wptr := by
  obtain ⟨v, w, rfl⟩ | rfl | rfl | rfl := hi
  · cases h; rfl
  · cases h; rfl
  · obtain ⟨_, _, _, rfl⟩ := bodyQpack_eq_ok.1 h; rfl
  · obtain ⟨_, _, _, _, hpack⟩ := bodyEncode_eq_ok.1 h
    obtain ⟨_, _, _, rfl⟩ := bodyQpack_eq_ok.1 hpack
    rfl

theorem bodyOf_streamLen_same {i : Instr} {s t : State} (h : bodyOf i s = .ok t) (hi : ¬ SetsStreamLen i) :
    t.streamLen = s.streamLen := by
  cases i with
  | push v w => exact absurd (.inl ⟨v, w, rfl⟩) hi
  | flush | qpack | encode => simp [SetsStreamLen] at hi
  | nop | bpInit | quant | dequant => cases h; rfl
  | loadImage => obtain ⟨_, rfl⟩ := bodyLoadImage_eq_ok.1 h; rfl
  | storeImage => obtain ⟨_, rfl⟩ := bodyStoreImage_eq_ok.1 h; rfl
  | fwdLevel => obtain ⟨_, _, rfl⟩ := bodyFwdLevel_eq_ok.1 h; rfl
  | invLevel => obtain ⟨_, _, rfl⟩ := bodyInvLevel_eq_ok.1 h; rfl
  | fwdAll => obtain ⟨_, _, rfl⟩ := bodyFwdAll_eq_ok.1 h; rfl
  | invAll => obtain ⟨_, _, rfl⟩ := bodyInvAll_eq_ok.1 h; rfl
  | unpackDq => obtain ⟨_, _, _, rfl⟩ := bodyUnpackDq_eq_ok.1 h; rfl
  | pull => obtain ⟨_, _, _, rfl⟩ := bodyPull_eq_ok.1 h; rfl
  | decode =>
    obtain ⟨_, _, hunpack, hinv, hstore⟩ := bodyDecode_eq_ok.1 h
    obtain ⟨_, _, _, rfl⟩ := bodyUnpackDq_eq_ok.1 hunpack
    obtain ⟨_, _, rfl⟩ := bodyInvAll_eq_ok.1 hinv
    obtain ⟨_, rfl⟩ := bodyStoreImage_eq_ok.1 hstore
    rfl

/-- Settles O39: a successful command's next state is its completed body. -/
theorem streamLenFollowsWptr : Obligations.StreamLenFollowsWptr := by
  intro i s t _ h ht
  obtain ⟨e, _, rfl⟩ | ⟨_, u, hu, rfl⟩ := exec_eq_next h
  · simp at ht
  · refine ⟨bodyOf_streamLen_eq_wptr (t := u) hu, fun hpush hflush hqpack hencode =>
      bodyOf_streamLen_same (t := u) hu ?_⟩
    simp [SetsStreamLen, hpush, hflush, hqpack, hencode]

end Sys2Proof.Machine

/-! PROOFS, family 43_orchestrator. NOP, BP_INIT, LOAD_IMAGE and STORE_IMAGE as exact next states (R280, R244,
R282, R284; O34, O40, O41). -/

namespace Sys2Proof.Machine

/-- Settles O34: neither command has a check, and neither body can fault. -/
theorem nopAndBpInit : Obligations.NopAndBpInit := fun _ => ⟨rfl, rfl⟩

/-- R282: what the plane holds after LOAD_IMAGE. -/
theorem read_bodyLoadImage {s t : State} (h : bodyLoadImage s = .ok t) (i : Nat) :
    t.plane.read i =
      if i < s.samples then some (cvt32 ((s.image.read i).getD 0).toNat) else s.plane.read i := by
  obtain ⟨_, rfl⟩ := bodyLoadImage_eq_ok.1 h
  exact Memory.read_writeAll_range _ _ _ i

/-- R284: what the image holds after STORE_IMAGE. -/
theorem read_bodyStoreImage {s t : State} (h : bodyStoreImage s = .ok t) (i : Nat) :
    t.image.read i =
      if i < s.samples then some (BitVec.ofNat 8 (storedSample s.plane i).1) else s.image.read i := by
  obtain ⟨_, rfl⟩ := bodyStoreImage_eq_ok.1 h
  exact Memory.read_writeAll_range _ _ _ i

/-- Settles O40, from `read_bodyLoadImage`. -/
theorem loadImageCopiesTheImage : Obligations.LoadImageCopiesTheImage := by
  intro s n hc hn hp
  obtain rfl : n = s.samples := hn
  have hbody := bodyLoadImage_eq_ok.2 ⟨hp, rfl⟩
  have hread := read_bodyLoadImage hbody
  have hexec := exec_of_ok (i := .loadImage) (checkConfig_eq_none.2 hc) hbody
  refine ⟨_, hexec, fun i hi b hb => ?below, fun i hi => (hread i).trans (if_neg hi.not_gt)⟩
  case below => rw [hread, if_pos hi, hb, Option.getD_some]

/-- The sample that STORE_IMAGE makes of a coefficient that holds a value. -/
theorem storedSample_of_read {plane : Memory Word} {i : Nat} {v : Word} (h : plane.read i = some v) :
    storedSample plane i = satTrunc8 v := by
  rw [storedSample, h, Option.getD_some]

/-- R284: a sample was clamped, said of the coefficients. -/
theorem any_storedSample_iff {plane : Memory Word} {n : Nat} (hp : plane.PresentBelow n) :
    ((List.range n).any fun i => (storedSample plane i).2) = true ↔
      ∃ i < n, ∃ v, plane.read i = some v ∧ (satTrunc8 v).2 = true := by
  simp only [List.any_eq_true, List.mem_range]
  refine exists_congr fun i => and_congr_right fun hi => ?_
  obtain ⟨v, hv⟩ := hp i hi
  simp [storedSample_of_read hv, hv]

/-- Settles O41, from `read_bodyStoreImage` and `any_storedSample_iff`. -/
theorem storeImageTruncatesThePlane : Obligations.StoreImageTruncatesThePlane := by
  intro s n hc hn hp
  obtain rfl : n = s.samples := hn
  have hbody := bodyStoreImage_eq_ok.2 ⟨hp, rfl⟩
  have hread := read_bodyStoreImage hbody
  have hexec := exec_of_ok (i := .storeImage) (checkConfig_eq_none.2 hc) hbody
  refine ⟨_, _, hexec, fun i hi v hv => ?below, fun i hi => (hread i).trans (if_neg hi.not_gt),
    any_storedSample_iff hp⟩
  case below => rw [hread, if_pos hi, storedSample_of_read hv]

end Sys2Proof.Machine

/-! PROOFS, family 43_orchestrator. The scan order (R288, R171; O49). -/

namespace Sys2Proof.Machine

/-- R288: SCHED with its loops and positions written out. -/
theorem sched_eq (w h l : Nat) : sched w h l =
    ((List.range (h / 2 ^ l)).flatMap fun r => (List.range (w / 2 ^ l)).map fun c => ⟨(r, c), 0⟩) ++
      ((List.range l).map (· + 1)).flatMap fun k =>
        (List.range (h / 2 ^ k)).flatMap fun i => (List.range (w / 2 ^ k)).flatMap fun j =>
          [⟨(h / 2 ^ k + i, j), k⟩, ⟨(i, w / 2 ^ k + j), k⟩, ⟨(h / 2 ^ k + i, w / 2 ^ k + j), k⟩] := by
  simp only [sched, schedLevel, positions, subbandPos, dimAt_eq, List.map_flatMap, List.flatMap_map,
    List.flatMap_assoc, List.map_map, List.map_cons, List.map_nil, Function.comp_def]

/-- R288: a position of the plane occurs once in SCHED, and no other does. -/
theorem count_sched_pos {w h l : Nat} (hw : w % 2 ^ l = 0) (hh : h % 2 ^ l = 0) (r c : Nat) :
    ((sched w h l).map SchedEntry.pos).count (r, c) = if r < h ∧ c < w then 1 else 0 := by
  rw [(nodup_sched hw hh).count]
  exact if_congr (mem_sched_pos hw hh) rfl rfl

/-- Settles O49. -/
theorem schedVisitsEveryPositionOnce : Obligations.SchedVisitsEveryPositionOnce := by
  rintro s _ ⟨_, _, _, hw, hh⟩ rfl
  refine ⟨sched_eq _ _ _, count_sched_pos hw hh, fun e he => ⟨level_le_of_mem_sched he, rfl⟩, ?_⟩
  rw [sched_bits, detailBits_eq_sum, llBytes, dimAt_eq, dimAt_eq]

end Sys2Proof.Machine

/-! PROOFS, family 43_orchestrator. QPACK as an exact next state (R290, R252; O50). -/

namespace Sys2Proof.Machine

/-- R290, R252: the bits that QPACK leaves in STREAM: the indices in SCHED order, then zeros. -/
def State.qpackBits (s : State) : List Bool :=
  pushedBits (schedPushes s.width.toNat s.plane s.entries) ++
    List.replicate (8 * s.encLen - (s.entries.map SchedEntry.bits).sum) false

section

variable {s t : State}

theorem bodyQpack_runs (hc : s.CfgOk) (hp : s.plane.PresentBelow (s.width.toNat * s.height.toNat)) :
    ∃ t, bodyQpack s = .ok t :=
  ⟨_, bodyQpack_eq_ok.2 ⟨_, _, packSched_eq_ok.2 ⟨entries_present hc hp, rfl, rfl⟩, rfl⟩⟩

theorem bodyQpack_wrote (h : bodyQpack s = .ok t) : t.packer.Wrote s.stream 0 s.encLen s.qpackBits := by
  obtain ⟨p, cl, hp, rfl⟩ := bodyQpack_eq_ok.1 h
  have hwrote := qpack_wrote (entries_level s) rfl (by rw [entries_encLen]; exact s.encLen_lt) hp
  rwa [entries_encLen] at hwrote

theorem streamBits_bodyQpack (h : bodyQpack s = .ok t) : streamBits t.stream 0 s.encLen = s.qpackBits := by
  have hbits := (bodyQpack_wrote h).bits
  obtain ⟨p, cl, hp, rfl⟩ := bodyQpack_eq_ok.1 h
  exact (List.append_nil _).symm.trans hbits

theorem bodyQpack_present (h : bodyQpack s = .ok t) : t.stream.PresentBelow s.encLen := fun j hj => by
  have hread := (bodyQpack_wrote h).present j hj
  rwa [Nat.zero_add] at hread

/-- R290: QPACK ends with WPTR = ENC_LEN. -/
theorem bodyQpack_wptr (h : bodyQpack s = .ok t) : t.wptr = BitVec.ofNat 32 s.encLen := by
  apply BitVec.eq_of_toNat_eq
  rw [BitVec.toNat_ofNat, Nat.mod_eq_of_lt s.encLen_lt]
  exact (bodyQpack_wrote h).ptr.trans (Nat.zero_add _)

/-- R290: QPACK's effect on every field; what it leaves in STREAM is `bodyQpack_wrote`. -/
theorem bodyQpack_eq (h : bodyQpack s = .ok t) : t =
    { s with
      stream := t.stream, wptr := BitVec.ofNat 32 s.encLen, wbuf := 0, wfree := 8
      streamLen := BitVec.ofNat 32 s.encLen
      qclamp := s.qclamp ||
        s.entries.any fun e => (quantize e.level (planeAt s.width.toNat s.plane e.pos.1 e.pos.2)).2 } := by
  have hptr := bodyQpack_wptr h
  obtain ⟨p, cl, hp, rfl⟩ := bodyQpack_eq_ok.1 h
  obtain ⟨_, _, rfl⟩ := packSched_eq_ok.1 hp
  rw [← hptr, Bool.false_or]

end

/-- Settles O50: with the plane written, the statement's `quantized` is what QPACK quantizes each entry to. -/
theorem qpackPacksThePlane : Obligations.QpackPacksThePlane := by
  rintro s _ quantized hl hc hcur hp rfl hq
  obtain ⟨t, ht⟩ := bodyQpack_runs hc hp
  have hexec := exec_of_ok (i := .qpack) (checkQpack_eq_none.2 ⟨hc, hcur, encLen_le_cap hl hc⟩) ht
  have hvalue : ∀ e ∈ s.entries,
      quantize e.level (planeAt s.width.toNat s.plane e.pos.1 e.pos.2) = quantized e := fun e he => by
    obtain ⟨v, hv⟩ := entries_present hc hp e he
    rw [planeAt_of_read hv]
    exact (hq e he v hv).symm
  have hpushes : schedPushes s.width.toNat s.plane s.entries =
      s.entries.map fun e => ((quantized e).1, e.bits) :=
    List.map_congr_left fun e he => by rw [hvalue e he]
  refine ⟨t.stream, _, hexec.trans (congrArg (Host.Outcome.next ∘ State.complete) (bodyQpack_eq ht)), ?bits,
    bodyQpack_present ht, fun j hj => bodyQpack_stream_beyond ht hj, ?clamped⟩
  case bits =>
    rw [streamBits_bodyQpack ht, State.qpackBits, hpushes]
  case clamped =>
    rw [List.any_eq_true]
    exact exists_congr fun e => and_congr_right fun he => by rw [hvalue e he]

end Sys2Proof.Machine

/-! PROOFS, family 43_orchestrator. UNPACK_DQ as an exact next state (R292, R294; O51). -/

namespace Sys2Proof.Machine

/-- R292: the unpacker after UNPACK_DQ: all DEC_LEN bytes fetched, the padding of the last one still held. -/
def State.unpackerEnd (s : State) : Unpacker where
  buf := (s.stream.read (s.decLen - 1)).getD 0
  avail := BitVec.ofNat 4 (8 * s.decLen - (s.entries.map SchedEntry.bits).sum)
  ptr := BitVec.ofNat 32 s.decLen

/-- R292: the state after UNPACK_DQ has read the indices `qs`, before it completes. -/
def State.unpacked (s : State) (qs : List Nat) : State :=
  { s.withUnpacker s.unpackerEnd with
    plane := s.plane.writeAll (schedWrites s.width.toNat qs s.entries), curLevel := s.levels }

/-- R292: the indices whose bits, with the widths of SCHED, the first DEC_LEN bytes of STREAM hold. -/
structure State.Encodes (s : State) (qs : List Nat) : Prop where
  length : qs.length = s.entries.length
  fits : ∀ qe ∈ qs.zip s.entries, qe.1 < 2 ^ qe.2.bits
  bits : pushedBits (qs.zip (s.entries.map SchedEntry.bits)) =
    (streamBits s.stream 0 s.decLen).take (s.entries.map SchedEntry.bits).sum

section

variable {s : State} {qs : List Nat}

/-- R294: fewer than 8 of the bits of DEC_LEN bytes are beyond SCHED's widths, so an unpacker that has read
the widths has fetched every byte. -/
theorem eq_unpackerEnd {u : Unpacker} {n : Nat} (hc : s.CfgOk)
    (hleft : (s.entries.map SchedEntry.bits).sum + (u.avail.toNat + 8 * n) = 8 * s.decLen)
    (hptr : u.ptr.toNat + n = s.decLen)
    (hbuf : u.ptr = 0 ∨ s.stream.read (u.ptr.toNat - 1) = some u.buf) : u = s.unpackerEnd := by
  have hpad := (entries_decLen s).2
  have hpos := decLen_pos hc
  have hdec : u.ptr.toNat = s.decLen := by omega
  have hlast : s.stream.read (u.ptr.toNat - 1) = some u.buf := by
    refine hbuf.resolve_left fun h0 => ?_
    rw [h0] at hdec
    exact absurd hdec (Nat.ne_of_lt hpos)
  obtain ⟨buf, avail, ptr⟩ := u
  simp only at hdec hleft hlast
  rw [hdec] at hlast
  have havail : 8 * s.decLen - (s.entries.map SchedEntry.bits).sum = avail.toNat := by omega
  rw [State.unpackerEnd, hlast, havail, ← hdec, BitVec.ofNat_toNat, BitVec.ofNat_toNat,
    BitVec.setWidth_eq, BitVec.setWidth_eq, Option.getD_some]

/-- R292: with the stream written, UNPACK_DQ reads an index an entry, whose bits are the stream's. -/
theorem bodyUnpackDq_runs (hc : s.CfgOk) (hp : s.stream.PresentBelow s.decLen) :
    ∃ qs, s.Encodes qs ∧ bodyUnpackDq s = .ok (s.unpacked qs) := by
  obtain ⟨qs, u, n, hrun, hlen, hfits, _, _, hptr, hahead⟩ :=
    unpackSched_ahead (w := s.width.toNat) (entries_level s) (u := Unpacker.start) (stream := s.stream)
      (Nat.zero_le 7) (n := s.decLen) ((entries_decLen s).1.trans (Nat.le_add_left _ _))
      (fun j hj => by simpa [Unpacker.start] using hp j hj)
      (by simpa [Unpacker.start] using s.decLen_lt) s.plane
  have hbits : pushedBits (qs.zip (s.entries.map SchedEntry.bits)) ++ u.ahead s.stream n =
      streamBits s.stream 0 s.decLen := hahead
  have hpushed : (pushedBits (qs.zip (s.entries.map SchedEntry.bits))).length =
      (s.entries.map SchedEntry.bits).sum := by
    rw [length_pushedBits, List.map_snd_zip (by simp [hlen])]
  have hleft : (s.entries.map SchedEntry.bits).sum + (u.avail.toNat + 8 * n) = 8 * s.decLen := by
    have hlength := congrArg List.length hbits
    rwa [List.length_append, hpushed, Unpacker.ahead, List.length_append, length_bitsOf, length_streamBits,
      length_streamBits] at hlength
  have hbuf := unpackSched_buf (entries_level s) (u := Unpacker.start) (Nat.zero_le 7) (.inl rfl) hrun
  obtain rfl := eq_unpackerEnd hc hleft (hptr.trans (Nat.zero_add _)) hbuf
  refine ⟨qs, ⟨hlen, hfits, ?_⟩, bodyUnpackDq_eq_ok.2 ⟨_, _, hrun, rfl⟩⟩
  rw [← hbits, ← hpushed, List.take_left]

/-- What a plane holds after UNPACK_DQ's writes. -/
theorem read_writeAll_entries (hc : s.CfgOk) (hlen : qs.length = s.entries.length) (plane : Memory Word) :
    (∀ qe ∈ qs.zip s.entries, (plane.writeAll (schedWrites s.width.toNat qs s.entries)).read
      (planeIndex s.width.toNat qe.2.pos) = some (dequantize qe.2.level qe.1)) ∧
    ∀ i, s.samples ≤ i → (plane.writeAll (schedWrites s.width.toNat qs s.entries)).read i = plane.read i := by
  have ⟨_, _, _, hw, hh⟩ := hc
  obtain ⟨hvalue, hother⟩ := read_schedWrites (w := s.width.toNat) hlen
    (fun e he => (entries_pos hc he).2) (nodup_sched hw hh) plane
  refine ⟨hvalue, fun i hi => hother i fun e he => ?_⟩
  obtain ⟨hrow, hcol⟩ := entries_pos hc he
  exact ((planeIndex_lt hrow hcol).trans_le hi).ne

end

/-- Settles O51. -/
theorem unpackDqFillsThePlane : Obligations.UnpackDqFillsThePlane := by
  rintro s _ _ _ hc hbound hp rfl rfl
  obtain ⟨qs, hqs, hbody⟩ := bodyUnpackDq_runs hc hp
  obtain ⟨hvalue, hother⟩ := read_writeAll_entries hc hqs.length s.plane
  have hexec := exec_of_ok (i := .unpackDq) (checkDecode_eq_none.2 ⟨hc, hbound⟩) hbody
  exact ⟨_, qs, hexec, hqs.length, hqs.bits, fun qe hqe => ⟨hqs.fits qe hqe, hvalue qe hqe⟩, hother⟩

end Sys2Proof.Machine

/-! PROOFS, family 43_orchestrator. ENCODE and DECODE run, and are their three stages (R296, R298,
R334; O53). -/

namespace Sys2Proof.Machine

/-! A plane all of whose elements hold values. -/

/-- R170: then every region holds values. -/
theorem Memory.PresentBelow.regionPresent {s : State} (h : s.plane.PresentBelow s.samples) (c : Nat) :
    s.RegionPresent c := by
  refine regionPresent_iff.2 fun r hr k hk => h _ (planeIndex_lt (rc := (r, k)) ?_ ?_)
  · exact hr.trans_le (dimAt_le _ _)
  · exact hk.trans_le (dimAt_le _ _)

/-- A stage that takes no value away leaves the plane written. -/
theorem KeepsValues.presentBelow {s t : State} (h : KeepsValues s t) {n : Nat} (hp : s.plane.PresentBelow n) :
    t.plane.PresentBelow n := by
  intro i hi
  refine Option.ne_none_iff_exists'.1 fun hnone => ?_
  obtain ⟨v, hv⟩ := hp i hi
  rw [h.plane i hnone] at hv
  cases hv

section

variable {s t u v : State}

/-! The stages of ENCODE. -/

theorem bodyLoadImage_presentBelow (h : bodyLoadImage s = .ok t) : t.plane.PresentBelow s.samples :=
  fun i hi => ⟨_, (read_bodyLoadImage h i).trans (if_pos hi)⟩

/-- R282: the forward levels start at CUR_LEVEL = 0. -/
theorem bodyLoadImage_curLevel (h : bodyLoadImage s = .ok t) : t.curLevel = 0 := by
  obtain ⟨_, rfl⟩ := bodyLoadImage_eq_ok.1 h
  rfl

/-- R180: the forward levels end at CUR_LEVEL = LEVELS. -/
theorem bodyFwdAll_curLevel (h : bodyFwdAll s = .ok t) : t.curLevel = t.levels := by
  obtain ⟨_, _, rfl⟩ := bodyFwdAll_eq_ok.1 h
  rfl

theorem bodyFwdAll_runs (hp : s.plane.PresentBelow s.samples) : ∃ t, bodyFwdAll s = .ok t := by
  obtain ⟨p, hrun⟩ := State.fwdAll_runs fun _ => hp.regionPresent s.curLevel.toNat
  exact ⟨_, bodyFwdAll_eq_ok.2 ⟨p, hrun, rfl⟩⟩

theorem SameFrame.encLen (h : SameFrame s t) : t.encLen = s.encLen := by
  simp [State.encLen, h.width, h.height, h.levels]

/-- R296: the stages of ENCODE run on a written image, each with its checks passed. -/
theorem encode_stages (hl : s.params.Legal) (hc : s.CfgOk) (hp : s.image.PresentBelow s.samples) :
    ∃ u v t, (bodyLoadImage s = .ok u ∧ bodyFwdAll u = .ok v ∧ bodyQpack v = .ok t) ∧
      checkConfig s = none ∧ checkAllLevels u = none ∧ checkQpack v = none := by
  obtain ⟨u, hload⟩ : ∃ u, bodyLoadImage s = .ok u := ⟨_, bodyLoadImage_eq_ok.2 ⟨hp, rfl⟩⟩
  have hsu := frame_load hload
  have hpu : u.plane.PresentBelow u.samples := hsu.samples ▸ bodyLoadImage_presentBelow hload
  obtain ⟨v, hfwd⟩ := bodyFwdAll_runs hpu
  have huv := frame_fwdAll hfwd
  have hpv : v.plane.PresentBelow v.samples := huv.samples ▸ (bodyFwdAll_keepsValues hfwd).presentBelow hpu
  have hcu := hsu.cfgOk hc
  have hcv := huv.cfgOk hcu
  obtain ⟨t, hpack⟩ := bodyQpack_runs hcv hpv
  refine ⟨u, v, t, ⟨hload, hfwd, hpack⟩, checkConfig_eq_none.2 hc, checkAllLevels_eq_none.2 ⟨hcu, ?level⟩,
    checkQpack_eq_none.2 ⟨hcv, bodyFwdAll_curLevel hfwd, encLen_le_cap ?legal hcv⟩⟩
  case level =>
    rw [bodyLoadImage_curLevel hload]
    exact Nat.zero_le _
  case legal =>
    rw [huv.params, hsu.params]
    exact hl

/-- R296: CUR_LEVEL, the packer and STREAM_LEN after the stages of ENCODE. -/
theorem bodyEncode_end (hload : bodyLoadImage s = .ok u) (hfwd : bodyFwdAll u = .ok v)
    (hpack : bodyQpack v = .ok t) : t.curLevel = s.levels ∧ t.wptr.toNat = s.encLen ∧
      t.streamLen.toNat = s.encLen ∧ t.wbuf = 0 ∧ t.wfree = 8 := by
  have heq := bodyQpack_eq hpack
  have hlevels : v.levels = s.levels := (frame_fwdAll hfwd).levels.trans (frame_load hload).levels
  have hlen : v.encLen = s.encLen := (frame_fwdAll hfwd).encLen.trans (frame_load hload).encLen
  have hword : (BitVec.ofNat 32 v.encLen).toNat = s.encLen := by
    rw [hlen, BitVec.toNat_ofNat, Nat.mod_eq_of_lt s.encLen_lt]
  exact ⟨(congrArg State.curLevel heq).trans ((bodyFwdAll_curLevel hfwd).trans hlevels),
    (congrArg (·.wptr.toNat) heq).trans hword, (congrArg (·.streamLen.toNat) heq).trans hword,
    congrArg State.wbuf heq, congrArg State.wfree heq⟩

/-! The stages of DECODE. -/

/-- R288: every element of the plane is the place of an entry, and so of an index. -/
theorem exists_entry_of_lt {qs : List Nat} (hc : s.CfgOk) (hlen : qs.length = s.entries.length) {i : Nat}
    (hi : i < s.samples) : ∃ qe ∈ qs.zip s.entries, planeIndex s.width.toNat qe.2.pos = i := by
  have ⟨_, ⟨hwidth, _⟩, _, hw, hh⟩ := hc
  have hpos : (i / s.width.toNat, i % s.width.toNat) ∈ s.entries.map SchedEntry.pos :=
    (mem_sched_pos hw hh).2 ⟨Nat.div_lt_of_lt_mul hi, Nat.mod_lt _ hwidth⟩
  obtain ⟨e, he, hpe⟩ := List.mem_map.1 hpos
  rw [← List.map_snd_zip (l₁ := qs) (l₂ := s.entries) hlen.ge] at he
  obtain ⟨qe, hqe, rfl⟩ := List.mem_map.1 he
  exact ⟨qe, hqe, by rw [hpe, planeIndex_divMod]⟩

/-- R292: UNPACK_DQ leaves a value in every element of the plane. -/
theorem unpacked_presentBelow {qs : List Nat} (hc : s.CfgOk) (hqs : s.Encodes qs) :
    (s.unpacked qs).plane.PresentBelow s.samples := by
  intro i hi
  obtain ⟨qe, hqe, rfl⟩ := exists_entry_of_lt hc hqs.length hi
  exact ⟨_, (read_writeAll_entries hc hqs.length s.plane).1 qe hqe⟩

theorem bodyInvAll_runs (hp : s.plane.PresentBelow s.samples) : ∃ t, bodyInvAll s = .ok t := by
  obtain ⟨p, hrun⟩ := State.invAll_runs fun _ => hp.regionPresent 0
  exact ⟨_, bodyInvAll_eq_ok.2 ⟨p, hrun, rfl⟩⟩

/-- R298: the stages of DECODE run on a written stream, each with its checks passed. -/
theorem decode_stages (hc : s.CfgOk) (hbound : s.decLen ≤ s.streamBound)
    (hp : s.stream.PresentBelow s.decLen) :
    ∃ u v t, (bodyUnpackDq s = .ok u ∧ bodyInvAll u = .ok v ∧ bodyStoreImage v = .ok t) ∧
      checkDecode s = none ∧ checkAllLevels u = none ∧ checkConfig v = none := by
  obtain ⟨qs, hqs, hunpack⟩ := bodyUnpackDq_runs hc hp
  have hsu := frame_unpackDq hunpack
  have hpu : (s.unpacked qs).plane.PresentBelow (s.unpacked qs).samples := unpacked_presentBelow hc hqs
  obtain ⟨v, hinv⟩ := bodyInvAll_runs hpu
  have huv := frame_invAll hinv
  have hpv : v.plane.PresentBelow v.samples := huv.samples ▸ (bodyInvAll_keepsValues hinv).presentBelow hpu
  have hcu := hsu.cfgOk hc
  exact ⟨_, v, _, ⟨hunpack, hinv, bodyStoreImage_eq_ok.2 ⟨hpv, rfl⟩⟩, checkDecode_eq_none.2 ⟨hc, hbound⟩,
    checkAllLevels_eq_none.2 ⟨hcu, le_rfl⟩, checkConfig_eq_none.2 (huv.cfgOk hcu)⟩

/-- R182: the inverse levels end at CUR_LEVEL = 0, which STORE_IMAGE leaves. -/
theorem bodyDecode_curLevel (hinv : bodyInvAll u = .ok v) (hstore : bodyStoreImage v = .ok t) :
    t.curLevel = 0 := by
  obtain ⟨_, _, rfl⟩ := bodyInvAll_eq_ok.1 hinv
  obtain ⟨_, rfl⟩ := bodyStoreImage_eq_ok.1 hstore
  rfl

/-! Three stages as three commands. -/

/-- R334: three commands whose checks pass and whose bodies run one after another leave the last body's state,
completed. -/
theorem runCommands_stages {i j k : Instr} (hv : s.errv = false) (hi : checksOf i s = none)
    (hu : bodyOf i s = .ok u) (hj : checksOf j u = none) (hv' : bodyOf j u = .ok v)
    (hk : checksOf k v = none) (ht : bodyOf k v = .ok t) : runCommands [i, j, k] s = some t.complete := by
  have heu : u.errv = false := (frame_body hu).errv.trans hv
  have hev : v.errv = false := (frame_body hv').errv.trans heu
  have het : t.errv = false := (frame_body ht).errv.trans hev
  rw [runCommands_cons_of_next (exec_of_ok hi hu) heu, runCommands_cons_of_next (exec_complete hj hv') hev,
    runCommands_cons_of_next (exec_complete hk ht) het]
  rfl

end

/-- Settles O53: `encode_stages` and `decode_stages` run, and the composite command's body is the stages'. -/
theorem compositeCommandsAreTheirStages : Obligations.CompositeCommandsAreTheirStages := by
  refine fun s hv hl hc => ⟨fun hp => ?encode, fun hbound hp => ?decode⟩
  case encode =>
    obtain ⟨u, v, t, ⟨hload, hfwd, hpack⟩, hcs, hcu, hcv⟩ := encode_stages hl hc hp
    have hexec := exec_of_ok (i := .encode) (checkEncode_eq_none.2 ⟨hc, encLen_le_cap hl hc⟩)
      (bodyEncode_eq_ok.2 ⟨u, v, hload, hfwd, hpack⟩)
    exact ⟨t.complete, runCommands_stages hv (i := .loadImage) (j := .fwdAll) (k := .qpack) hcs hload hcu hfwd
      hcv hpack, hexec, bodyEncode_end (t := t) hload hfwd hpack⟩
  case decode =>
    obtain ⟨u, v, t, ⟨hunpack, hinv, hstore⟩, hcs, hcu, hcv⟩ := decode_stages hc hbound hp
    have hexec := exec_of_ok (i := .decode) hcs (bodyDecode_eq_ok.2 ⟨u, v, hunpack, hinv, hstore⟩)
    exact ⟨t.complete, runCommands_stages hv (i := .unpackDq) (j := .invAll) (k := .storeImage) hcs hunpack
      hcu hinv hcv hstore, hexec, bodyDecode_curLevel (t := t) hinv hstore⟩

end Sys2Proof.Machine

/-! PROOFS, family 43_orchestrator. ENCODE's stream depends only on the image and the configuration, and
DECODE's image only on the stream and the configuration (R300; O54). Each stage keeps two states in agreement
on what the next stage reads. -/

namespace Sys2Proof.Machine

/-- Two states with the same WIDTH, HEIGHT and LEVELS. -/
structure SameConfig (s s' : State) : Prop where
  width : s.width = s'.width
  height : s.height = s'.height
  levels : s.levels = s'.levels

section

variable {s s' t t' : State}

theorem SameConfig.body (h : SameConfig s s') (ht : SameFrame s t) (ht' : SameFrame s' t') :
    SameConfig t t' where
  width := by rw [ht.width, ht'.width, h.width]
  height := by rw [ht.height, ht'.height, h.height]
  levels := by rw [ht.levels, ht'.levels, h.levels]

theorem SameConfig.samples (h : SameConfig s s') : s.samples = s'.samples := by
  rw [State.samples, h.width, h.height, State.samples]

theorem SameConfig.entries (h : SameConfig s s') : s.entries = s'.entries := by
  rw [State.entries, h.width, h.height, h.levels]

theorem SameConfig.encLen (h : SameConfig s s') : s.encLen = s'.encLen := by
  rw [State.encLen, h.width, h.height, h.levels, State.encLen]

/-- R332: a successful command has run its body. -/
theorem exec_eq_next_of_success {i : Instr} (h : exec i s = .next t) (ht : t.errv = false) :
    checksOf i s = none ∧ ∃ u, bodyOf i s = .ok u ∧ t = u.complete := by
  rcases exec_eq_next h with ⟨e, _, rfl⟩ | hbody
  · cases ht
  · exact hbody

/-! The stages of ENCODE. -/

theorem bodyLoadImage_agree (hcfg : SameConfig s s') (hs : AgreeBelow s.samples s.image s'.image)
    (h : bodyLoadImage s = .ok t) (h' : bodyLoadImage s' = .ok t') :
    AgreeBelow s.samples t.plane t'.plane := by
  intro i hi
  rw [read_bodyLoadImage h, read_bodyLoadImage h', ← hcfg.samples, if_pos hi, if_pos hi, hs i hi]

theorem bodyFwdAll_agree (hc : s.CfgOk) (hcfg : SameConfig s s') (hlevel : s.curLevel = s'.curLevel)
    (hle : s.curLevel.toNat ≤ s.levels.toNat) (hs : AgreeBelow s.samples s.plane s'.plane)
    (h : bodyFwdAll s = .ok t) (h' : bodyFwdAll s' = .ok t') : AgreeBelow s.samples t.plane t'.plane := by
  obtain ⟨p, hp, rfl⟩ := bodyFwdAll_eq_ok.1 h
  obtain ⟨p', hp', rfl⟩ := bodyFwdAll_eq_ok.1 h'
  have ⟨_, _, _, hw, hh⟩ := hc
  obtain ⟨q, hq, hpq⟩ := fwdLevels_congr hw hh (Nat.add_sub_cancel' hle).le hs hp
  rw [hcfg.width, hcfg.height, hcfg.levels, hlevel, hp'] at hq
  cases hq
  exact hpq

/-- Bytes with the same bits are the same. -/
theorem agreeBelow_of_streamBits {m m' : Memory Byte} {n : Nat} (hp : m.PresentBelow n)
    (hp' : m'.PresentBelow n) (h : streamBits m 0 n = streamBits m' 0 n) : AgreeBelow n m m' := by
  induction n with
  | zero => exact fun i hi => absurd hi (Nat.not_lt_zero i)
  | succ n ih =>
    rw [streamBits_succ, streamBits_succ, Nat.zero_add] at h
    obtain ⟨hinit, hlast⟩ := List.append_inj h (by simp)
    obtain ⟨b, hb⟩ := hp n (Nat.lt_succ_self n)
    obtain ⟨b', hb'⟩ := hp' n (Nat.lt_succ_self n)
    rw [hb, hb'] at hlast
    intro i hi
    obtain hlt | rfl := Nat.lt_succ_iff_lt_or_eq.1 hi
    · exact ih (fun j hj => hp j (by omega)) (fun j hj => hp' j (by omega)) hinit i hlt
    · rw [hb, hb', BitVec.eq_of_toNat_eq (bitsOf_inj b.isLt b'.isLt hlast)]

/-- R290: QPACK's bits depend on the plane's own elements alone. -/
theorem qpackBits_congr (hc : s.CfgOk) (hcfg : SameConfig s s') (hs : AgreeBelow s.samples s.plane s'.plane) :
    s.qpackBits = s'.qpackBits := by
  have hpushes : schedPushes s.width.toNat s.plane s.entries =
      schedPushes s.width.toNat s'.plane s.entries := by
    refine List.map_congr_left fun e he => ?_
    obtain ⟨hrow, hcol⟩ := entries_pos hc he
    rw [planeAt_congr hs hrow hcol]
  rw [State.qpackBits, State.qpackBits, hpushes, hcfg.entries, hcfg.encLen, hcfg.width]

theorem bodyQpack_agree (hc : s.CfgOk) (hcfg : SameConfig s s') (hs : AgreeBelow s.samples s.plane s'.plane)
    (h : bodyQpack s = .ok t) (h' : bodyQpack s' = .ok t') :
    t.streamLen = t'.streamLen ∧ AgreeBelow s.encLen t.stream t'.stream := by
  have hlen := hcfg.encLen
  refine ⟨?_, agreeBelow_of_streamBits (bodyQpack_present h) (hlen ▸ bodyQpack_present h') ?_⟩
  · have hword := congrArg (BitVec.ofNat 32) hlen
    exact (congrArg State.streamLen (bodyQpack_eq h)).trans
      (hword.trans (congrArg State.streamLen (bodyQpack_eq h')).symm)
  · rw [streamBits_bodyQpack h, qpackBits_congr hc hcfg hs, hlen, streamBits_bodyQpack h']

theorem bodyEncode_agree (hc : s.CfgOk) (hcfg : SameConfig s s') (hs : AgreeBelow s.samples s.image s'.image)
    (h : bodyEncode s = .ok t) (h' : bodyEncode s' = .ok t') :
    t.streamLen = t'.streamLen ∧ AgreeBelow s.encLen t.stream t'.stream := by
  obtain ⟨u, v, hload, hfwd, hpack⟩ := bodyEncode_eq_ok.1 h
  obtain ⟨u', v', hload', hfwd', hpack'⟩ := bodyEncode_eq_ok.1 h'
  have hsu := frame_load hload
  have huv := frame_fwdAll hfwd
  have hcfgu := hcfg.body hsu (frame_load hload')
  have hcu := hsu.cfgOk hc
  have hlevel := bodyLoadImage_curLevel hload
  have hu := bodyLoadImage_agree hcfg hs hload hload'
  rw [← hsu.samples] at hu
  have hv := bodyFwdAll_agree hcu hcfgu (hlevel.trans (bodyLoadImage_curLevel hload').symm)
    (by rw [hlevel]; exact Nat.zero_le _) hu hfwd hfwd'
  rw [← huv.samples] at hv
  have ht := bodyQpack_agree (huv.cfgOk hcu) (hcfgu.body huv (frame_fwdAll hfwd')) hv hpack hpack'
  rwa [huv.encLen, hsu.encLen] at ht

/-! The stages of DECODE. -/

/-- R292: UNPACK_DQ's loop never reads the plane. -/
theorem unpackSched_plane {w : Nat} {stream : Memory Byte} {es : List SchedEntry} {u u' : Unpacker}
    {plane plane' : Memory Word} (h : unpackSched w stream es u plane = .ok (u', plane')) :
    ∃ qs, qs.length = es.length ∧
      ∀ p, unpackSched w stream es u p = .ok (u', p.writeAll (schedWrites w qs es)) := by
  induction es generalizing u plane with
  | nil =>
    cases h
    exact ⟨[], rfl, fun p => rfl⟩
  | cons e es ih =>
    simp only [unpackSched] at h ⊢
    cases hpull : upkPull stream e.bits u with
    | error f => rw [hpull] at h; cases h
    | ok r =>
      rw [hpull] at h
      obtain ⟨qs, hlen, hrun⟩ := ih h
      exact ⟨r.1 :: qs, congrArg (· + 1) hlen, fun p => hrun _⟩

/-- R292: UNPACK_DQ's writes cover the plane, so what it held before does not matter. -/
theorem agree_writeAll_entries {qs : List Nat} (hc : s.CfgOk) (hlen : qs.length = s.entries.length)
    (p q : Memory Word) : AgreeBelow s.samples (p.writeAll (schedWrites s.width.toNat qs s.entries))
      (q.writeAll (schedWrites s.width.toNat qs s.entries)) := by
  intro i hi
  obtain ⟨qe, hqe, rfl⟩ := exists_entry_of_lt hc hlen hi
  rw [(read_writeAll_entries hc hlen p).1 qe hqe, (read_writeAll_entries hc hlen q).1 qe hqe]

/-- R292, R294: UNPACK_DQ reads only the first DEC_LEN bytes of STREAM. -/
theorem unpackSched_entries_congr (hs : AgreeBelow s.decLen s.stream s'.stream) (plane : Memory Word) :
    unpackSched s.width.toNat s.stream s.entries Unpacker.start plane =
      unpackSched s.width.toNat s'.stream s.entries Unpacker.start plane :=
  unpackSched_congr (entries_level s) (u := Unpacker.start) (Nat.zero_le 7) (n := s.decLen)
    ((entries_decLen s).1.trans (Nat.le_add_left _ _)) (by simpa [Unpacker.start] using s.decLen_lt)
    (fun j hj => by simpa [Unpacker.start] using hs j hj) plane

theorem bodyUnpackDq_agree (hc : s.CfgOk) (hcfg : SameConfig s s')
    (hs : AgreeBelow s.decLen s.stream s'.stream) (h : bodyUnpackDq s = .ok t)
    (h' : bodyUnpackDq s' = .ok t') :
    AgreeBelow s.samples t.plane t'.plane := by
  obtain ⟨u, p, hp, rfl⟩ := bodyUnpackDq_eq_ok.1 h
  obtain ⟨u', p', hp', rfl⟩ := bodyUnpackDq_eq_ok.1 h'
  obtain ⟨qs, hlen, hrun⟩ := unpackSched_plane hp
  rw [← hcfg.width, ← hcfg.height, ← hcfg.levels, ← unpackSched_entries_congr hs] at hp'
  cases hp.symm.trans (hrun s.plane)
  cases hp'.symm.trans (hrun s'.plane)
  exact agree_writeAll_entries hc hlen s.plane s'.plane

theorem bodyUnpackDq_curLevel (h : bodyUnpackDq s = .ok t) : t.curLevel = s.levels := by
  obtain ⟨_, _, _, rfl⟩ := bodyUnpackDq_eq_ok.1 h
  rfl

theorem bodyInvAll_agree (hcfg : SameConfig s s') (hlevel : s.curLevel = s'.curLevel)
    (hs : AgreeBelow s.samples s.plane s'.plane)
    (h : bodyInvAll s = .ok t) (h' : bodyInvAll s' = .ok t') : AgreeBelow s.samples t.plane t'.plane := by
  obtain ⟨p, hp, rfl⟩ := bodyInvAll_eq_ok.1 h
  obtain ⟨p', hp', rfl⟩ := bodyInvAll_eq_ok.1 h'
  obtain ⟨q, hq, hpq⟩ := invLevels_congr hs hp
  rw [hcfg.width, hcfg.height, hlevel, hp'] at hq
  cases hq
  exact hpq

theorem bodyStoreImage_agree (hcfg : SameConfig s s') (hs : AgreeBelow s.samples s.plane s'.plane)
    (h : bodyStoreImage s = .ok t) (h' : bodyStoreImage s' = .ok t') :
    AgreeBelow s.samples t.image t'.image := by
  intro i hi
  rw [read_bodyStoreImage h, read_bodyStoreImage h', ← hcfg.samples, if_pos hi, if_pos hi, storedSample,
    storedSample, hs i hi]

theorem bodyDecode_agree (hc : s.CfgOk) (hcfg : SameConfig s s') (hs : AgreeBelow s.decLen s.stream s'.stream)
    (h : bodyDecode s = .ok t) (h' : bodyDecode s' = .ok t') : AgreeBelow s.samples t.image t'.image := by
  obtain ⟨u, v, hunpack, hinv, hstore⟩ := bodyDecode_eq_ok.1 h
  obtain ⟨u', v', hunpack', hinv', hstore'⟩ := bodyDecode_eq_ok.1 h'
  have hsu := frame_unpackDq hunpack
  have huv := frame_invAll hinv
  have hcfgu := hcfg.body hsu (frame_unpackDq hunpack')
  have hlevel : u.curLevel = u'.curLevel := by
    rw [bodyUnpackDq_curLevel hunpack, bodyUnpackDq_curLevel hunpack', hcfg.levels]
  have hu := bodyUnpackDq_agree hc hcfg hs hunpack hunpack'
  rw [← hsu.samples] at hu
  have hv := bodyInvAll_agree hcfgu hlevel hu hinv hinv'
  rw [← huv.samples] at hv
  have ht := bodyStoreImage_agree (hcfgu.body huv (frame_invAll hinv')) hv hstore hstore'
  rwa [huv.samples, hsu.samples] at ht

end

/-- Settles O54: both commands have run their bodies, which keep the agreement stage by stage. -/
theorem encodeAndDecodeArePure : Obligations.EncodeAndDecodeArePure := by
  intro s s' t t' hw hh hl _ _ ht ht'
  have hcfg : SameConfig s s' := ⟨hw, hh, hl⟩
  refine ⟨fun himage h h' => ?encode, fun hstream h h' => ?decode⟩
  case encode =>
    obtain ⟨hcheck, u, hu, rfl⟩ := exec_eq_next_of_success h ht
    obtain ⟨_, u', hu', rfl⟩ := exec_eq_next_of_success h' ht'
    exact bodyEncode_agree (t := u) (t' := u') (checkEncode_eq_none.1 hcheck).1 hcfg himage hu hu'
  case decode =>
    obtain ⟨hcheck, u, hu, rfl⟩ := exec_eq_next_of_success h ht
    obtain ⟨_, u', hu', rfl⟩ := exec_eq_next_of_success h' ht'
    exact bodyDecode_agree (t := u) (t' := u') (checkDecode_eq_none.1 hcheck).1 hcfg hstream hu hu'

end Sys2Proof.Machine

/-! PROOFS, family 60_exceptions. Command errors: which command raises which (R331), a failed command's exact
state (R332; O16) and the configuration check (R335; O20). -/

namespace Sys2Proof.Machine

/-! Which errors there are. -/

theorem mem_of_firstError {cs : List (Bool × CmdError)} {e : CmdError} (h : firstError cs = some e) :
    e ∈ cs.map Prod.snd := by
  induction cs with
  | nil => cases h
  | cons c cs ih =>
    obtain ⟨b, d⟩ := c
    cases b with
    | false => exact .tail _ (ih h)
    | true => cases h; exact .head _

/-- R331, R333: the errors a command's own checks can raise, by the table's column "raised by", in the order
of the checks. -/
def checkErrors : Instr → List CmdError
  | .nop | .bpInit | .quant _ | .dequant _ => []
  | .loadImage | .storeImage => [.badConfig]
  | .fwdLevel | .invLevel | .fwdAll | .invAll => [.badConfig, .badLevel]
  | .qpack => [.badConfig, .badLevel, .streamOverflow]
  | .encode => [.badConfig, .streamOverflow]
  | .unpackDq | .decode => [.badConfig, .streamUnderrun]
  | .push _ _ => [.badWidth, .streamOverflow]
  | .flush => [.streamOverflow]
  | .pull _ => [.badWidth, .streamUnderrun]

theorem mem_checkErrors_of_checksOf {i : Instr} {s : State} {e : CmdError} (h : checksOf i s = some e) :
    e ∈ checkErrors i := by
  cases i with
  | nop | bpInit | quant | dequant => cases h
  | _ => exact mem_of_firstError h

/-- R331: ILLEGAL_OP (1) and RSVD_FIELD (2) are errors of a word; a command's own checks raise neither. -/
theorem three_le_code_of_checksOf {i : Instr} {s : State} {e : CmdError} (h : checksOf i s = some e) :
    3 ≤ e.code.toNat := by
  have hmem := mem_checkErrors_of_checksOf h
  cases e with
  | illegalOp | rsvdField => cases i <;> simp [checkErrors] at hmem
  | _ => decide

/-- R135: decoding raises ILLEGAL_OP or RSVD_FIELD. -/
theorem decode_error_cases {word : Word} {e : CmdError} (h : decode word = .error e) :
    e = .illegalOp ∨ e = .rsvdField := by
  by_cases hop : LegalOp (fieldOp word)
  · by_cases hr : reservedBits word = 0
    · obtain ⟨i, hi⟩ := exists_decode_eq_ok hop hr
      cases hi.symm.trans h
    · exact .inr (Except.error.inj ((decode_rsvdField hop hr).symm.trans h)).symm
  · exact .inl (Except.error.inj ((decode_illegalOp hop).symm.trans h)).symm

theorem code_range_of_decode_error {word : Word} {e : CmdError} (h : decode word = .error e) :
    1 ≤ e.code.toNat ∧ e.code.toNat ≤ 2 := by
  obtain rfl | rfl := decode_error_cases h <;> decide

/-! The error outcome. -/

/-- R332: a command that ends with ERRV = 1, where the accept step had cleared it, has failed a check, for no
body sets ERRV. -/
theorem exec_eq_next_of_failure {i : Instr} {s t : State} (hs : s.errv = false) (h : exec i s = .next t)
    (ht : t.errv = true) : ∃ e, checksOf i s = some e ∧ t = s.raiseError e := by
  rcases exec_eq_next h with hcheck | ⟨_, u, hu, rfl⟩
  · exact hcheck
  · rw [State.complete_errv, (frame_body hu).errv, hs] at ht
    cases ht

/-- Settles O16: a failed command stopped at its checks, a word that does not decode before them. -/
theorem failedCommandChangesOnlyStatus : Obligations.FailedCommandChangesOnlyStatus := by
  refine ⟨fun i s t hs h ht => ?command, fun s e hb henv hd => ?word⟩
  case command =>
    obtain ⟨e, he, rfl⟩ := exec_eq_next_of_failure hs h ht
    exact ⟨e.code, three_le_code_of_checksOf he, (errorCode_range e).1, rfl⟩
  case word =>
    obtain ⟨h1, h2⟩ := code_range_of_decode_error hd
    exact ⟨h1, h2, (step_of_env_nil henv).trans (coreStep_of_error hb hd)⟩

/-! The configuration check. -/

/-- R335, R333: a command whose first check is the test of CFG_OK fails with BAD_CONFIG. -/
theorem exec_of_badConfig {i : Instr} {s : State} {cs : List (Bool × CmdError)} (hc : ¬ s.CfgOk)
    (hi : checksOf i s = firstError ((!s.cfgOk, .badConfig) :: cs)) : exec i s = .next (s.failedWith 3) :=
  exec_of_failing .badConfig firstError_nil (by rw [(not_cfgOk_iff s).2 hc, Bool.not_false]) hi

/-- Settles O20: the test of CFG_OK is the first check of each of the ten commands. -/
theorem planeCommandsNeedAValidConfiguration : Obligations.PlaneCommandsNeedAValidConfiguration := by
  intro s i hi hc
  simp only [List.mem_cons, List.not_mem_nil, or_false] at hi
  rcases hi with rfl | rfl | rfl | rfl | rfl | rfl | rfl | rfl | rfl | rfl <;>
    exact exec_of_badConfig hc rfl

end Sys2Proof.Machine

/-! PROOFS, family 70_reset_and_hazards. Host accesses while a command is pending (R380; O10). -/

namespace Sys2Proof.Machine

/-! The addresses of registers. -/

theorem offset_of_regAt {off : Nat} {r : Reg} (h : regAt off = some r) : r.offset = off := by
  unfold regAt at h
  split at h <;> cases h <;> rfl

/-- R92: an address in a memory window reaches no register. -/
theorem windowTarget_ne_reg {m : MemId} {base size addr : Nat} {r : Reg} :
    windowTarget m base size addr ≠ .reg r := by
  unfold windowTarget
  split <;> simp

/-- R31, R91: the one address that reaches a register is its own (the converse of `busTarget_regAddr`). -/
theorem eq_regAddr_of_busTarget {p : Params} {addr : Word} {r : Reg} (h : busTarget p addr = .reg r) :
    addr = regAddr r := by
  suffices hr : regAt addr.toNat = some r by
    rw [regAddr, offset_of_regAt hr, BitVec.ofNat_toNat, BitVec.setWidth_eq]
  unfold busTarget at h
  simp only at h
  split at h
  · cases h
  split at h
  · cases hr : regAt addr.toNat with
    | none => simp [hr] at h
    | some q => simpa [hr] using h
  split_ifs at h <;> exact absurd h windowTarget_ne_reg

/-! Transactions while BUSY = 1. -/

/-- R380: ID, CTRL, STATUS and P_* read their values whether or not a command is pending. -/
theorem busRead_readableWhileBusy {r : Reg} (hr : r.readableWhileBusy = true) (s : State) :
    s.busRead (regAddr r) = .ok (.read (s.regRead r) .okay) := by
  simp [State.busRead, busTarget_regAddr, hr]

/-- R380: every write that is no bus error is discarded. -/
theorem busWrite_of_busy {s : State} {addr : Word} (hb : s.busy = true)
    (h : busTarget s.params addr ≠ .busError) (data : Word) : s.busWrite addr data = (.write .okay, s) := by
  unfold State.busWrite
  cases ht : busTarget s.params addr with
  | busError => exact absurd ht h
  | reserved => rfl
  | reg r => simp only [hb, if_true]
  | elem m i => simp only [hb, if_true]

/-- R380: the other reads answer 0, an element that holds no value included. -/
theorem busRead_of_busy {s : State} {addr : Word} (hb : s.busy = true)
    (h : busTarget s.params addr ≠ .busError)
    (hr : ∀ r, busTarget s.params addr = .reg r → r.readableWhileBusy = false) :
    s.busRead addr = .ok (.read 0 .okay) := by
  unfold State.busRead
  cases ht : busTarget s.params addr with
  | busError => exact absurd ht h
  | reserved => rfl
  | reg r => simp [hb, hr r ht]
  | elem m i => simp only [hb, if_true]

/-- R36, R53: of STATUS only BUSY and the sticky flags can be set while a command is pending. -/
theorem statusWord_of_busy {s : State} (hb : s.busy = true) (hs : s.StatusInv) : s.statusWord =
    BitVec.ofNat 32 (1 + 8 * s.qclamp.toNat + 16 * s.oclamp.toNat + 32 * s.vtrunc.toNat) := by
  obtain ⟨_, herrv, hbusy, _⟩ := hs
  obtain ⟨hdone, herrv0⟩ := hbusy hb
  have hcode : s.errcode = 0 := by simpa [herrv0] using herrv
  simp [statusWord_eq, hb, hdone, herrv0, hcode]

theorem regAddr_mem_of_readableWhileBusy {r : Reg} (hr : r.readableWhileBusy = true) :
    regAddr r ∈ ([0x00000000, 0x00000004, 0x0000000C, 0x00000040, 0x00000044, 0x00000048] : List Word) := by
  revert hr
  cases r <;> decide

/-- Settles O10: a read that is no bus error reaches one of the six readable registers, at its own address, or
answers 0. -/
theorem busyHostAccess : Obligations.BusyHostAccess := by
  intro s hb hs
  have hread := fun {r : Reg} (hr : r.readableWhileBusy = true) => busRead_readableWhileBusy hr s
  simp only [← busTarget_eq_busError]
  refine ⟨fun addr data h => ⟨busRead_of_busError h, busWrite_of_busError h data⟩,
    fun addr data h => busWrite_of_busy hb h data,
    fun addr h hmem => busRead_of_busy hb h fun r ht => ?other,
    hread (r := .id) rfl, ctrlWord_eq s ▸ hread (r := .ctrl) rfl,
    statusWord_of_busy hb hs ▸ hread (r := .status) rfl,
    hread (r := .pWmax) rfl, hread (r := .pHmax) rfl, hread (r := .pBscap) rfl⟩
  case other =>
    rw [eq_regAddr_of_busTarget ht] at hmem
    exact Bool.eq_false_iff.2 fun hr => hmem (regAddr_mem_of_readableWhileBusy hr)

end Sys2Proof.Machine
